-- ==== Sys2Proof/Word.lean ====
section
/-! DEFINITION. The word types of the block and their plainest arithmetic.
Widths: `W = 256`, `CMD_BITS = 32` (R6); a DMEM cell is one byte (R50). -/

namespace Sys2Proof

/-- A 256-bit value: an element register, a coordinate, the content of a DMEM slot (R6, R21). -/
abbrev Word := BitVec 256

/-- One DMEM byte (R50). -/
abbrev Byte := BitVec 8

/-- One 32-bit command word of IMEM, and one word on the host's data bus (R50, R57, R70). -/
abbrev Cmd := BitVec 32

/-- The 256-bit value of a natural number. Every use in a command's result has `v < 2 ^ 256` (R11). -/
abbrev word (v : Nat) : Word := BitVec.ofNat 256 v

end Sys2Proof
end

