-- ==== Sys2Proof/Config.lean ====
section
/-! DEFINITION. What is fixed for the machine and what the spec leaves open: the named parameters of R6,
the curve constants of R13, and the free values (opaque constants, of which nothing can be proved). -/

namespace Sys2Proof.Config

/-- `W` of R6: bits of an element, an element register and a DMEM slot. -/
abbrev elementBits : Nat := 256
/-- `NE` of R6: the number of element registers. -/
abbrev numElems : Nat := 16
/-- `NP` of R6: the number of point registers. -/
abbrev numPoints : Nat := 8
/-- `IMEM_WORDS` of R6. -/
abbrev imemWords : Nat := 256
/-- `DMEM_SLOTS` of R6. -/
abbrev dmemSlots : Nat := 128
/-- Bytes of a slot (R51). -/
abbrev slotBytes : Nat := 32
/-- Bytes of DMEM, `32 * DMEM_SLOTS` (R6, R50). -/
abbrev dmemBytes : Nat := 4096
/-- `PC_BITS` of R6. -/
abbrev pcBits : Nat := 9
/-- `CMD_BITS` of R6. -/
abbrev cmdBits : Nat := 32
/-- `NCONST` of R6: the number of entries of the constant ROM. -/
abbrev numConsts : Nat := 11
/-- Bytes of the host window, 8 KiB (R50). -/
abbrev windowBytes : Nat := 0x2000

/-- `R` of R6: the Montgomery radix, `2 ^ 256`. -/
def R : Nat := 2 ^ 256

/-- The field prime `p` (R13; the digits are the spec's, marked there as general knowledge: log entry 10). -/
def p : Nat := 0xffffffff00000001000000000000000000000000ffffffffffffffffffffffff
/-- The group order `n` (R13; log entry 10). -/
def n : Nat := 0xffffffff00000000ffffffffffffffffbce6faada7179e84f3b9cac2fc632551
/-- The curve coefficient `b` (R13; log entry 10). -/
def b : Nat := 0x5ac635d8aa3a93e7b3ebbd55769886bc651d06b0cc53b0f63bce3c3e27d2604b
/-- The base point's `x` (R13; log entry 10). -/
def Gx : Nat := 0x6b17d1f2e12c4247f8bce6e563a440f277037d812deb33a0f4a13945d898c296
/-- The base point's `y` (R13; log entry 10). -/
def Gy : Nat := 0x4fe342e2fe1a7f9b8ee7eb4a7c0f9e162bce33576b315ececbb6406837bf51f5

/-- FREE VALUE (R39, V1): what IMEM word `index` holds until the host writes it, in the content numbered `epoch`.
"a model treats each word as an unconstrained draw until the host has written it". Log entry 1.
DESIGN CHOICE, unsafe: two blocks, or two power-ups, with the same `epoch` hold the same content. Log entry 18. -/
opaque imemDraw (epoch index : Nat) : Cmd

/-- FREE VALUE (R39, V2): what DMEM byte `address` holds until it is written or zeroized, in the content numbered
`epoch`.
"any value per byte, until written by the host, by `ST`, or zeroed by `CTRL.ZEROIZE`". Log entry 1.
DESIGN CHOICE, unsafe: as for `imemDraw`, log entry 18. -/
opaque dmemDraw (epoch address : Nat) : Byte

/-- FREE VALUE (R210): the number of the contents the memories have after a reset, when the content was numbered `epoch`
and these cells had been written since. "a model may not assume either that it survives or that it is cleared". Log
entry 19. -/
opaque epochAfterReset (epoch : Nat) (imem : List (Nat × Cmd)) (dmem : List (Nat × Byte)) : Nat

/-- FREE VALUE (R217, V3): one less than the latency of the commands of an opcode, in clock cycles. It is a
function of the opcode alone (R216); no functional rule uses it. Log entry 13. -/
opaque latencyLessOne (op : BitVec 8) : Nat

/-- FREE VALUE (R59, V4): which 8 KiB block of the host's bus the window occupies. Log entry 14. -/
opaque baseBlock : Nat

/-- `BASE`: the window's base address on the host's bus, aligned to 8 KiB (the open parameters of
`92_eei_decisions.md`). -/
def base : Nat := windowBytes * baseBlock

end Sys2Proof.Config
end

