-- ==== Sys2Proof/Syntax.lean ====
section
/-! DEFINITION. The commands as syntax: one constructor per row of the opcode table (R74), operands in the
order destination, sources (R81). Register fields are the raw 4-bit fields of the word; which values are legal
is `WellFormed.lean`'s. -/

namespace Sys2Proof

/-- A field that names an element register: all 16 values legal (R72). -/
abbrev EReg := BitVec 4

/-- A field that names a point register: 4 bits wide, only 0..7 legal (R23, R72, R78). -/
abbrev PReg := BitVec 4

/-- The 12-bit unsigned immediate: a slot number or a constant index (R73). -/
abbrev Imm := BitVec 12

/-- The 35 commands of the opcode map (R74). -/
inductive Instr where
  /-- `NOP` (R91). -/
  | nop
  /-- `END` (R92). -/
  | endRun
  /-- `WIPE` (R93). -/
  | wipe
  /-- `MOV ed, ea` (R94). -/
  | mov (d a : EReg)
  /-- `LD ed, slot` (R95). -/
  | ld (d : EReg) (slot : Imm)
  /-- `ST slot, ea` (R96). -/
  | st (slot : Imm) (a : EReg)
  /-- `LDC ed, index` (R97). -/
  | ldc (d : EReg) (index : Imm)
  /-- `FADD ed, ea, eb` (R101). -/
  | fadd (d a b : EReg)
  /-- `FSUB ed, ea, eb` (R102). -/
  | fsub (d a b : EReg)
  /-- `FMUL ed, ea, eb` (R103). -/
  | fmul (d a b : EReg)
  /-- `FMMUL ed, ea, eb` (R104). -/
  | fmmul (d a b : EReg)
  /-- `FINV ed, ea` (R105). -/
  | finv (d a : EReg)
  /-- `FEQ ed, ea, eb` (R106). -/
  | feq (d a b : EReg)
  /-- `FCHK ea` (R107). -/
  | fchk (a : EReg)
  /-- `FRED ed, ea, eb` (R108): `ea` the high half, `eb` the low half. -/
  | fred (d a b : EReg)
  /-- `SADD ed, ea, eb` (R121). -/
  | sadd (d a b : EReg)
  /-- `SSUB ed, ea, eb` (R122). -/
  | ssub (d a b : EReg)
  /-- `SMUL ed, ea, eb` (R123). -/
  | smul (d a b : EReg)
  /-- `SMMUL ed, ea, eb` (R124). -/
  | smmul (d a b : EReg)
  /-- `SINV ed, ea` (R125). -/
  | sinv (d a : EReg)
  /-- `SEQ ed, ea, eb` (R126). -/
  | seq (d a b : EReg)
  /-- `SCHK ea` (R127). -/
  | schk (a : EReg)
  /-- `SRED ed, ea, eb` (R128): `ea` the high half, `eb` the low half. -/
  | sred (d a b : EReg)
  /-- `PSET pd, ea, eb` (R140). -/
  | pset (d : PReg) (a b : EReg)
  /-- `PINF pd` (R141). -/
  | pinf (d : PReg)
  /-- `PLDG pd` (R142). -/
  | pldg (d : PReg)
  /-- `PMOV pd, pa` (R143). -/
  | pmov (d a : PReg)
  /-- `PGETX ed, pa` (R144). -/
  | pgetx (d : EReg) (a : PReg)
  /-- `PGETY ed, pa` (R145). -/
  | pgety (d : EReg) (a : PReg)
  /-- `PISINF ed, pa` (R146). -/
  | pisinf (d : EReg) (a : PReg)
  /-- `PCHK pa` (R156). -/
  | pchk (a : PReg)
  /-- `PDBL pd, pa` (R157). -/
  | pdbl (d a : PReg)
  /-- `PADD pd, pa, pb` (R158). -/
  | padd (d a b : PReg)
  /-- `PMUL pd, ek, pb` (R159): `a` the scalar's element register, `b` the point register. -/
  | pmul (d : PReg) (a : EReg) (b : PReg)
  /-- `PEQ ed, pa, pb` (R160). -/
  | peq (d : EReg) (a b : PReg)
  deriving DecidableEq, Repr

end Sys2Proof
end

