-- ==== Sys2Proof/WellFormed.lean ====
section
/-! DEFINITION. Which command terms are legal: point fields 0..7 (R72, R78) and a constant index 0..10 (R79).
Element fields have all 16 values legal (R72). A slot number above 127 is a legal encoding: its word matches the
row, and the command raises `BAD_ADDRESS` (R67, R75 step 5). -/

namespace Sys2Proof

/-- A point-register field is legal iff it is 0..7 (R72, R78). -/
def isPoint (r : PReg) : Bool := r.toNat < Config.numPoints

/-- A constant index is legal iff it is 0..10 (R73, R79). -/
def isConst (i : Imm) : Bool := i.toNat < Config.numConsts

/-- The command's fields are legal (R75 steps 3 and 4). -/
def Instr.wf : Instr → Bool
  | .nop | .endRun | .wipe => true
  | .mov _ _ | .ld _ _ | .st _ _ => true
  | .ldc _ index => isConst index
  | .fadd _ _ _ | .fsub _ _ _ | .fmul _ _ _ | .fmmul _ _ _ => true
  | .finv _ _ | .feq _ _ _ | .fchk _ | .fred _ _ _ => true
  | .sadd _ _ _ | .ssub _ _ _ | .smul _ _ _ | .smmul _ _ _ => true
  | .sinv _ _ | .seq _ _ _ | .schk _ | .sred _ _ _ => true
  | .pset d _ _ => isPoint d
  | .pinf d => isPoint d
  | .pldg d => isPoint d
  | .pmov d a => isPoint d && isPoint a
  | .pgetx _ a => isPoint a
  | .pgety _ a => isPoint a
  | .pisinf _ a => isPoint a
  | .pchk a => isPoint a
  | .pdbl d a => isPoint d && isPoint a
  | .padd d a b => isPoint d && isPoint a && isPoint b
  | .pmul d _ b => isPoint d && isPoint b
  | .peq _ a b => isPoint a && isPoint b

end Sys2Proof
end

