-- ==== Sys2Proof/Decode.lean ====
section
/-! DEFINITION. The decoder of R75 (total on all `2 ^ 32` words, rejecting by name), the encoder written from the
same tables (R70, R71, R74), and the opcode table's rows. -/

namespace Sys2Proof

/-! ## Fields (R70) -/

/-- The five fields every command shares (R70). -/
@[ext]
structure Fields where
  op : BitVec 8
  d : BitVec 4
  a : BitVec 4
  b : BitVec 4
  imm : BitVec 12
  deriving DecidableEq, Repr

/-- `op = w[31:24]`, `d = w[23:20]`, `a = w[19:16]`, `b = w[15:12]`, `imm = w[11:0]` (R70, R75). -/
def fieldsOf (w : Cmd) : Fields where
  op := w.extractLsb' 24 8
  d := w.extractLsb' 20 4
  a := w.extractLsb' 16 4
  b := w.extractLsb' 12 4
  imm := w.extractLsb' 0 12

/-- The word `op || d || a || b || imm` (R70). -/
def wordOf (f : Fields) : Cmd := f.op ++ f.d ++ f.a ++ f.b ++ f.imm

/-! ## Decoding (R75) -/

/-- Why a word is no legal command; each of them raises `ILLEGAL_COMMAND` (R75 steps 1 to 4, R181). -/
inductive Reject where
  /-- Step 1: `op` is not in the table (R76). -/
  | reservedOpcode
  /-- Step 2: a field the format does not use is not zero (R77). -/
  | unusedField
  /-- Step 3: a point-register field is above 7 (R78). -/
  | pointField
  /-- Step 4: `LDC` with an index above 10 (R79). -/
  | constIndex
  deriving DecidableEq, Repr

/-- Go on if the check holds, else reject for the reason. -/
def need (ok : Bool) (r : Reject) (k : Except Reject Instr) : Except Reject Instr :=
  if ok then k else .error r

/-- Format `N`: no operand (R71). -/
def formN (c : Instr) (f : Fields) : Except Reject Instr :=
  need (f.d == 0 && f.a == 0 && f.b == 0 && f.imm == 0) .unusedField (.ok c)

/-- Format `EE`: `d`, `a` element registers (R71). -/
def formEE (c : EReg → EReg → Instr) (f : Fields) : Except Reject Instr :=
  need (f.b == 0 && f.imm == 0) .unusedField (.ok (c f.d f.a))

/-- Format `EEE`: `d`, `a`, `b` element registers (R71). -/
def formEEE (c : EReg → EReg → EReg → Instr) (f : Fields) : Except Reject Instr :=
  need (f.imm == 0) .unusedField (.ok (c f.d f.a f.b))

/-- Format `A`: `a` an element register (R71). -/
def formA (c : EReg → Instr) (f : Fields) : Except Reject Instr :=
  need (f.d == 0 && f.b == 0 && f.imm == 0) .unusedField (.ok (c f.a))

/-- Format `LD`: `d` an element register, `imm` a slot; step 5 (`BAD_ADDRESS`) is the command's (R71, R75, R95). -/
def formLD (c : EReg → Imm → Instr) (f : Fields) : Except Reject Instr :=
  need (f.a == 0 && f.b == 0) .unusedField (.ok (c f.d f.imm))

/-- Format `ST`: `a` an element register, `imm` a slot; step 5 is the command's (R71, R75, R96). -/
def formST (c : Imm → EReg → Instr) (f : Fields) : Except Reject Instr :=
  need (f.d == 0 && f.b == 0) .unusedField (.ok (c f.imm f.a))

/-- Format `LDC`: `d` an element register, `imm` a constant index, checked in step 4 (R71, R75, R79). -/
def formLDC (c : EReg → Imm → Instr) (f : Fields) : Except Reject Instr :=
  need (f.a == 0 && f.b == 0) .unusedField <| need (isConst f.imm) .constIndex (.ok (c f.d f.imm))

/-- Format `PEE`: `d` a point register, `a`, `b` element registers (R71). -/
def formPEE (c : PReg → EReg → EReg → Instr) (f : Fields) : Except Reject Instr :=
  need (f.imm == 0) .unusedField <| need (isPoint f.d) .pointField (.ok (c f.d f.a f.b))

/-- Format `PD`: `d` a point register (R71). -/
def formPD (c : PReg → Instr) (f : Fields) : Except Reject Instr :=
  need (f.a == 0 && f.b == 0 && f.imm == 0) .unusedField <| need (isPoint f.d) .pointField (.ok (c f.d))

/-- Format `PP`: `d`, `a` point registers (R71). -/
def formPP (c : PReg → PReg → Instr) (f : Fields) : Except Reject Instr :=
  need (f.b == 0 && f.imm == 0) .unusedField <|
    need (isPoint f.d && isPoint f.a) .pointField (.ok (c f.d f.a))

/-- Format `EP`: `d` an element register, `a` a point register (R71). -/
def formEP (c : EReg → PReg → Instr) (f : Fields) : Except Reject Instr :=
  need (f.b == 0 && f.imm == 0) .unusedField <| need (isPoint f.a) .pointField (.ok (c f.d f.a))

/-- Format `PA`: `a` a point register (R71). -/
def formPA (c : PReg → Instr) (f : Fields) : Except Reject Instr :=
  need (f.d == 0 && f.b == 0 && f.imm == 0) .unusedField <| need (isPoint f.a) .pointField (.ok (c f.a))

/-- Format `PPP`: `d`, `a`, `b` point registers (R71). -/
def formPPP (c : PReg → PReg → PReg → Instr) (f : Fields) : Except Reject Instr :=
  need (f.imm == 0) .unusedField <|
    need (isPoint f.d && isPoint f.a && isPoint f.b) .pointField (.ok (c f.d f.a f.b))

/-- Format `PEP`: `d` a point register, `a` the scalar's element register, `b` a point register (R71). -/
def formPEP (c : PReg → EReg → PReg → Instr) (f : Fields) : Except Reject Instr :=
  need (f.imm == 0) .unusedField <|
    need (isPoint f.d && isPoint f.b) .pointField (.ok (c f.d f.a f.b))

/-- Format `EPP`: `d` an element register, `a`, `b` point registers (R71). -/
def formEPP (c : EReg → PReg → PReg → Instr) (f : Fields) : Except Reject Instr :=
  need (f.imm == 0) .unusedField <|
    need (isPoint f.a && isPoint f.b) .pointField (.ok (c f.d f.a f.b))

/-- The opcode map of R74 on the fields of a word: step 1, then the format's steps 2 to 4 (R75). -/
def decodeFields (f : Fields) : Except Reject Instr :=
  match f.op with
  | 0x01#8 => formN .nop f
  | 0x02#8 => formN .endRun f
  | 0x03#8 => formN .wipe f
  | 0x10#8 => formEE .mov f
  | 0x11#8 => formLD .ld f
  | 0x12#8 => formST .st f
  | 0x13#8 => formLDC .ldc f
  | 0x20#8 => formEEE .fadd f
  | 0x21#8 => formEEE .fsub f
  | 0x22#8 => formEEE .fmul f
  | 0x23#8 => formEEE .fmmul f
  | 0x24#8 => formEE .finv f
  | 0x25#8 => formEEE .feq f
  | 0x26#8 => formA .fchk f
  | 0x27#8 => formEEE .fred f
  | 0x30#8 => formEEE .sadd f
  | 0x31#8 => formEEE .ssub f
  | 0x32#8 => formEEE .smul f
  | 0x33#8 => formEEE .smmul f
  | 0x34#8 => formEE .sinv f
  | 0x35#8 => formEEE .seq f
  | 0x36#8 => formA .schk f
  | 0x37#8 => formEEE .sred f
  | 0x40#8 => formPEE .pset f
  | 0x41#8 => formPD .pinf f
  | 0x42#8 => formPD .pldg f
  | 0x43#8 => formPP .pmov f
  | 0x44#8 => formEP .pgetx f
  | 0x45#8 => formEP .pgety f
  | 0x46#8 => formEP .pisinf f
  | 0x50#8 => formPA .pchk f
  | 0x51#8 => formPP .pdbl f
  | 0x52#8 => formPPP .padd f
  | 0x53#8 => formPEP .pmul f
  | 0x54#8 => formEPP .peq f
  | _ => .error .reservedOpcode

/-- Decode steps 1 to 4 of R75; step 5 (`BAD_ADDRESS`) is in the meanings of `LD` and `ST` (log entry 15). -/
def decode (w : Cmd) : Except Reject Instr := decodeFields (fieldsOf w)

/-! ## Encoding (R70, R71, R74) -/

/-- The command's opcode (R74). -/
def Instr.opcode : Instr → BitVec 8
  | .nop => 0x01 | .endRun => 0x02 | .wipe => 0x03
  | .mov _ _ => 0x10 | .ld _ _ => 0x11 | .st _ _ => 0x12 | .ldc _ _ => 0x13
  | .fadd _ _ _ => 0x20 | .fsub _ _ _ => 0x21 | .fmul _ _ _ => 0x22 | .fmmul _ _ _ => 0x23
  | .finv _ _ => 0x24 | .feq _ _ _ => 0x25 | .fchk _ => 0x26 | .fred _ _ _ => 0x27
  | .sadd _ _ _ => 0x30 | .ssub _ _ _ => 0x31 | .smul _ _ _ => 0x32 | .smmul _ _ _ => 0x33
  | .sinv _ _ => 0x34 | .seq _ _ _ => 0x35 | .schk _ => 0x36 | .sred _ _ _ => 0x37
  | .pset _ _ _ => 0x40 | .pinf _ => 0x41 | .pldg _ => 0x42 | .pmov _ _ => 0x43
  | .pgetx _ _ => 0x44 | .pgety _ _ => 0x45 | .pisinf _ _ => 0x46
  | .pchk _ => 0x50 | .pdbl _ _ => 0x51 | .padd _ _ _ => 0x52 | .pmul _ _ _ => 0x53 | .peq _ _ _ => 0x54

/-- The command's fields: its opcode, its operands where its format puts them (R71, R81), every other field zero
(R77). -/
def encodeFields (i : Instr) : Fields :=
  match i with
  | .nop | .endRun | .wipe => ⟨i.opcode, 0, 0, 0, 0⟩
  | .mov d a | .finv d a | .sinv d a => ⟨i.opcode, d, a, 0, 0⟩
  | .ld d slot => ⟨i.opcode, d, 0, 0, slot⟩
  | .st slot a => ⟨i.opcode, 0, a, 0, slot⟩
  | .ldc d index => ⟨i.opcode, d, 0, 0, index⟩
  | .fadd d a b | .fsub d a b | .fmul d a b | .fmmul d a b | .feq d a b | .fred d a b => ⟨i.opcode, d, a, b, 0⟩
  | .sadd d a b | .ssub d a b | .smul d a b | .smmul d a b | .seq d a b | .sred d a b => ⟨i.opcode, d, a, b, 0⟩
  | .fchk a | .schk a | .pchk a => ⟨i.opcode, 0, a, 0, 0⟩
  | .pset d a b | .padd d a b | .pmul d a b | .peq d a b => ⟨i.opcode, d, a, b, 0⟩
  | .pinf d | .pldg d => ⟨i.opcode, d, 0, 0, 0⟩
  | .pmov d a | .pdbl d a | .pgetx d a | .pgety d a | .pisinf d a => ⟨i.opcode, d, a, 0, 0⟩

/-- The command's word (R70, R71, R74). -/
def encode (i : Instr) : Cmd := wordOf (encodeFields i)

/-! ## The opcode table (R74, R75) -/

/-- One row of `opcode_table.json`: steps 1 to 3 of R75 pass for a row exactly when `(w & mask) = match`. -/
structure OpRow where
  mnemonic : String
  mask : Cmd
  code : Cmd
  deriving DecidableEq, Repr

/-- The word matches the row (R75). -/
def OpRow.fits (r : OpRow) (w : Cmd) : Bool := (w &&& r.mask) == r.code

/-- Families 0 and 1: control, element moves and memory. -/
def rowsControlMove : List OpRow :=
  [⟨"NOP", 0xFFFFFFFF, 0x01000000⟩, ⟨"END", 0xFFFFFFFF, 0x02000000⟩, ⟨"WIPE", 0xFFFFFFFF, 0x03000000⟩,
   ⟨"MOV", 0xFF00FFFF, 0x10000000⟩, ⟨"LD", 0xFF0FF000, 0x11000000⟩, ⟨"ST", 0xFFF0F000, 0x12000000⟩,
   ⟨"LDC", 0xFF0FF000, 0x13000000⟩]

/-- Family 2: field arithmetic. -/
def rowsField : List OpRow :=
  [⟨"FADD", 0xFF000FFF, 0x20000000⟩, ⟨"FSUB", 0xFF000FFF, 0x21000000⟩, ⟨"FMUL", 0xFF000FFF, 0x22000000⟩,
   ⟨"FMMUL", 0xFF000FFF, 0x23000000⟩, ⟨"FINV", 0xFF00FFFF, 0x24000000⟩, ⟨"FEQ", 0xFF000FFF, 0x25000000⟩,
   ⟨"FCHK", 0xFFF0FFFF, 0x26000000⟩, ⟨"FRED", 0xFF000FFF, 0x27000000⟩]

/-- Family 3: scalar arithmetic. -/
def rowsScalar : List OpRow :=
  [⟨"SADD", 0xFF000FFF, 0x30000000⟩, ⟨"SSUB", 0xFF000FFF, 0x31000000⟩, ⟨"SMUL", 0xFF000FFF, 0x32000000⟩,
   ⟨"SMMUL", 0xFF000FFF, 0x33000000⟩, ⟨"SINV", 0xFF00FFFF, 0x34000000⟩, ⟨"SEQ", 0xFF000FFF, 0x35000000⟩,
   ⟨"SCHK", 0xFFF0FFFF, 0x36000000⟩, ⟨"SRED", 0xFF000FFF, 0x37000000⟩]

/-- Families 4 and 5: point moves and point arithmetic. -/
def rowsPoint : List OpRow :=
  [⟨"PSET", 0xFF800FFF, 0x40000000⟩, ⟨"PINF", 0xFF8FFFFF, 0x41000000⟩, ⟨"PLDG", 0xFF8FFFFF, 0x42000000⟩,
   ⟨"PMOV", 0xFF88FFFF, 0x43000000⟩, ⟨"PGETX", 0xFF08FFFF, 0x44000000⟩, ⟨"PGETY", 0xFF08FFFF, 0x45000000⟩,
   ⟨"PISINF", 0xFF08FFFF, 0x46000000⟩, ⟨"PCHK", 0xFFF8FFFF, 0x50000000⟩, ⟨"PDBL", 0xFF88FFFF, 0x51000000⟩,
   ⟨"PADD", 0xFF888FFF, 0x52000000⟩, ⟨"PMUL", 0xFF808FFF, 0x53000000⟩, ⟨"PEQ", 0xFF088FFF, 0x54000000⟩]

/-- The 35 rows of the opcode table. -/
def opcodeTable : List OpRow := rowsControlMove ++ rowsField ++ rowsScalar ++ rowsPoint

/-- The command's mnemonic (R74, R81). -/
def Instr.mnemonic : Instr → String
  | .nop => "NOP" | .endRun => "END" | .wipe => "WIPE"
  | .mov _ _ => "MOV" | .ld _ _ => "LD" | .st _ _ => "ST" | .ldc _ _ => "LDC"
  | .fadd _ _ _ => "FADD" | .fsub _ _ _ => "FSUB" | .fmul _ _ _ => "FMUL" | .fmmul _ _ _ => "FMMUL"
  | .finv _ _ => "FINV" | .feq _ _ _ => "FEQ" | .fchk _ => "FCHK" | .fred _ _ _ => "FRED"
  | .sadd _ _ _ => "SADD" | .ssub _ _ _ => "SSUB" | .smul _ _ _ => "SMUL" | .smmul _ _ _ => "SMMUL"
  | .sinv _ _ => "SINV" | .seq _ _ _ => "SEQ" | .schk _ => "SCHK" | .sred _ _ _ => "SRED"
  | .pset _ _ _ => "PSET" | .pinf _ => "PINF" | .pldg _ => "PLDG" | .pmov _ _ => "PMOV"
  | .pgetx _ _ => "PGETX" | .pgety _ _ => "PGETY" | .pisinf _ _ => "PISINF"
  | .pchk _ => "PCHK" | .pdbl _ _ => "PDBL" | .padd _ _ _ => "PADD" | .pmul _ _ _ => "PMUL" | .peq _ _ _ => "PEQ"

/-- The instruction the decoder reads from a table word: bit 0 of `w` is the command word's bit 0, bits at and above
`nbits` are zero, and a command is one 32-bit word (R54, R70). -/
def decodeTableWord (nbits w : Nat) : Option Instr :=
  (decode (BitVec.ofNat 32 (w % 2 ^ nbits))).toOption

end Sys2Proof
end

