-- ==== Sys2Proof/Machine/Arith.lean ====
section
/-! DEFINITION. Modular arithmetic on unbounded integers (R11), the Montgomery product and its reference algorithm
(R104, R110, R124). Results are stored by `word`; each is below its modulus. -/

namespace Sys2Proof.Machine

/-- `x mod m`: the unique `r` with `0 <= r < m` and `m | (x - r)`, also for negative `x` (R7). -/
def zmod (x : Int) (m : Nat) : Nat := (x % (m : Int)).toNat

/-- `addm(a, b, m) = (a + b) mod m` (R11). -/
def addm (m a b : Nat) : Nat := (a + b) % m

/-- `subm(a, b, m) = (a - b) mod m` (R11). -/
def subm (m a b : Nat) : Nat := zmod ((a : Int) - b) m

/-- `mulm(a, b, m) = (a * b) mod m` (R11). -/
def mulm (m a b : Nat) : Nat := a * b % m

/-- `b ^ e mod m` by squaring, for `e < 2 ^ k`. -/
def powMod (m : Nat) : Nat → Nat → Nat → Nat
  | 0, _, _ => 1 % m
  | k + 1, b, e =>
    let r := powMod m k (b * b % m) (e / 2)
    if e % 2 = 1 then r * b % m else r

/-- `invm(a, m) = a ^ (m - 2) mod m` for the prime moduli `p`, `n < 2 ^ 256` (R11, R112: "A model computes
`x^(p-2) mod p`"). -/
def invm (a m : Nat) : Nat := powMod m 256 (a % m) (m - 2)

/-- `RINVP = invm(2^256, p)` (R14). -/
def rInvP : Nat := 0xfffffffe00000003fffffffd0000000200000001fffffffe0000000300000000

/-- `RINVN = invm(2^256, n)` (R14). -/
def rInvN : Nat := 0x60d066334905c1e907f8b6041e607725badef3e243566fafce1bc8f79c197c79

/-- The Montgomery product `(x * y * RINVP) mod p` (R104). -/
def montP (x y : Nat) : Nat := x * y * rInvP % Config.p

/-- The Montgomery product `(x * y * RINVN) mod n` (R124). -/
def montN (x y : Nat) : Nat := x * y * rInvN % Config.n

/-- `hi || lo`: the 512-bit integer `hi * 2^256 + lo` that `FRED` and `SRED` reduce (R108, R128). -/
def wide (hi lo : Nat) : Nat := hi * 2 ^ 256 + lo

/-! ## The reference algorithm of the Montgomery unit (R110; informative, not used by any meaning) -/

/-- `PPRIME = (-p^-1) mod 2^256` (R14). -/
def pPrime : Nat := 0xffffffff00000002000000000000000000000001000000000000000000000001

/-- `NPRIME = (-n^-1) mod 2^256` (R14). -/
def nPrime : Nat := 0x60d06633a9d6281c50fe77ecc588c6f648c944087d74d2e4ccd1c8aaee00bc4f

/-- `REDC(T, m)` with `MPRIME = mPrime` (R110). -/
def redc (m mPrime t : Nat) : Nat :=
  let q := t % Config.R * mPrime % Config.R
  let u := (t + q * m) / Config.R
  if m ≤ u then u - m else u

end Sys2Proof.Machine
end

