-- ==== Sys2Proof/Machine/State.lean ====
section
/-! DEFINITION. The state of one block (R20), the two ways the model itself can stop, and the state after reset
(R39). Everything is plain data. -/

namespace Sys2Proof.Machine

/-- The run state (R28). -/
inductive RunState where
  /-- No run has finished since reset or since the last `CTRL.CLEAR`. -/
  | idle
  /-- The sequencer is executing; the only state in which it steps. -/
  | busy
  /-- The last run executed `END`. -/
  | done
  /-- The last run raised a fault. -/
  | fault
  deriving DecidableEq, Repr

/-- One point register `(x, y, inf)` (R23): any two 256-bit values and the infinity bit. -/
structure PointReg where
  x : Word
  y : Word
  inf : Bool
  deriving DecidableEq, Repr

/-- The hardware's six faults (R180). Each is taken by `State.raise` (R188) and gives a NEXT state. -/
inductive Cause where
  /-- Code 1: the fetched word is not a legal command (R181). -/
  | illegalCommand
  /-- Code 2: a fetch is attempted with `pc = 256` (R182). -/
  | pcOverrun
  /-- Code 3: `LD` or `ST` names a slot `>= 128` (R183). -/
  | badAddress
  /-- Code 4: an element operand is not below its modulus (R184). -/
  | outOfRange
  /-- Code 5: the operand of an inversion is zero (R185). -/
  | invalidOperand
  /-- Code 6: a point operand is not valid (R186). -/
  | invalidPoint
  deriving DecidableEq, Repr

/-- One access of the host to the window, at a byte offset from its base (R56, R59). -/
inductive HostAccess where
  /-- A read of `bits` bits at the byte offset. -/
  | read (offset bits : Nat)
  /-- A write of `bits` bits at the byte offset; `data` is the bus word. -/
  | write (offset bits : Nat) (data : Cmd)
  deriving DecidableEq, Repr

/-- Whose move is next: the core's, the host's, or the reset input's (R63, R210). Log entry 3. -/
inductive Turn where
  /-- The core steps. -/
  | core
  /-- The host makes one window access. -/
  | host (a : HostAccess)
  /-- Reset is asserted and released. -/
  | reset
  deriving DecidableEq, Repr

/-- Why the MODEL stops. The hardware's own faults are next states (R188), not this. -/
inductive Fault where
  /-- Raised by the sequencer's step at a `pc` above 256: R26 says "`pc` never exceeds 256", and IMEM has no such
  word. Safe: the model stops, and no run reaches such a state. Log entry 7. -/
  | pcBeyondImem
  deriving DecidableEq, Repr

/-- Why the model has no meaning for an instruction. -/
inductive Refusal where
  /-- Raised by an arm of `exec` whose instruction has no meaning yet; safe. No arm raises it: every instruction of
  the table has its meaning. -/
  | notModelled (mnemonic : String)
  deriving DecidableEq, Repr

/-- The complete state of one block (R20), and three fields of the model's own. -/
structure State where
  /-- `e0` .. `e15` (R21). -/
  elems : Vector Word 16
  /-- `p0` .. `p7` (R23). -/
  points : Vector PointReg 8
  /-- The program counter, a word index into IMEM (R26). -/
  pc : BitVec 9
  /-- The run state (R28). -/
  run : RunState
  /-- `ERR.CODE` (R29, R180). -/
  err : BitVec 4
  /-- `EPC` (R29). -/
  epc : BitVec 9
  /-- `START_PC` (R29). -/
  startPc : BitVec 8
  /-- `INTR_EN`: bit 0 `DONE_EN`, bit 1 `FAULT_EN` (R29). -/
  intrEn : BitVec 2
  /-- `INTR_STATE`: bit 0 `DONE`, bit 1 `FAULT` (R29, R31). -/
  intrState : BitVec 2
  /-- The IMEM words written since reset, by index (R38, R50); an unlisted one is a free value (R39). -/
  imem : List (Nat × BitVec 32)
  /-- The DMEM bytes written since reset, by byte address (R38, R50); an unlisted one is a free value (R39). -/
  dmem : List Host.Cell
  /-- MODEL'S OWN (log entries 1, 18, 19): the number of the memories' unspecified content; it selects their free
  values. -/
  epoch : Nat
  /-- MODEL'S OWN (log entry 3): the turns to come; with none listed the core moves. -/
  agenda : List Turn
  /-- MODEL'S OWN (log entry 4): the word the latest host read returned (the window's read data of R32). -/
  rdata : BitVec 32
  deriving DecidableEq, Repr

/-- The state after reset (R39, R210): registers 0, every point register `(0, 0, 0)`, `pc` 0, `run` IDLE, control
registers 0, both memories unspecified (nothing listed). DESIGN CHOICE: it has content number 0, so two blocks both in this
very state hold the same unwritten cells; `State.powerUp` takes any number (log entry 18). -/
def State.reset : State where
  elems := Vector.replicate 16 0
  points := Vector.replicate 8 ⟨0, 0, false⟩
  pc := 0
  run := .idle
  err := 0
  epc := 0
  startPc := 0
  intrEn := 0
  intrState := 0
  imem := []
  dmem := []
  epoch := 0
  agenda := []
  rdata := 0

/-- The state after reset with the memories' content numbered `epoch`. A claim about several blocks, or several power-ups,
takes one number for each (R39, R200; log entry 18). -/
def State.powerUp (epoch : Nat) : State := { State.reset with epoch := epoch }

end Sys2Proof.Machine
end

