-- ==== Sys2Proof/Machine/Memory.lean ====
section
/-! DEFINITION. A memory as a list of address and cell pairs in one canonical form: addresses strictly rising, every
address inside the memory. An unlisted address holds no value of its own (log entry 1), so no entry can equal what
an unlisted address holds. DMEM's cells are bytes, IMEM's are command words (R38, R50). -/

namespace Sys2Proof.Machine

/-- The cell listed at an address, if any. -/
def Memory.get? {w : Nat} : List (Nat × BitVec w) → Nat → Option (BitVec w)
  | [], _ => none
  | (k, v) :: m, a => if a = k then some v else Memory.get? m a

/-- Store a cell at an address, keeping the addresses rising. -/
def Memory.set {w : Nat} : List (Nat × BitVec w) → Nat → BitVec w → List (Nat × BitVec w)
  | [], a, c => [(a, c)]
  | (k, v) :: m, a, c =>
    if a < k then (a, c) :: (k, v) :: m
    else if a = k then (a, c) :: m
    else (k, v) :: Memory.set m a c

/-- One cell at each of `n` addresses from `a` on. -/
def Memory.fillFrom {w : Nat} (c : BitVec w) : Nat → Nat → List (Nat × BitVec w)
  | _, 0 => []
  | a, n + 1 => (a, c) :: Memory.fillFrom c (a + 1) n

/-- The memory with one cell at every address `0 .. size - 1`. -/
def Memory.fill {w : Nat} (size : Nat) (c : BitVec w) : List (Nat × BitVec w) := Memory.fillFrom c 0 size

/-- The canonical form: addresses strictly rising, and below the memory's size. -/
abbrev Memory.wf {w : Nat} (size : Nat) (m : List (Nat × BitVec w)) : Prop :=
  m.Pairwise (fun c c' => c.1 < c'.1) ∧ ∀ c ∈ m, c.1 < size

end Sys2Proof.Machine
end

