-- ==== Sys2Proof/Machine/Ops.lean ====
section
/-! DEFINITION. The named operations over the state: reading and writing registers and memories (R8, R9), completing
a command (R90), taking a fault (R188) and acknowledging one (R34, R190). -/

namespace Sys2Proof.Machine

/-- What one command, or one step, answers. -/
abbrev Result := Host.Outcome State Fault Refusal

/-! ## Registers (R8, R21, R23) -/

/-- `e[i]` (R8, R21, R72). -/
def State.elem (s : State) (i : EReg) : Word := s.elems[i.toNat]'(i.isLt)

/-- `e[i] <- v` (R8). -/
def State.setElem (s : State) (i : EReg) (v : Word) : State :=
  { s with elems := s.elems.set i.toNat v i.isLt }

/-- The value `(0, 0, 0)` of a point register after reset or a wipe; not a valid point (R39, R93). -/
def PointReg.zero : PointReg := ⟨0, 0, false⟩

/-- `p[i]` for a legal field, 0..7 (R8, R23). Other fields name no register and are never read: a command with one is
illegal (R78). -/
def State.point (s : State) (i : PReg) : PointReg := s.points[i.toNat]?.getD PointReg.zero

/-- `p[i] <- v`, all three fields at once, for a legal field (R8). -/
def State.setPoint (s : State) (i : PReg) (v : PointReg) : State :=
  { s with points := s.points.setIfInBounds i.toNat v }

/-- Every element register 0 and every point register `(0, 0, 0)` (R35, R93). -/
def State.wipeRegs (s : State) : State :=
  { s with elems := Vector.replicate 16 0, points := Vector.replicate 8 PointReg.zero }

/-! ## IMEM (R38, R54) -/

/-- `IMEM[k]`: what was written there since reset, else the free value (R39). -/
def State.imemWord (s : State) (k : Nat) : Cmd := (Memory.get? s.imem k).getD (Config.imemDraw s.epoch k)

/-- `IMEM[k] <- w`. -/
def State.setImem (s : State) (k : Nat) (w : Cmd) : State := { s with imem := Memory.set s.imem k w }

/-! ## DMEM (R9, R51, R52) -/

/-- `DMEM[a]`: what was written there since reset, else the free value (R39). -/
def State.dmemByte (s : State) (a : Nat) : Byte := (Memory.get? s.dmem a).getD (Config.dmemDraw s.epoch a)

/-- The big-endian value of the `n` bytes `f addr .. f (addr + n - 1)` (R9). -/
def be (f : Nat → Byte) (addr : Nat) : Nat → Nat
  | 0 => 0
  | n + 1 => be f addr n * 256 + (f (addr + n)).toNat

/-- Store `v` big-endian in the `n` cells from `addr` on: cell `addr + j` gets `(v >> (8*(n-1-j))) mod 256` (R9). -/
def putBe (m : List Host.Cell) (addr : Nat) : Nat → Nat → List Host.Cell
  | 0, _ => m
  | n + 1, v => Memory.set (putBe m addr n (v / 256)) (addr + n) (BitVec.ofNat 8 v)

/-- `MemRead(addr, n)` (R9). -/
def State.memRead (s : State) (addr n : Nat) : Nat := be s.dmemByte addr n

/-- `MemWrite(addr, n, v)` (R9). -/
def State.memWrite (s : State) (addr n v : Nat) : State := { s with dmem := putBe s.dmem addr n v }

/-- Every DMEM byte 0 (R35). -/
def State.zeroDmem (s : State) : State := { s with dmem := Memory.fill Config.dmemBytes 0 }

/-! ## Completing a command, and faults -/

/-- `pc <- pc + 1` (R26, R90). -/
def State.advance (s : State) : State := { s with pc := s.pc + 1 }

/-- The end of a command that is not `END` and raised no fault (R90). -/
def complete (s : State) : Result := .next s.advance

/-- The fault's code, the value `ERR.CODE` takes (R180). -/
def Cause.code : Cause → BitVec 4
  | .illegalCommand => 1
  | .pcOverrun => 2
  | .badAddress => 3
  | .outOfRange => 4
  | .invalidOperand => 5
  | .invalidPoint => 6

/-- Fault entry (R188): `ERR <- code; EPC <- pc; run <- FAULT; INTR_STATE.FAULT <- 1`, and nothing else. -/
def State.raise (c : Cause) (s : State) : State :=
  { s with err := c.code, epc := s.pc, run := .fault, intrState := s.intrState ||| 2#2 }

/-- `raise F` as the end of a command: none of its writes happens and `pc` is not advanced (R10, R188). -/
def trap (c : Cause) (s : State) : Result := .next (s.raise c)

/-- The acknowledgement of a fault, the host's `CLEAR` (R34, R190): `run <- IDLE; ERR <- 0; EPC <- 0`. There is no
other return from a fault. -/
def State.clear (s : State) : State := { s with run := .idle, err := 0, epc := 0 }

/-- The effect of `END` (R92): `run <- DONE; INTR_STATE.DONE <- 1`; `pc` stays. -/
def State.finish (s : State) : State := { s with run := .done, intrState := s.intrState ||| 1#2 }

/-- The start of a run (R33): `pc <- zext_9(START_PC); run <- BUSY`. -/
def State.start (s : State) : State := { s with pc := s.startPc.setWidth 9, run := .busy }

end Sys2Proof.Machine
end

