-- ==== Sys2Proof/Machine/Curve.lean ====
section
/-! DEFINITION. The curve and its group law on point-register values: `valid` (R151), `padd` (R152), the repeated
addition `pmul` (R154) and the ladder that computes it (R162). -/

namespace Sys2Proof.Machine

/-- `INF`, the point at infinity in its one stored form `(0, 0, 1)` (R12, R25). -/
def PointReg.infinity : PointReg := ⟨0, 0, true⟩

/-- The base point `G = (Gx, Gy, 0)` (R12, R142). -/
def PointReg.base : PointReg := ⟨word Config.Gx, word Config.Gy, false⟩

/-- The right side of the curve equation, `(x^3 - 3x + b) mod p` (R150). -/
def curveRhs (x : Nat) : Nat := zmod ((x : Int) * x * x - 3 * x + Config.b) Config.p

/-- `valid(P)` (R151): the canonical identity, or both coordinates below `p` (before any reduction) and the curve
equation. -/
def valid (P : PointReg) : Bool :=
  if P.inf then P.x == 0 && P.y == 0
  else decide (P.x.toNat < Config.p) && decide (P.y.toNat < Config.p) &&
    P.y.toNat * P.y.toNat % Config.p == curveRhs P.x.toNat

/-- The slope of the tangent at `(x1, y1)`: `(3*x1*x1 - 3) * invm(2*y1, p) mod p` (R152). -/
def tangent (x1 y1 : Nat) : Nat :=
  zmod ((3 * (x1 : Int) * x1 - 3) * invm (2 * y1) Config.p) Config.p

/-- The slope of the chord: `(y2 - y1) * invm(x2 - x1, p) mod p` (R152). -/
def chord (x1 y1 x2 y2 : Nat) : Nat :=
  zmod (((y2 : Int) - y1) * invm (zmod ((x2 : Int) - x1) Config.p) Config.p) Config.p

/-- The third point of the line of slope `lam` through `(x1, y1)` and an `x2`, negated:
`x3 = (lam*lam - x1 - x2) mod p`, `y3 = (lam*(x1 - x3) - y1) mod p` (R152). -/
def thirdPoint (lam x1 y1 x2 : Nat) : PointReg :=
  let x3 := zmod ((lam : Int) * lam - x1 - x2) Config.p
  let y3 := zmod ((lam : Int) * ((x1 : Int) - x3) - y1) Config.p
  ⟨word x3, word y3, false⟩

/-- `padd(P, Q)` (R152), for valid `P`, `Q`. -/
def paddPoint (P Q : PointReg) : PointReg :=
  if P = .infinity then Q
  else if Q = .infinity then P
  else
    let x1 := P.x.toNat
    let y1 := P.y.toNat
    let x2 := Q.x.toNat
    let y2 := Q.y.toNat
    if x1 = x2 ∧ (y1 + y2) % Config.p = 0 then .infinity
    else if x1 = x2 then thirdPoint (tangent x1 y1) x1 y1 x2
    else thirdPoint (chord x1 y1 x2 y2) x1 y1 x2

/-- The negative of a point: `(x, (p - y) mod p)`; the identity is its own (R152). -/
def negPoint (P : PointReg) : PointReg :=
  if P.inf then P else ⟨P.x, word ((Config.p - P.y.toNat) % Config.p), false⟩

/-- `pmul(k, P)` as R154 defines the result: `pmul(0, P) = INF`, `pmul(k, P) = padd(pmul(k-1, P), P)`. -/
def pmulPoint : Nat → PointReg → PointReg
  | 0, _ => .infinity
  | k + 1, P => paddPoint (pmulPoint k P) P

/-- Exchange the pair when the bit is 1 (`cswap` of R162). -/
def cswap (bit : Bool) (A : PointReg × PointReg) : PointReg × PointReg := if bit then (A.2, A.1) else A

/-- One iteration of R162's ladder on `(A0, A1)`: swap, `A1 <- padd(A0, A1)`, `A0 <- padd(A0, A0)`, swap back. -/
def ladderStep (bit : Bool) (A : PointReg × PointReg) : PointReg × PointReg :=
  let B := cswap bit A
  cswap bit (paddPoint B.1 B.1, paddPoint B.1 B.2)

/-- The iterations for bits `i - 1` down to 0 of `k`. -/
def ladderFrom (k : Nat) : Nat → PointReg × PointReg → PointReg × PointReg
  | 0, A => A
  | i + 1, A => ladderFrom k i (ladderStep (k.testBit i) A)

/-- `pmul(k, P)` computed by the 256 iterations of R162, from `(INF, P)`: what `PMUL` runs (log entry 11). -/
def ladder (k : Nat) (P : PointReg) : PointReg := (ladderFrom k 256 (.infinity, P)).1

end Sys2Proof.Machine
end

