-- ==== Sys2Proof/Machine/Flags.lean ====
section
/-! DEFINITION. The block has no flags or condition codes (R27): a comparison's one-bit answer is a 256-bit 0 or 1 in
an element register. The one-bit views of the state the host sees are here too: `STATUS` (R29) and `irq` (R32). -/

namespace Sys2Proof.Machine

/-- A one-bit answer as the 256-bit value 0 or 1 (R27). -/
def answer (b : Bool) : Word := if b then 1 else 0

/-- The `STATUS` register, a view of `run` (R29): bit 0 `BUSY`, bit 1 `DONE`, bit 2 `FAULT`. -/
def State.status (s : State) : Cmd :=
  match s.run with
  | .idle => 0
  | .busy => 1
  | .done => 2
  | .fault => 4

/-- The interrupt line: `irq = ((INTR_STATE & INTR_EN) != 0)` (R32, R194). -/
def State.irq (s : State) : Bool := (s.intrState &&& s.intrEn) != 0

end Sys2Proof.Machine
end

