-- ==== Sys2Proof/Machine/Operands.lean ====
section
/-! DEFINITION. Every operand form of the commands (R71 to R73) with its check, in continuation form: the rest of the
command runs on the operand's value, or the named fault is taken before any write (R10, R187). And the constant ROM
(R98). -/

namespace Sys2Proof.Machine

/-- The point fields of the command are legal, else `ILLEGAL_COMMAND` (R78). The decoder yields no other command, so
this decides only the meaning of terms no word decodes to (log entry 15). -/
def legal (ok : Bool) (s : State) (k : Result) : Result := if ok then k else trap .illegalCommand s

/-- An element operand that must lie in `[0, m)`, else `OUT_OF_RANGE` (R100, R120, R159, R184). -/
def elemOperand (m : Nat) (r : EReg) (s : State) (k : Nat → Result) : Result :=
  if (s.elem r).toNat < m then k (s.elem r).toNat else trap .outOfRange s

/-- A point operand that must be valid, else `INVALID_POINT` (R155, R186). -/
def pointOperand (r : PReg) (s : State) (k : PointReg → Result) : Result :=
  if valid (s.point r) then k (s.point r) else trap .invalidPoint s

/-- A slot operand: its byte address `32 * imm`, or `BAD_ADDRESS` for `imm >= 128` (R67, R73, R75 step 5). -/
def slotOperand (slot : Imm) (s : State) (k : Nat → Result) : Result :=
  if slot.toNat < Config.dmemSlots then k (Config.slotBytes * slot.toNat) else trap .badAddress s

/-- A result for an element register, and the command completes: `e[d] <- v`, `pc <- pc + 1` (R8, R90). -/
def toElem (d : EReg) (v : Word) (s : State) : Result := complete (s.setElem d v)

/-- A result for a point register, and the command completes (R8, R90). -/
def toPoint (d : PReg) (v : PointReg) (s : State) : Result := complete (s.setPoint d v)

/-- The shape of the checked two-operand commands: `a` checked, then `b`, then `e[d] <- f x y` (R100, R120). -/
def binary (m : Nat) (f : Nat → Nat → Nat) (d a b : EReg) (s : State) : Result :=
  elemOperand m a s fun x => elemOperand m b s fun y => toElem d (word (f x y)) s

/-- The shape of the equality commands: `a` checked, then `b`, then `e[d] <- 1 if x = y else 0` (R106, R126). -/
def equality (m : Nat) (d a b : EReg) (s : State) : Result :=
  elemOperand m a s fun x => elemOperand m b s fun y => toElem d (answer (x == y)) s

/-- The shape of the inversions: the range check, then the zero check (`INVALID_OPERAND`), then
`e[d] <- invm(x, m)` (R105, R125, R185). -/
def inversion (m : Nat) (d a : EReg) (s : State) : Result :=
  elemOperand m a s fun x => if x = 0 then trap .invalidOperand s else toElem d (word (invm x m)) s

/-- The shape of the reductions: `e[d] <- (e[a] * 2^256 + e[b]) mod m`, no operand check (R108, R128). -/
def reduction (m : Nat) (d a b : EReg) (s : State) : Result :=
  toElem d (word (wide (s.elem a).toNat (s.elem b).toNat % m)) s

/-- The constant ROM `CONST[0..10]` (R98): `ZERO ONE P N B GX GY RP R2P RN R2N`. -/
def constRom : List Nat :=
  [0, 1, Config.p, Config.n, Config.b, Config.Gx, Config.Gy,
   0x00000000fffffffeffffffffffffffffffffffff000000000000000000000001,
   0x00000004fffffffdfffffffffffffffefffffffbffffffff0000000000000003,
   0x00000000ffffffff00000000000000004319055258e8617b0c46353d039cdaaf,
   0x66e12d94f3d956202845b2392b6bec594699799c49bd6fa683244c95be79eea2]

/-- A constant operand: `CONST[imm]` for `imm <= 10`, else `ILLEGAL_COMMAND` (R97, R79). -/
def constOperand (index : Imm) (s : State) (k : Nat → Result) : Result :=
  match constRom[index.toNat]? with
  | some v => k v
  | none => trap .illegalCommand s

end Sys2Proof.Machine
end

