-- ==== Sys2Proof/Machine/Control.lean ====
section
/-! DEFINITION. The control commands `NOP END WIPE` (R91 to R93). -/

namespace Sys2Proof.Machine

/-- `NOP` (R91): nothing but `pc <- pc + 1`. -/
def execNop (s : State) : Result := complete s

/-- `END` (R92): `run <- DONE; INTR_STATE.DONE <- 1`; `pc` is left at the `END`. -/
def execEndRun (s : State) : Result := .next s.finish

/-- `WIPE` (R93): every element register 0, every point register `(0, 0, 0)`; memories and control registers keep
their values. -/
def execWipe (s : State) : Result := complete s.wipeRegs

end Sys2Proof.Machine
end

