-- ==== Sys2Proof/Machine/Field.lean ====
section
/-! DEFINITION. Field arithmetic, modulus `p`: `FADD FSUB FMUL FMMUL FINV FEQ FCHK FRED` (R100 to R108). -/

namespace Sys2Proof.Machine

/-- `FADD ed, ea, eb` (R101): `e[d] <- (x + y) mod p`. -/
def execFadd (d a b : EReg) (s : State) : Result := binary Config.p (addm Config.p) d a b s

/-- `FSUB ed, ea, eb` (R102): `e[d] <- (x - y) mod p`. -/
def execFsub (d a b : EReg) (s : State) : Result := binary Config.p (subm Config.p) d a b s

/-- `FMUL ed, ea, eb` (R103): `e[d] <- (x * y) mod p`. -/
def execFmul (d a b : EReg) (s : State) : Result := binary Config.p (mulm Config.p) d a b s

/-- `FMMUL ed, ea, eb` (R104): `e[d] <- (x * y * RINVP) mod p`. -/
def execFmmul (d a b : EReg) (s : State) : Result := binary Config.p montP d a b s

/-- `FINV ed, ea` (R105): `e[d] <- invm(x, p)`; zero raises `INVALID_OPERAND`. -/
def execFinv (d a : EReg) (s : State) : Result := inversion Config.p d a s

/-- `FEQ ed, ea, eb` (R106): `e[d] <- 1 if x = y else 0`. -/
def execFeq (d a b : EReg) (s : State) : Result := equality Config.p d a b s

/-- `FCHK ea` (R107): `OUT_OF_RANGE` if `e[a] >= p`; writes nothing. -/
def execFchk (a : EReg) (s : State) : Result := elemOperand Config.p a s fun _ => complete s

/-- `FRED ed, ea, eb` (R108): `e[d] <- (e[a] * 2^256 + e[b]) mod p`, no operand check. -/
def execFred (d a b : EReg) (s : State) : Result := reduction Config.p d a b s

end Sys2Proof.Machine
end

