-- ==== Sys2Proof/Machine/Move.lean ====
section
/-! DEFINITION. Element moves, loads, stores and constants: `MOV LD ST LDC` (R94 to R97). -/

namespace Sys2Proof.Machine

/-- `MOV ed, ea` (R94): `e[d] <- e[a]`, raw. -/
def execMov (d a : EReg) (s : State) : Result := toElem d (s.elem a) s

/-- `LD ed, slot` (R95): `e[d] <- MemRead(32 * imm, 32)`, raw; `BAD_ADDRESS` for `imm >= 128`. -/
def execLd (d : EReg) (slot : Imm) (s : State) : Result :=
  slotOperand slot s fun addr => toElem d (word (s.memRead addr Config.slotBytes)) s

/-- `ST slot, ea` (R96): `MemWrite(32 * imm, 32, e[a])`, raw; `BAD_ADDRESS` for `imm >= 128`. -/
def execSt (slot : Imm) (a : EReg) (s : State) : Result :=
  slotOperand slot s fun addr => complete (s.memWrite addr Config.slotBytes (s.elem a).toNat)

/-- `LDC ed, index` (R97): `e[d] <- CONST[imm]`. -/
def execLdc (d : EReg) (index : Imm) (s : State) : Result :=
  constOperand index s fun v => toElem d (word v) s

end Sys2Proof.Machine
end

