-- ==== Sys2Proof/Machine/PointArith.lean ====
section
/-! DEFINITION. Point arithmetic: `PCHK PDBL PADD PMUL PEQ` (R155 to R160). Every point operand is validated at use,
`a` before `b`. -/

namespace Sys2Proof.Machine

/-- `PCHK pa` (R156): `INVALID_POINT` if `p[a]` is not valid; writes nothing. -/
def execPchk (a : PReg) (s : State) : Result :=
  legal (isPoint a) s <| pointOperand a s fun _ => complete s

/-- `PDBL pd, pa` (R157): `p[d] <- padd(P, P)`. -/
def execPdbl (d a : PReg) (s : State) : Result :=
  legal (isPoint d && isPoint a) s <| pointOperand a s fun P => toPoint d (paddPoint P P) s

/-- `PADD pd, pa, pb` (R158): `p[d] <- padd(P, Q)`. -/
def execPadd (d a b : PReg) (s : State) : Result :=
  legal (isPoint d && isPoint a && isPoint b) s <|
    pointOperand a s fun P => pointOperand b s fun Q => toPoint d (paddPoint P Q) s

/-- `PMUL pd, ek, pb` (R159): the scalar is checked first (`k < n`), then the point; `p[d] <- pmul(k, P)`, computed
by the ladder of R162 (log entry 11). -/
def execPmul (d : PReg) (a : EReg) (b : PReg) (s : State) : Result :=
  legal (isPoint d && isPoint b) s <|
    elemOperand Config.n a s fun k => pointOperand b s fun P => toPoint d (ladder k P) s

/-- `PEQ ed, pa, pb` (R160): `e[d] <- 1` if all three fields are equal, else 0. -/
def execPeq (d : EReg) (a b : PReg) (s : State) : Result :=
  legal (isPoint a && isPoint b) s <|
    pointOperand a s fun P => pointOperand b s fun Q =>
      toElem d (answer (P.x == Q.x && P.y == Q.y && P.inf == Q.inf)) s

end Sys2Proof.Machine
end

