-- ==== Sys2Proof/Machine/PointMove.lean ====
section
/-! DEFINITION. Point register moves, raw: `PSET PINF PLDG PMOV PGETX PGETY PISINF` (R140 to R146). -/

namespace Sys2Proof.Machine

/-- `PSET pd, ea, eb` (R140): `p[d] <- (e[a], e[b], 0)`. -/
def execPset (d : PReg) (a b : EReg) (s : State) : Result :=
  legal (isPoint d) s <| toPoint d ⟨s.elem a, s.elem b, false⟩ s

/-- `PINF pd` (R141): `p[d] <- (0, 0, 1)`. -/
def execPinf (d : PReg) (s : State) : Result := legal (isPoint d) s <| toPoint d .infinity s

/-- `PLDG pd` (R142): `p[d] <- (Gx, Gy, 0)`. -/
def execPldg (d : PReg) (s : State) : Result := legal (isPoint d) s <| toPoint d .base s

/-- `PMOV pd, pa` (R143): `p[d] <- p[a]`, all three fields. -/
def execPmov (d a : PReg) (s : State) : Result :=
  legal (isPoint d && isPoint a) s <| toPoint d (s.point a) s

/-- `PGETX ed, pa` (R144): `e[d] <- p[a].x`. -/
def execPgetx (d : EReg) (a : PReg) (s : State) : Result := legal (isPoint a) s <| toElem d (s.point a).x s

/-- `PGETY ed, pa` (R145): `e[d] <- p[a].y`. -/
def execPgety (d : EReg) (a : PReg) (s : State) : Result := legal (isPoint a) s <| toElem d (s.point a).y s

/-- `PISINF ed, pa` (R146): `e[d] <- p[a].inf`, as 0 or 1. -/
def execPisinf (d : EReg) (a : PReg) (s : State) : Result :=
  legal (isPoint a) s <| toElem d (answer (s.point a).inf) s

end Sys2Proof.Machine
end

