-- ==== Sys2Proof/Machine/Scalar.lean ====
section
/-! DEFINITION. Scalar arithmetic, modulus `n`: `SADD SSUB SMUL SMMUL SINV SEQ SCHK SRED` (R120 to R128). -/

namespace Sys2Proof.Machine

/-- `SADD ed, ea, eb` (R121): `e[d] <- (x + y) mod n`. -/
def execSadd (d a b : EReg) (s : State) : Result := binary Config.n (addm Config.n) d a b s

/-- `SSUB ed, ea, eb` (R122): `e[d] <- (x - y) mod n`. -/
def execSsub (d a b : EReg) (s : State) : Result := binary Config.n (subm Config.n) d a b s

/-- `SMUL ed, ea, eb` (R123): `e[d] <- (x * y) mod n`. -/
def execSmul (d a b : EReg) (s : State) : Result := binary Config.n (mulm Config.n) d a b s

/-- `SMMUL ed, ea, eb` (R124): `e[d] <- (x * y * RINVN) mod n`. -/
def execSmmul (d a b : EReg) (s : State) : Result := binary Config.n montN d a b s

/-- `SINV ed, ea` (R125): `e[d] <- invm(x, n)`; zero raises `INVALID_OPERAND`. -/
def execSinv (d a : EReg) (s : State) : Result := inversion Config.n d a s

/-- `SEQ ed, ea, eb` (R126): `e[d] <- 1 if x = y else 0`. -/
def execSeq (d a b : EReg) (s : State) : Result := equality Config.n d a b s

/-- `SCHK ea` (R127): `OUT_OF_RANGE` if `e[a] >= n`; writes nothing. -/
def execSchk (a : EReg) (s : State) : Result := elemOperand Config.n a s fun _ => complete s

/-- `SRED ed, ea, eb` (R128): `e[d] <- (e[a] * 2^256 + e[b]) mod n`, no operand check. -/
def execSred (d a b : EReg) (s : State) : Result := reduction Config.n d a b s

end Sys2Proof.Machine
end

