-- ==== Sys2Proof/Machine/Dispatch.lean ====
section
/-! DEFINITION. One arm per command: its meaning. -/

namespace Sys2Proof.Machine

def exec (i : Instr) (s : State) : Host.Outcome State Fault Refusal :=
  match i with
  | .nop => Sys2Proof.Machine.execNop s
  | .endRun => Sys2Proof.Machine.execEndRun s
  | .wipe => Sys2Proof.Machine.execWipe s
  | .mov d a => Sys2Proof.Machine.execMov d a s
  | .ld d slot => Sys2Proof.Machine.execLd d slot s
  | .st slot a => Sys2Proof.Machine.execSt slot a s
  | .ldc d index => Sys2Proof.Machine.execLdc d index s
  | .fadd d a b => Sys2Proof.Machine.execFadd d a b s
  | .fsub d a b => Sys2Proof.Machine.execFsub d a b s
  | .fmul d a b => Sys2Proof.Machine.execFmul d a b s
  | .fmmul d a b => Sys2Proof.Machine.execFmmul d a b s
  | .finv d a => Sys2Proof.Machine.execFinv d a s
  | .feq d a b => Sys2Proof.Machine.execFeq d a b s
  | .fchk a => Sys2Proof.Machine.execFchk a s
  | .fred d a b => Sys2Proof.Machine.execFred d a b s
  | .sadd d a b => Sys2Proof.Machine.execSadd d a b s
  | .ssub d a b => Sys2Proof.Machine.execSsub d a b s
  | .smul d a b => Sys2Proof.Machine.execSmul d a b s
  | .smmul d a b => Sys2Proof.Machine.execSmmul d a b s
  | .sinv d a => Sys2Proof.Machine.execSinv d a s
  | .seq d a b => Sys2Proof.Machine.execSeq d a b s
  | .schk a => Sys2Proof.Machine.execSchk a s
  | .sred d a b => Sys2Proof.Machine.execSred d a b s
  | .pset d a b => Sys2Proof.Machine.execPset d a b s
  | .pinf d => Sys2Proof.Machine.execPinf d s
  | .pldg d => Sys2Proof.Machine.execPldg d s
  | .pmov d a => Sys2Proof.Machine.execPmov d a s
  | .pgetx d a => Sys2Proof.Machine.execPgetx d a s
  | .pgety d a => Sys2Proof.Machine.execPgety d a s
  | .pisinf d a => Sys2Proof.Machine.execPisinf d a s
  | .pchk a => Sys2Proof.Machine.execPchk a s
  | .pdbl d a => Sys2Proof.Machine.execPdbl d a s
  | .padd d a b => Sys2Proof.Machine.execPadd d a b s
  | .pmul d a b => Sys2Proof.Machine.execPmul d a b s
  | .peq d a b => Sys2Proof.Machine.execPeq d a b s

end Sys2Proof.Machine
end

