-- ==== Sys2Proof/Machine/Window.lean ====
section
/-! DEFINITION. The host window (R29 to R36, R53 to R61): what a host read answers, what a host write does, and reset
(R210). Offsets are relative to the window's base (R59). -/

namespace Sys2Proof.Machine

/-- What an aligned word offset of the window addresses (R29, R59). -/
inductive Region where
  | ctrl
  | status
  | err
  | epc
  | startPc
  | intrEn
  | intrState
  /-- IMEM word `index` at `0x400 + 4*index` (R54). -/
  | imem (index : Nat)
  /-- DMEM bytes `addr .. addr + 3` at `0x1000 + addr` (R53). -/
  | dmem (addr : Nat)
  /-- `0x001C..0x03FF` and `0x0800..0x0FFF` (R60). -/
  | reserved
  deriving DecidableEq, Repr

/-- The address map (R59). -/
def region (offset : Nat) : Region :=
  if offset = 0x0000 then .ctrl
  else if offset = 0x0004 then .status
  else if offset = 0x0008 then .err
  else if offset = 0x000C then .epc
  else if offset = 0x0010 then .startPc
  else if offset = 0x0014 then .intrEn
  else if offset = 0x0018 then .intrState
  else if 0x0400 ≤ offset ∧ offset < 0x0800 then .imem ((offset - 0x0400) / 4)
  else if 0x1000 ≤ offset ∧ offset < 0x2000 then .dmem (offset - 0x1000)
  else .reserved

/-- The access acts on the block: 32 bits wide, at a multiple of 4, inside the window. Every other access "has no
effect on the block and returns 0 on a read" (R56). Log entry 9. -/
def acts (offset bits : Nat) : Bool := bits == 32 && offset % 4 == 0 && decide (offset < Config.windowBytes)

/-- `run = BUSY`. -/
def State.isBusy (s : State) : Bool := s.run == .busy

/-- The word a host read of a region answers (R29, R53, R54, R58, R60); IMEM and DMEM read 0 while BUSY (R61). -/
def State.regionRead (s : State) : Region → Cmd
  | .ctrl => 0
  | .status => s.status
  | .err => s.err.setWidth 32
  | .epc => s.epc.setWidth 32
  | .startPc => s.startPc.setWidth 32
  | .intrEn => s.intrEn.setWidth 32
  | .intrState => s.intrState.setWidth 32
  | .imem index => if s.isBusy then 0 else s.imemWord index
  | .dmem addr => if s.isBusy then 0 else BitVec.ofNat 32 (s.memRead addr 4)
  | .reserved => 0

/-- `CTRL.CLEAR` (R34). -/
def State.ctrlClear (s : State) (bit : Bool) : State := if bit then s.clear else s

/-- `CTRL.ZEROIZE` (R35): every element and point register and every DMEM byte 0. -/
def State.ctrlZeroize (s : State) (bit : Bool) : State := if bit then s.wipeRegs.zeroDmem else s

/-- `CTRL.START` (R33): a run starts from IDLE or DONE; in FAULT the bit is ignored. -/
def State.ctrlStart (s : State) (bit : Bool) : State :=
  if bit && (s.run == .idle || s.run == .done) then s.start else s

/-- A write to `CTRL` (R36): ignored while BUSY; otherwise `CLEAR`, then `ZEROIZE`, then `START`, each seeing the
state left by the one before. -/
def State.ctrlWrite (s : State) (data : Cmd) : State :=
  if s.isBusy then s
  else ((s.ctrlClear (data.getLsbD 1)).ctrlZeroize (data.getLsbD 2)).ctrlStart (data.getLsbD 0)

/-- What a host write to a region does (R29, R31, R53, R54, R60, R61). -/
def State.regionWrite (s : State) (data : Cmd) : Region → State
  | .ctrl => s.ctrlWrite data
  | .status => s
  | .err => s
  | .epc => s
  | .startPc => if s.isBusy then s else { s with startPc := data.setWidth 8 }
  | .intrEn => { s with intrEn := data.setWidth 2 }
  | .intrState => { s with intrState := s.intrState &&& ~~~(data.setWidth 2) }
  | .imem index => if s.isBusy then s else s.setImem index data
  | .dmem addr => if s.isBusy then s else s.memWrite addr 4 data.toNat
  | .reserved => s

/-- The word a host read answers; 0 for an access that does not act (R56). -/
def State.hostRead (s : State) (offset bits : Nat) : Cmd :=
  if acts offset bits then s.regionRead (region offset) else 0

/-- What a host write does; nothing for an access that does not act (R56). -/
def State.hostWrite (s : State) (offset bits : Nat) (data : Cmd) : State :=
  if acts offset bits then s.regionWrite data (region offset) else s

/-- One host access as an atomic step (R63); a read's word is handed to the host as `rdata` (log entry 4). -/
def State.hostAct (s : State) : HostAccess → State
  | .read offset bits => { s with rdata := s.hostRead offset bits }
  | .write offset bits data => s.hostWrite offset bits data

/-- Reset as an event (R210): "state := R39". The memories are unspecified anew: their content has a number of which
nothing is known, and which may depend on all that they held before (log entries 1, 19). What the outside world does next
is not the block's state (log entries 3, 4). -/
def State.resetEvent (s : State) : State :=
  { State.reset with epoch := Config.epochAfterReset s.epoch s.imem s.dmem, agenda := s.agenda, rdata := s.rdata }

/-- The window offset of a bus address, if it lies in the window (R59: "all offsets are relative to" `BASE`). -/
def windowOffset (busAddr : Nat) : Option Nat :=
  if Config.base ≤ busAddr ∧ busAddr < Config.base + Config.windowBytes then some (busAddr - Config.base) else none

end Sys2Proof.Machine
end

