-- ==== Sys2Proof/Machine/Sequencer.lean ====
section
/-! DEFINITION. One step of the sequencer (R90), one turn of the whole block (R63), and how the next command word is put
in place. -/

namespace Sys2Proof.Machine

/-- `w <- IMEM[pc]` (R90). -/
def State.fetch (s : State) : Cmd := s.imemWord s.pc.toNat

/-- The sequencer's step while BUSY (R90): `PC_OVERRUN` at `pc = 256` before any fetch (R182); else the word at `pc` is
decoded (R75) and its command executed, a word that is no command raising `ILLEGAL_COMMAND` (R181). At `pc > 256` the
model stops (log entry 7). -/
def runCommand (s : State) : Result :=
  if s.pc.toNat = Config.imemWords then trap .pcOverrun s
  else if Config.imemWords < s.pc.toNat then .fault .pcBeyondImem
  else
    match decode s.fetch with
    | .ok i => exec i s
    | .error _ => trap .illegalCommand s

/-- The core's move: a step exactly when `run = BUSY`; otherwise "the sequencer has no step" and nothing changes
(R90, R199; log entry 6). -/
def coreMove (s : State) : Result :=
  match s.run with
  | .busy => runCommand s
  | .idle | .done | .fault => .next s

/-- One atomic step of the block (R63): the next turn of the agenda is taken off it and moves; with none listed the core
moves (log entry 3). -/
def takeTurn (s : State) : Result :=
  match s.agenda with
  | [] => coreMove s
  | .core :: rest => coreMove { s with agenda := rest }
  | .host a :: rest => .next (State.hostAct { s with agenda := rest } a)
  | .reset :: rest => .next (State.resetEvent { s with agenda := rest })

/-- The state in which the very next step fetches the word `w`: nothing left on the agenda, a run in progress (where
none is, a fault is acknowledged and the run starts at `START_PC`, as the host's `CTRL` write of 0x3 does it: R33, R34,
R36), and `w` in IMEM at `pc`. Log entry 8. -/
def placeWord (s : State) (w : Cmd) : State :=
  let t := if s.isBusy && decide (s.pc.toNat < Config.imemWords) then s else s.clear.start
  { t.setImem t.pc.toNat w with agenda := [] }

end Sys2Proof.Machine
end

