-- ==== Sys2Proof/Machine/Step.lean ====
section
/-! DEFINITION. The machine's one step, and the state whose next step runs a given word. Both only call the definitions
of `Sequencer.lean`. -/

namespace Sys2Proof.Machine

/-- One step of the block (R63, R90). -/
def step (s : State) : Host.Outcome State Fault Refusal := takeTurn s

/-- `s` with the table word `w` (its bits at and above `nbits` zero) where the next step fetches its command, and ready
to run it. Log entry 8. -/
def State.withFetchWord (s : State) (nbits w : Nat) : State :=
  placeWord s (BitVec.ofNat 32 (w % 2 ^ nbits))

end Sys2Proof.Machine
end

