-- ==== Sys2Proof/Machine/Assembly.lean ====
section
/-! DEFINITION. The assembler's operand order and the two pseudo-instructions (R81, R82), on lines already cut into a
mnemonic and operands (log entry 17). -/

namespace Sys2Proof.Machine

/-- An operand as R81 writes it: `e5`, `p3`, or an immediate. -/
inductive Operand where
  | e (i : Nat)
  | p (i : Nat)
  | imm (v : Nat)
  deriving DecidableEq, Repr

/-- One line of assembler: a mnemonic in upper case, then its operands in the order destination, sources (R81). -/
structure AsmLine where
  mnemonic : String
  operands : List Operand
  deriving DecidableEq, Repr

/-- The line R81 writes for a command. -/
def toAsm (i : Instr) : AsmLine :=
  let e (r : EReg) := Operand.e r.toNat
  let p (r : PReg) := Operand.p r.toNat
  ⟨i.mnemonic,
    match i with
    | .nop | .endRun | .wipe => []
    | .mov d a | .finv d a | .sinv d a => [e d, e a]
    | .ld d slot => [e d, .imm slot.toNat]
    | .st slot a => [.imm slot.toNat, e a]
    | .ldc d index => [e d, .imm index.toNat]
    | .fadd d a b | .fsub d a b | .fmul d a b | .fmmul d a b | .feq d a b | .fred d a b => [e d, e a, e b]
    | .sadd d a b | .ssub d a b | .smul d a b | .smmul d a b | .seq d a b | .sred d a b => [e d, e a, e b]
    | .fchk a | .schk a => [e a]
    | .pset d a b => [p d, e a, e b]
    | .pinf d | .pldg d => [p d]
    | .pmov d a | .pdbl d a => [p d, p a]
    | .pgetx d a | .pgety d a | .pisinf d a => [e d, p a]
    | .pchk a => [p a]
    | .padd d a b => [p d, p a, p b]
    | .pmul d a b => [p d, e a, p b]
    | .peq d a b => [e d, p a, p b]⟩

/-- Registers `e0..e15`, `p0..p7` and 12-bit immediates; nothing else names an operand (R72, R73, R81). -/
def Operand.ok : Operand → Bool
  | .e i => decide (i < 16)
  | .p i => decide (i < 8)
  | .imm v => decide (v < 4096)

/-- A two-source command on element registers, by mnemonic (format EEE of R81). -/
def asmEEE : String → Option (EReg → EReg → EReg → Instr)
  | "FADD" => some .fadd | "FSUB" => some .fsub | "FMUL" => some .fmul | "FMMUL" => some .fmmul
  | "FEQ" => some .feq | "FRED" => some .fred
  | "SADD" => some .sadd | "SSUB" => some .ssub | "SMUL" => some .smul | "SMMUL" => some .smmul
  | "SEQ" => some .seq | "SRED" => some .sred
  | _ => none

/-- The command of a line whose operands are in range, by the operand order of R81; `ZERO ed` is `LDC ed, 0` and
`ONE ed` is `LDC ed, 1` (R82). -/
def asmLine (l : AsmLine) : Option Instr :=
  match l.operands with
  | [] =>
    match l.mnemonic with
    | "NOP" => some .nop | "END" => some .endRun | "WIPE" => some .wipe
    | _ => none
  | [.e a] =>
    match l.mnemonic with
    | "FCHK" => some (.fchk (.ofNat 4 a)) | "SCHK" => some (.schk (.ofNat 4 a))
    | "ZERO" => some (.ldc (.ofNat 4 a) 0) | "ONE" => some (.ldc (.ofNat 4 a) 1)
    | _ => none
  | [.p a] =>
    match l.mnemonic with
    | "PINF" => some (.pinf (.ofNat 4 a)) | "PLDG" => some (.pldg (.ofNat 4 a)) | "PCHK" => some (.pchk (.ofNat 4 a))
    | _ => none
  | [.e d, .e a] =>
    match l.mnemonic with
    | "MOV" => some (.mov (.ofNat 4 d) (.ofNat 4 a))
    | "FINV" => some (.finv (.ofNat 4 d) (.ofNat 4 a)) | "SINV" => some (.sinv (.ofNat 4 d) (.ofNat 4 a))
    | _ => none
  | [.e d, .imm v] =>
    match l.mnemonic with
    | "LD" => some (.ld (.ofNat 4 d) (.ofNat 12 v)) | "LDC" => some (.ldc (.ofNat 4 d) (.ofNat 12 v))
    | _ => none
  | [.imm v, .e a] =>
    match l.mnemonic with
    | "ST" => some (.st (.ofNat 12 v) (.ofNat 4 a))
    | _ => none
  | [.p d, .p a] =>
    match l.mnemonic with
    | "PMOV" => some (.pmov (.ofNat 4 d) (.ofNat 4 a)) | "PDBL" => some (.pdbl (.ofNat 4 d) (.ofNat 4 a))
    | _ => none
  | [.e d, .p a] =>
    match l.mnemonic with
    | "PGETX" => some (.pgetx (.ofNat 4 d) (.ofNat 4 a)) | "PGETY" => some (.pgety (.ofNat 4 d) (.ofNat 4 a))
    | "PISINF" => some (.pisinf (.ofNat 4 d) (.ofNat 4 a))
    | _ => none
  | [.e d, .e a, .e b] => (asmEEE l.mnemonic).map fun c => c (.ofNat 4 d) (.ofNat 4 a) (.ofNat 4 b)
  | [.p d, .e a, .e b] =>
    match l.mnemonic with
    | "PSET" => some (.pset (.ofNat 4 d) (.ofNat 4 a) (.ofNat 4 b))
    | _ => none
  | [.p d, .p a, .p b] =>
    match l.mnemonic with
    | "PADD" => some (.padd (.ofNat 4 d) (.ofNat 4 a) (.ofNat 4 b))
    | _ => none
  | [.p d, .e a, .p b] =>
    match l.mnemonic with
    | "PMUL" => some (.pmul (.ofNat 4 d) (.ofNat 4 a) (.ofNat 4 b))
    | _ => none
  | [.e d, .p a, .p b] =>
    match l.mnemonic with
    | "PEQ" => some (.peq (.ofNat 4 d) (.ofNat 4 a) (.ofNat 4 b))
    | _ => none
  | _ => none

/-- The word of a line, if every operand is in range and the line is one of R81's or R82's. -/
def assemble (l : AsmLine) : Option Cmd :=
  if l.operands.all Operand.ok then (asmLine l).map encode else none

end Sys2Proof.Machine
end

