-- ==== Sys2Proof/Safety.lean ====
section
/-! DEFINITION. What claims are stated in: the invariant of the machine, what "everything else is unchanged" means, and
what a finished run is. -/

namespace Sys2Proof.Machine

/-! ## The invariant -/

/-- What every reachable state satisfies: `pc` in `0..256` (R26), the `ERR`/`EPC` relations of R30, `ERR` at most 6
(R30), the canonical infinity of R25, and the memories' canonical form (the model's own). -/
structure State.Inv (s : State) : Prop where
  pc_le : s.pc.toNat ≤ Config.imemWords
  err_iff : s.err ≠ 0 ↔ s.run = .fault
  err_le : s.err.toNat ≤ 6
  epc_fault : s.run = .fault → s.epc = s.pc
  epc_zero : s.run ≠ .fault → s.epc = 0
  infinity : ∀ i : PReg, (s.point i).inf = true → (s.point i).x = 0 ∧ (s.point i).y = 0
  imem : Memory.wf Config.imemWords s.imem
  dmem : Memory.wf Config.dmemBytes s.dmem

/-! ## Frames -/

/-- Every element register reads as before. -/
def SameElems (s t : State) : Prop := ∀ i : EReg, t.elem i = s.elem i

/-- Every point register reads as before. -/
def SamePoints (s t : State) : Prop := ∀ i : PReg, t.point i = s.point i

/-- Every DMEM byte reads as before. -/
def SameDmem (s t : State) : Prop := ∀ a : Nat, t.dmemByte a = s.dmemByte a

/-- Every IMEM word reads as before. -/
def SameImem (s t : State) : Prop := ∀ k : Nat, t.imemWord k = s.imemWord k

/-- `run` and the control registers are as before (R28, R29). -/
structure SameControl (s t : State) : Prop where
  run : t.run = s.run
  err : t.err = s.err
  epc : t.epc = s.epc
  startPc : t.startPc = s.startPc
  intrEn : t.intrEn = s.intrEn
  intrState : t.intrState = s.intrState

/-- The model's own fields are as before (log entries 1, 3, 4). -/
structure SameOwn (s t : State) : Prop where
  epoch : t.epoch = s.epoch
  agenda : t.agenda = s.agenda
  rdata : t.rdata = s.rdata

/-- A command completed and wrote nothing: only `pc` advanced. -/
structure WroteNothing (s t : State) : Prop where
  pc : t.pc = s.pc + 1
  elems : SameElems s t
  points : SamePoints s t
  dmem : SameDmem s t
  imem : SameImem s t
  control : SameControl s t
  own : SameOwn s t

/-- A command completed and wrote `v` to element register `d`, and nothing else but `pc`. -/
structure WroteElem (d : EReg) (v : Word) (s t : State) : Prop where
  pc : t.pc = s.pc + 1
  dest : t.elem d = v
  others : ∀ i : EReg, i ≠ d → t.elem i = s.elem i
  points : SamePoints s t
  dmem : SameDmem s t
  imem : SameImem s t
  control : SameControl s t
  own : SameOwn s t

/-- A command completed and wrote `P` to point register `d`, and nothing else but `pc`. -/
structure WrotePoint (d : PReg) (P : PointReg) (s t : State) : Prop where
  pc : t.pc = s.pc + 1
  dest : t.point d = P
  others : ∀ i : PReg, i ≠ d → t.point i = s.point i
  elems : SameElems s t
  dmem : SameDmem s t
  imem : SameImem s t
  control : SameControl s t
  own : SameOwn s t

/-- A command completed and stored the 32 bytes of `v`, most significant first, at byte addresses
`addr .. addr + 31` (R51), and nothing else but `pc` changed. -/
structure WroteSlot (addr : Nat) (v : Word) (s t : State) : Prop where
  pc : t.pc = s.pc + 1
  stored : ∀ j : Nat, j < 32 → (t.dmemByte (addr + j)).toNat = v.toNat / 256 ^ (31 - j) % 256
  others : ∀ a : Nat, a < addr ∨ addr + 32 ≤ a → t.dmemByte a = s.dmemByte a
  elems : SameElems s t
  points : SamePoints s t
  imem : SameImem s t
  control : SameControl s t
  own : SameOwn s t

/-- Fault entry (R188): the fault record is written and nothing else changes. -/
structure Trapped (c : Cause) (s t : State) : Prop where
  err : t.err = c.code
  epc : t.epc = s.pc
  run : t.run = .fault
  faultBit : t.intrState.getLsbD 1 = true
  doneBit : t.intrState.getLsbD 0 = s.intrState.getLsbD 0
  pc : t.pc = s.pc
  startPc : t.startPc = s.startPc
  intrEn : t.intrEn = s.intrEn
  elems : SameElems s t
  points : SamePoints s t
  dmem : SameDmem s t
  imem : SameImem s t
  own : SameOwn s t

/-! ## What a command answers -/

/-- The command completes with the number `n` in element register `d`, and changes nothing else but `pc`. -/
def GivesElem (i : Instr) (d : EReg) (n : Nat) (s : State) : Prop :=
  ∃ t, exec i s = .next t ∧ WroteElem d (t.elem d) s t ∧ (t.elem d).toNat = n

/-- The command takes the fault `c` (R188): a next state in which only the fault record is written. -/
def Traps (i : Instr) (c : Cause) (s : State) : Prop := ∃ t, exec i s = .next t ∧ Trapped c s t

/-- The command, on operands `x`, `y` in element registers `a`, `b`, puts `f x y` in `d` when both are below `m`, and
raises `OUT_OF_RANGE` when one is not (R100, R120). -/
def ChecksAndGives (m : Nat) (i : Instr) (d a b : EReg) (f : Nat → Nat → Nat) (s : State) : Prop :=
  ((s.elem a).toNat < m → (s.elem b).toNat < m → GivesElem i d (f (s.elem a).toNat (s.elem b).toNat) s) ∧
    (m ≤ (s.elem a).toNat ∨ m ≤ (s.elem b).toNat → Traps i .outOfRange s)

/-! ## Steps and runs -/

/-- It is the core's turn in `s` (log entry 3), and `u` is `s` with that turn, if it is listed, taken off the agenda. -/
def CoreTurn (s u : State) : Prop :=
  (s.agenda = [] ∧ u = s) ∨ ∃ rest, s.agenda = .core :: rest ∧ u = { s with agenda := rest }

/-- The step from `s` to `t` is the core completing, without a fault, a command other than `END` (R90): the run was and
stays BUSY, the word at `pc` is the command's, `t` is what executing it answers, and `pc` is one more. -/
def CommandCompleted (s t : State) : Prop :=
  ∃ (u : State) (i : Instr), CoreTurn s u ∧ s.run = .busy ∧ s.pc.toNat < 256 ∧
    decode (s.imemWord s.pc.toNat) = .ok i ∧ i ≠ .endRun ∧ exec i u = .next t ∧ t.run = .busy ∧ t.pc = s.pc + 1

/-- `t` is the state after `k` steps of the machine from `s`, none of which stopped the model. -/
def Reaches : Nat → State → State → Prop
  | 0, s, t => t = s
  | k + 1, s, t => ∃ u, step s = .next u ∧ Reaches k u t

/-- A run has ended (R219): `run` is DONE or FAULT. -/
def RunEnded (s : State) : Prop := s.run = .done ∨ s.run = .fault

end Sys2Proof.Machine
end

