-- ==== Sys2Proof/Certificates/Slice0/Obligations.lean ====
section
/-! DEFINITION. The statements for the provers, from the spec's numbered rules. -/

open Sys2Proof Sys2Proof.Machine

/-! ## Control, moves, memory -/

/-- R91: `NOP` "changes no state other than `pc <- pc + 1`"; its word is `0x01000000`. -/
def Obligations.NopOnlyAdvancesPc : Prop :=
  encode .nop = 0x01000000 ∧ ∀ s : State, ∃ t, exec .nop s = .next t ∧ WroteNothing s t

/-- R92: `END` sets `run` to DONE and `INTR_STATE.DONE`, leaves `pc` at the `END` (at 255 too: no overrun), and changes
nothing else; its word is `0x02000000`. No other command makes `run` DONE. -/
def Obligations.EndFinishesTheRun : Prop :=
  encode .endRun = 0x02000000 ∧
  (∀ (i : Instr) (s t : State), exec i s = .next t → t.run = .done → s.run = .done ∨ i = .endRun) ∧
  ∀ s : State, ∃ t, exec .endRun s = .next t ∧ t.run = .done ∧ t.intrState.getLsbD 0 = true ∧
    t.intrState.getLsbD 1 = s.intrState.getLsbD 1 ∧ t.pc = s.pc ∧ t.err = s.err ∧ t.epc = s.epc ∧
    t.startPc = s.startPc ∧ t.intrEn = s.intrEn ∧ SameElems s t ∧ SamePoints s t ∧ SameDmem s t ∧ SameImem s t ∧
    SameOwn s t

/-- R93: `WIPE` zeroes every element register and makes every point register `(0, 0, 0)`; DMEM, IMEM and every control
register are unchanged; its word is `0x03000000`. -/
def Obligations.WipeClearsRegisters : Prop :=
  encode .wipe = 0x03000000 ∧
  ∀ s : State, ∃ t, exec .wipe s = .next t ∧ (∀ i : EReg, t.elem i = 0) ∧
    (∀ i : PReg, isPoint i = true → t.point i = ⟨0, 0, false⟩) ∧ t.pc = s.pc + 1 ∧ SameDmem s t ∧ SameImem s t ∧
    SameControl s t ∧ SameOwn s t

/-- R94: `MOV ed, ea` copies the raw value. -/
def Obligations.MovCopiesRawValue : Prop :=
  ∀ (d a : EReg) (s : State), encode (.mov d a) = 0x10#8 ++ d ++ a ++ 0#4 ++ 0#12 ∧
    ∃ t, exec (.mov d a) s = .next t ∧ WroteElem d (s.elem a) s t

/-- R95: `LD ed, slot` loads the big-endian value of the slot's 32 bytes, raw; `BAD_ADDRESS` for `imm >= 128`. -/
def Obligations.LdLoadsSlotBigEndian : Prop :=
  ∀ (d : EReg) (slot : Imm) (s : State), encode (.ld d slot) = 0x11#8 ++ d ++ 0#4 ++ 0#4 ++ slot ∧
    (slot.toNat < 128 → ∃ t, exec (.ld d slot) s = .next t ∧ WroteElem d (t.elem d) s t ∧
      (t.elem d).toNat =
        ∑ j ∈ Finset.range 32, (s.dmemByte (32 * slot.toNat + j)).toNat * 256 ^ (31 - j)) ∧
    (128 ≤ slot.toNat → ∃ t, exec (.ld d slot) s = .next t ∧ Trapped .badAddress s t)

/-- R96: `ST slot, ea` stores all 32 bytes of the raw value in the slot, most significant first, and no byte outside it;
`BAD_ADDRESS` for `imm >= 128`. -/
def Obligations.StStoresSlotBigEndian : Prop :=
  ∀ (slot : Imm) (a : EReg) (s : State), encode (.st slot a) = 0x12#8 ++ 0#4 ++ a ++ 0#4 ++ slot ∧
    (slot.toNat < 128 → ∃ t, exec (.st slot a) s = .next t ∧ WroteSlot (32 * slot.toNat) (s.elem a) s t) ∧
    (128 ≤ slot.toNat → ∃ t, exec (.st slot a) s = .next t ∧ Trapped .badAddress s t)

/-- R51, R62, R96: a load right after a store to the slot gives the stored value back, and a store right after a load
from the slot leaves every DMEM byte as it was. -/
def Obligations.SlotRoundTrip : Prop :=
  ∀ (d a : EReg) (slot : Imm) (s : State), slot.toNat < 128 →
    (∃ t u, exec (.st slot a) s = .next t ∧ exec (.ld d slot) t = .next u ∧ u.elem d = s.elem a) ∧
    (∃ t u, exec (.ld d slot) s = .next t ∧ exec (.st slot d) t = .next u ∧ SameDmem s u)

/-- R97: `LDC ed, index` loads the constant of R98 for `imm <= 10` (entries 7 to 10 by their definitions in R14), else
`ILLEGAL_COMMAND`. -/
def Obligations.LdcLoadsConstant : Prop :=
  ∀ (d : EReg) (index : Imm) (s : State), encode (.ldc d index) = 0x13#8 ++ d ++ 0#4 ++ 0#4 ++ index ∧
    (∀ v : Nat, [0, 1, Config.p, Config.n, Config.b, Config.Gx, Config.Gy, 2 ^ 256 % Config.p, 2 ^ 512 % Config.p,
        2 ^ 256 % Config.n, 2 ^ 512 % Config.n][index.toNat]? = some v →
      ∃ t, exec (.ldc d index) s = .next t ∧ WroteElem d (t.elem d) s t ∧ (t.elem d).toNat = v) ∧
    (10 < index.toNat → ∃ t, exec (.ldc d index) s = .next t ∧ Trapped .illegalCommand s t)

/-! ## Field and scalar arithmetic -/

/-- R101, R102, R103: `FADD`, `FSUB`, `FMUL` give the exact residue modulo `p` of the integer sum, difference and product
of operands below `p`, and raise `OUT_OF_RANGE` otherwise. -/
def Obligations.FieldSumDifferenceProduct : Prop :=
  ∀ (d a b : EReg) (s : State),
    encode (.fadd d a b) = 0x20#8 ++ d ++ a ++ b ++ 0#12 ∧
    encode (.fsub d a b) = 0x21#8 ++ d ++ a ++ b ++ 0#12 ∧
    encode (.fmul d a b) = 0x22#8 ++ d ++ a ++ b ++ 0#12 ∧
    ChecksAndGives Config.p (.fadd d a b) d a b (fun x y => (x + y) % Config.p) s ∧
    ChecksAndGives Config.p (.fsub d a b) d a b (fun x y => if y ≤ x then x - y else x + Config.p - y) s ∧
    ChecksAndGives Config.p (.fmul d a b) d a b (fun x y => x * y % Config.p) s

/-- R121, R122, R123: the same of `SADD`, `SSUB`, `SMUL` modulo `n`. -/
def Obligations.ScalarSumDifferenceProduct : Prop :=
  ∀ (d a b : EReg) (s : State),
    encode (.sadd d a b) = 0x30#8 ++ d ++ a ++ b ++ 0#12 ∧
    encode (.ssub d a b) = 0x31#8 ++ d ++ a ++ b ++ 0#12 ∧
    encode (.smul d a b) = 0x32#8 ++ d ++ a ++ b ++ 0#12 ∧
    ChecksAndGives Config.n (.sadd d a b) d a b (fun x y => (x + y) % Config.n) s ∧
    ChecksAndGives Config.n (.ssub d a b) d a b (fun x y => if y ≤ x then x - y else x + Config.n - y) s ∧
    ChecksAndGives Config.n (.smul d a b) d a b (fun x y => x * y % Config.n) s

/-- R104, R124: `FMMUL` and `SMMUL` give the fully reduced Montgomery product `x * y * RINVP mod p` (`RINVN`, `n`), `RINVP`
and `RINVN` being the inverses of `2^256`, and raise `OUT_OF_RANGE` on an operand not below the modulus. -/
def Obligations.MontgomeryProduct : Prop :=
  rInvP < Config.p ∧ rInvP * 2 ^ 256 % Config.p = 1 ∧ rInvN < Config.n ∧ rInvN * 2 ^ 256 % Config.n = 1 ∧
  ∀ (d a b : EReg) (s : State),
    encode (.fmmul d a b) = 0x23#8 ++ d ++ a ++ b ++ 0#12 ∧
    encode (.smmul d a b) = 0x33#8 ++ d ++ a ++ b ++ 0#12 ∧
    ChecksAndGives Config.p (.fmmul d a b) d a b (fun x y => x * y * rInvP % Config.p) s ∧
    ChecksAndGives Config.n (.smmul d a b) d a b (fun x y => x * y * rInvN % Config.n) s

/-- R105, R125: `FINV` and `SINV` give the unique `z` in `[1, m-1]` with `x * z = 1` modulo `m`, which is `x^(m-2)`; zero
raises `INVALID_OPERAND`, a value not below `m` raises `OUT_OF_RANGE`. -/
def Obligations.InversionGivesUniqueInverse : Prop :=
  ∀ (d a : EReg) (s : State),
    encode (.finv d a) = 0x24#8 ++ d ++ a ++ 0#4 ++ 0#12 ∧
    encode (.sinv d a) = 0x34#8 ++ d ++ a ++ 0#4 ++ 0#12 ∧
    ∀ (i : Instr) (m : Nat), (i = .finv d a ∧ m = Config.p) ∨ (i = .sinv d a ∧ m = Config.n) →
      (0 < (s.elem a).toNat → (s.elem a).toNat < m →
        ∃ t, exec i s = .next t ∧ WroteElem d (t.elem d) s t ∧
          1 ≤ (t.elem d).toNat ∧ (t.elem d).toNat ≤ m - 1 ∧ (s.elem a).toNat * (t.elem d).toNat % m = 1 ∧
          (t.elem d).toNat = (s.elem a).toNat ^ (m - 2) % m ∧
          ∀ z, 1 ≤ z → z ≤ m - 1 → (s.elem a).toNat * z % m = 1 → z = (t.elem d).toNat) ∧
      ((s.elem a).toNat = 0 → ∃ t, exec i s = .next t ∧ Trapped .invalidOperand s t) ∧
      (m ≤ (s.elem a).toNat → ∃ t, exec i s = .next t ∧ Trapped .outOfRange s t)

/-- R106, R126: `FEQ` and `SEQ` give the 256-bit 1 or 0. -/
def Obligations.EqualityGivesOneOrZero : Prop :=
  ∀ (d a b : EReg) (s : State),
    encode (.feq d a b) = 0x25#8 ++ d ++ a ++ b ++ 0#12 ∧
    encode (.seq d a b) = 0x35#8 ++ d ++ a ++ b ++ 0#12 ∧
    ChecksAndGives Config.p (.feq d a b) d a b (fun x y => if x = y then 1 else 0) s ∧
    ChecksAndGives Config.n (.seq d a b) d a b (fun x y => if x = y then 1 else 0) s

/-- R107, R127: `FCHK` and `SCHK` write nothing; they complete below the modulus and raise `OUT_OF_RANGE` otherwise. -/
def Obligations.RangeCheckWritesNothing : Prop :=
  ∀ (a : EReg) (s : State),
    encode (.fchk a) = 0x26#8 ++ 0#4 ++ a ++ 0#4 ++ 0#12 ∧
    encode (.schk a) = 0x36#8 ++ 0#4 ++ a ++ 0#4 ++ 0#12 ∧
    ((s.elem a).toNat < Config.p → ∃ t, exec (.fchk a) s = .next t ∧ WroteNothing s t) ∧
    (Config.p ≤ (s.elem a).toNat → ∃ t, exec (.fchk a) s = .next t ∧ Trapped .outOfRange s t) ∧
    ((s.elem a).toNat < Config.n → ∃ t, exec (.schk a) s = .next t ∧ WroteNothing s t) ∧
    (Config.n ≤ (s.elem a).toNat → ∃ t, exec (.schk a) s = .next t ∧ Trapped .outOfRange s t)

/-- R108, R128: `FRED` and `SRED` reduce the raw 512-bit integer `e[a] || e[b]`, with no operand check and no fault. -/
def Obligations.ReductionOfWideValue : Prop :=
  ∀ (d a b : EReg) (s : State),
    encode (.fred d a b) = 0x27#8 ++ d ++ a ++ b ++ 0#12 ∧
    encode (.sred d a b) = 0x37#8 ++ d ++ a ++ b ++ 0#12 ∧
    (∃ t, exec (.fred d a b) s = .next t ∧ WroteElem d (t.elem d) s t ∧
      (t.elem d).toNat = (s.elem a ++ s.elem b).toNat % Config.p) ∧
    (∃ t, exec (.sred d a b) s = .next t ∧ WroteElem d (t.elem d) s t ∧
      (t.elem d).toNat = (s.elem a ++ s.elem b).toNat % Config.n)

/-- R109, R129: the arithmetic laws of the two families, as laws of the results. -/
def Obligations.ModularArithmeticLaws : Prop :=
  ∀ m : Nat, m = Config.p ∨ m = Config.n → ∀ x y z : Nat, x < m → y < m → z < m →
    addm m x y = addm m y x ∧ addm m (addm m x y) z = addm m x (addm m y z) ∧
    subm m (addm m x y) y = x ∧ addm m x (subm m 0 x) = 0 ∧
    mulm m x y = mulm m y x ∧ mulm m (mulm m x y) z = mulm m x (mulm m y z) ∧
    mulm m x (addm m y z) = addm m (mulm m x y) (mulm m x z) ∧
    (x ≠ 0 → mulm m x (invm x m) = 1)

/-- R111 and the laws of R104, R124: the plain product is two Montgomery products, `R mod m` is the Montgomery one, and
`R^2 mod m` converts to Montgomery form. -/
def Obligations.MontgomeryConversionLaws : Prop :=
  ∀ x y : Nat,
    (x < Config.p → y < Config.p →
      mulm Config.p x y = montP (montP x y) (2 ^ 512 % Config.p) ∧
      montP x (2 ^ 512 % Config.p) = x * 2 ^ 256 % Config.p ∧ montP x (2 ^ 256 % Config.p) = x ∧
      montP (montP x (2 ^ 512 % Config.p)) 1 = x ∧ montP 0 y = 0 ∧
      montP (montP x (2 ^ 512 % Config.p)) (montP y (2 ^ 512 % Config.p)) =
        montP (mulm Config.p x y) (2 ^ 512 % Config.p)) ∧
    (x < Config.n → y < Config.n →
      mulm Config.n x y = montN (montN x y) (2 ^ 512 % Config.n) ∧
      montN x (2 ^ 512 % Config.n) = x * 2 ^ 256 % Config.n ∧ montN x (2 ^ 256 % Config.n) = x ∧
      montN (montN x (2 ^ 512 % Config.n)) 1 = x ∧ montN 0 y = 0)

/-- R110: for an odd modulus `m < R` with `MPRIME = (-m^-1) mod R` and every `T < m * R`, the reference reduction gives
`(T * R^-1) mod m`, fully reduced; `PPRIME` and `NPRIME` are such values, and with them it computes the products of `FMMUL`
and `SMMUL`. And the special form of `p`. -/
def Obligations.RedcComputesMontgomeryProduct : Prop :=
  (∀ m mPrime t : Nat, m % 2 = 1 → m < 2 ^ 256 → mPrime < 2 ^ 256 → (m * mPrime + 1) % 2 ^ 256 = 0 → t < m * 2 ^ 256 →
    redc m mPrime t < m ∧ redc m mPrime t * 2 ^ 256 % m = t % m) ∧
  Config.p + 2 ^ 224 + 1 = 2 ^ 256 + 2 ^ 192 + 2 ^ 96 ∧ (Config.p * pPrime + 1) % 2 ^ 256 = 0 ∧ (Config.n * nPrime + 1) % 2 ^ 256 = 0 ∧
  pPrime % 2 ^ 64 = 1 ∧ pPrime % 2 ^ 32 = 1 ∧ nPrime % 2 ^ 64 = 0xccd1c8aaee00bc4f ∧ nPrime % 2 ^ 32 = 0xee00bc4f ∧
  ∀ x y : Nat,
    (x < Config.p → y < Config.p → redc Config.p pPrime (x * y) = x * y * rInvP % Config.p) ∧
    (x < Config.n → y < Config.n → redc Config.n nPrime (x * y) = x * y * rInvN % Config.n)

/-! ## Point moves -/

/-- R140, R143: `PSET pd, ea, eb` writes `(e[a], e[b], 0)`, `PMOV pd, pa` copies all three fields; both raw. -/
def Obligations.PsetAndPmovCopyRaw : Prop :=
  ∀ (d pa : PReg) (a b : EReg) (s : State),
    encode (.pset d a b) = 0x40#8 ++ d ++ a ++ b ++ 0#12 ∧
    encode (.pmov d pa) = 0x43#8 ++ d ++ pa ++ 0#4 ++ 0#12 ∧
    (isPoint d = true →
      (∃ t, exec (.pset d a b) s = .next t ∧ WrotePoint d ⟨s.elem a, s.elem b, false⟩ s t) ∧
      (isPoint pa = true → ∃ t, exec (.pmov d pa) s = .next t ∧ WrotePoint d (s.point pa) s t))

/-- R141, R142: `PINF pd` writes `(0, 0, 1)`, `PLDG pd` writes the base point, which is valid. -/
def Obligations.PinfAndPldgWriteConstants : Prop :=
  valid PointReg.base = true ∧
  ∀ (d : PReg) (s : State),
    encode (.pinf d) = 0x41#8 ++ d ++ 0#4 ++ 0#4 ++ 0#12 ∧
    encode (.pldg d) = 0x42#8 ++ d ++ 0#4 ++ 0#4 ++ 0#12 ∧
    (isPoint d = true →
      (∃ t, exec (.pinf d) s = .next t ∧ WrotePoint d ⟨0, 0, true⟩ s t) ∧
      (∃ t, exec (.pldg d) s = .next t ∧ WrotePoint d ⟨word Config.Gx, word Config.Gy, false⟩ s t))

/-- R144, R145, R146: `PGETX`, `PGETY`, `PISINF` read one stored field, raw, with no fault. -/
def Obligations.PointFieldReads : Prop :=
  ∀ (d : EReg) (a : PReg) (s : State),
    encode (.pgetx d a) = 0x44#8 ++ d ++ a ++ 0#4 ++ 0#12 ∧
    encode (.pgety d a) = 0x45#8 ++ d ++ a ++ 0#4 ++ 0#12 ∧
    encode (.pisinf d a) = 0x46#8 ++ d ++ a ++ 0#4 ++ 0#12 ∧
    (isPoint a = true →
      (∃ t, exec (.pgetx d a) s = .next t ∧ WroteElem d (s.point a).x s t) ∧
      (∃ t, exec (.pgety d a) s = .next t ∧ WroteElem d (s.point a).y s t) ∧
      (∃ t, exec (.pisinf d a) s = .next t ∧ WroteElem d (if (s.point a).inf then 1 else 0) s t))

/-! ## Point arithmetic -/

/-- R151: `valid` is the canonical identity, or coordinates below `p` on the curve. -/
def Obligations.ValidIsCurveMembership : Prop :=
  ∀ P : PointReg, valid P = true ↔
    (P.inf = true ∧ P.x = 0 ∧ P.y = 0) ∨
    (P.inf = false ∧ P.x.toNat < Config.p ∧ P.y.toNat < Config.p ∧
      (P.y.toNat : Int) * P.y.toNat ≡
        (P.x.toNat : Int) * P.x.toNat * P.x.toNat - 3 * P.x.toNat + Config.b [ZMOD Config.p])

/-- R152: `padd` is the chord-and-tangent law: the identity cases, the inverse case, and else the third point of the line
whose slope solves the tangent's or the chord's equation, with coordinates in `[0, p)`; the result is valid. And the
negative of a point. -/
def Obligations.PaddFollowsGroupLaw : Prop :=
  ∀ P Q : PointReg, valid P = true → valid Q = true →
    valid (paddPoint P Q) = true ∧
    (P = ⟨0, 0, true⟩ → paddPoint P Q = Q) ∧ (Q = ⟨0, 0, true⟩ → paddPoint P Q = P) ∧
    ∀ x1 y1 x2 y2 : Nat, P = ⟨word x1, word y1, false⟩ → Q = ⟨word x2, word y2, false⟩ →
      x1 < Config.p → y1 < Config.p → x2 < Config.p → y2 < Config.p →
      negPoint P = ⟨word x1, word ((Config.p - y1) % Config.p), false⟩ ∧
      (x1 = x2 → (y1 + y2) % Config.p = 0 → paddPoint P Q = ⟨0, 0, true⟩) ∧
      (¬(x1 = x2 ∧ (y1 + y2) % Config.p = 0) → ∃ lam x3 y3 : Nat,
        paddPoint P Q = ⟨word x3, word y3, false⟩ ∧ x3 < Config.p ∧ y3 < Config.p ∧
        (x1 = x2 → y1 = y2 ∧ (lam : Int) * (2 * y1) ≡ 3 * (x1 : Int) * x1 - 3 [ZMOD Config.p]) ∧
        (x1 ≠ x2 → (lam : Int) * ((x2 : Int) - x1) ≡ (y2 : Int) - y1 [ZMOD Config.p]) ∧
        (x3 : Int) ≡ (lam : Int) * lam - x1 - x2 [ZMOD Config.p] ∧
        (y3 : Int) ≡ (lam : Int) * ((x1 : Int) - x3) - y1 [ZMOD Config.p])

/-- R153: `padd` on valid points has the identity, is commutative and closed, and has inverses. -/
def Obligations.PaddIdentityInverseCommutative : Prop :=
  ∀ P Q : PointReg, valid P = true → valid Q = true →
    paddPoint P .infinity = P ∧ paddPoint .infinity P = P ∧ paddPoint .infinity .infinity = .infinity ∧
    paddPoint P Q = paddPoint Q P ∧ valid (paddPoint P Q) = true ∧
    valid (negPoint P) = true ∧ paddPoint P (negPoint P) = .infinity

/-- R153: `padd` on valid points is associative. -/
def Obligations.PaddAssociative : Prop :=
  ∀ P Q S : PointReg, valid P = true → valid Q = true → valid S = true →
    paddPoint (paddPoint P Q) S = paddPoint P (paddPoint Q S)

/-- R162, R154: the 256 iterations of the ladder give the repeated addition `pmul(k, P)` for every 256-bit `k`; after the
iterations of the top `i` bits, `A0` is the multiple of `P` by those bits and `A1 = padd(A0, P)`, and the iterations of the
other bits go on from there. That `PMUL` runs this ladder is the model's choice (log entry 11). -/
def Obligations.LadderIsRepeatedAddition : Prop :=
  ∀ (k : Nat) (P : PointReg), k < 2 ^ 256 → valid P = true →
    ladder k P = pmulPoint k P ∧
    ∀ i, i ≤ 256 →
      ladderFrom (k / 2 ^ (256 - i)) i (.infinity, P) =
        (pmulPoint (k / 2 ^ (256 - i)) P, paddPoint (pmulPoint (k / 2 ^ (256 - i)) P) P) ∧
      ladder k P = (ladderFrom k (256 - i) (ladderFrom (k / 2 ^ (256 - i)) i (.infinity, P))).1

/-- R154: `pmul` of the identity, by 1 and by 2, its validity, and that it is additive and multiplicative in its scalar. -/
def Obligations.PmulScalarLaws : Prop :=
  ∀ (k l : Nat) (P : PointReg), valid P = true →
    valid (pmulPoint k P) = true ∧ pmulPoint k .infinity = .infinity ∧ pmulPoint 1 P = P ∧
    pmulPoint 2 P = paddPoint P P ∧ pmulPoint (k + l) P = paddPoint (pmulPoint k P) (pmulPoint l P) ∧
    pmulPoint (k * l) P = pmulPoint k (pmulPoint l P)

/-- R163, R154: `n` is prime, the group has exactly `n` elements, every valid point but the identity has order `n`, `G` generates the whole
group, no valid point has `y = 0`, and `pmul(k, P)` depends on `k` only modulo `n`. -/
def Obligations.GroupOfOrderN : Prop :=
  Config.n.Prime ∧ {P : PointReg | valid P = true}.ncard = Config.n ∧
  ∀ P : PointReg, valid P = true →
    (P ≠ .infinity → P.y ≠ 0 ∧ ∀ k, pmulPoint k P = .infinity ↔ Config.n ∣ k) ∧
    (∃ k, k < Config.n ∧ pmulPoint k .base = P) ∧
    pmulPoint Config.n P = .infinity ∧ ∀ k, pmulPoint k P = pmulPoint (k % Config.n) P

/-- R156: `PCHK pa` writes nothing; it completes on a valid point and raises `INVALID_POINT` otherwise. -/
def Obligations.PchkValidates : Prop :=
  ∀ (a : PReg) (s : State), encode (.pchk a) = 0x50#8 ++ 0#4 ++ a ++ 0#4 ++ 0#12 ∧
    (isPoint a = true →
      (valid (s.point a) = true → ∃ t, exec (.pchk a) s = .next t ∧ WroteNothing s t) ∧
      (valid (s.point a) = false → ∃ t, exec (.pchk a) s = .next t ∧ Trapped .invalidPoint s t))

/-- R157, R158: `PDBL` and `PADD` write `padd` of their operands, a valid point, and raise `INVALID_POINT` on an operand
that is not valid. -/
def Obligations.PdblAndPaddWriteSum : Prop :=
  ∀ (d a b : PReg) (s : State),
    encode (.pdbl d a) = 0x51#8 ++ d ++ a ++ 0#4 ++ 0#12 ∧
    encode (.padd d a b) = 0x52#8 ++ d ++ a ++ b ++ 0#12 ∧
    (isPoint d = true → isPoint a = true → isPoint b = true →
      (valid (s.point a) = true →
        ∃ t, exec (.pdbl d a) s = .next t ∧ WrotePoint d (paddPoint (s.point a) (s.point a)) s t ∧
          valid (t.point d) = true) ∧
      (valid (s.point a) = true → valid (s.point b) = true →
        ∃ t, exec (.padd d a b) s = .next t ∧ WrotePoint d (paddPoint (s.point a) (s.point b)) s t ∧
          valid (t.point d) = true) ∧
      (valid (s.point a) = false → ∃ t, exec (.pdbl d a) s = .next t ∧ Trapped .invalidPoint s t) ∧
      (valid (s.point a) = false ∨ valid (s.point b) = false →
        ∃ t, exec (.padd d a b) s = .next t ∧ Trapped .invalidPoint s t))

/-- R159: `PMUL pd, ek, pb` writes `pmul(k, P)`, the repeated addition of R154, a valid point; the scalar is checked first
(`OUT_OF_RANGE`, whatever the point), then the point (`INVALID_POINT`). -/
def Obligations.PmulWritesScalarMultiple : Prop :=
  ∀ (d : PReg) (a : EReg) (b : PReg) (s : State), encode (.pmul d a b) = 0x53#8 ++ d ++ a ++ b ++ 0#12 ∧
    (isPoint d = true → isPoint b = true →
      ((s.elem a).toNat < Config.n → valid (s.point b) = true →
        ∃ t, exec (.pmul d a b) s = .next t ∧ WrotePoint d (pmulPoint (s.elem a).toNat (s.point b)) s t ∧
          valid (t.point d) = true) ∧
      (Config.n ≤ (s.elem a).toNat → ∃ t, exec (.pmul d a b) s = .next t ∧ Trapped .outOfRange s t) ∧
      ((s.elem a).toNat < Config.n → valid (s.point b) = false →
        ∃ t, exec (.pmul d a b) s = .next t ∧ Trapped .invalidPoint s t))

/-- R160: `PEQ ed, pa, pb` answers 1 if the valid points' three fields are equal, else 0; an operand that is not valid
raises `INVALID_POINT`. -/
def Obligations.PeqComparesPoints : Prop :=
  ∀ (d : EReg) (a b : PReg) (s : State), encode (.peq d a b) = 0x54#8 ++ d ++ a ++ b ++ 0#12 ∧
    (isPoint a = true → isPoint b = true →
      (valid (s.point a) = true → valid (s.point b) = true →
        ∃ t, exec (.peq d a b) s = .next t ∧ WroteElem d (if s.point a = s.point b then 1 else 0) s t) ∧
      (valid (s.point a) = false ∨ valid (s.point b) = false →
        ∃ t, exec (.peq d a b) s = .next t ∧ Trapped .invalidPoint s t))

/-! ## Encoding -/

/-- R70, R71, R74, R75: decoding an encoded well-formed command gives it back, every operand at every value. -/
def Obligations.DecodeEncode : Prop := ∀ i : Instr, i.wf = true → decode (encode i) = .ok i

/-- R75, R77, R80: a word that decodes is the word of the command it decodes to, which is well-formed: no bit of a legal
word is ignored. -/
def Obligations.EncodeDecode : Prop := ∀ (w : Cmd) (i : Instr), decode w = .ok i → i.wf = true ∧ encode i = w

/-- R75: a word decodes to a command exactly when it matches the command's row of the opcode table and, for `LDC`, its
index is at most 10; no word matches two rows. -/
def Obligations.DecoderAgreesWithOpcodeTable : Prop :=
  (∀ w : Cmd, (∃ i, decode w = .ok i) ↔
    ∃ r ∈ opcodeTable, r.fits w = true ∧ (r.mnemonic = "LDC" → (w &&& 0xFFF).toNat ≤ 10)) ∧
  (∀ (w : Cmd) (i : Instr), decode w = .ok i → ∃ r ∈ opcodeTable, r.fits w = true ∧ r.mnemonic = i.mnemonic) ∧
  (∀ (w : Cmd) (r r' : OpRow), r ∈ opcodeTable → r' ∈ opcodeTable → r.fits w = true → r'.fits w = true → r = r')

/-- R83, R76 to R79: some words of the spec's tables and what they decode to. -/
def Obligations.SampleWordsDecode : Prop :=
  decode 0x103C0000 = .ok (.mov 3 12) ∧ decode 0x1150007F = .ok (.ld 5 127) ∧ decode 0x12070002 = .ok (.st 2 7) ∧
  decode 0x20123000 = .ok (.fadd 1 2 3) ∧ decode 0x349A0000 = .ok (.sinv 9 10) ∧
  decode 0x40123000 = .ok (.pset 1 2 3) ∧ decode 0x53380000 = .ok (.pmul 3 8 0) ∧
  decode 0x00000000 = .error .reservedOpcode ∧ decode 0xFFFFFFFF = .error .reservedOpcode ∧
  decode 0x01000001 = .error .unusedField ∧ decode 0x44480000 = .error .pointField ∧
  decode 0x1310000B = .error .constIndex

/-- R81, R82: the assembler gives back the word of every well-formed command from its line, and the two
pseudo-instructions are `LDC` of 0 and 1. A line comes already cut into tokens (log entry 17). -/
def Obligations.AssemblerRoundTrip : Prop :=
  (∀ i : Instr, i.wf = true → assemble (toAsm i) = some (encode i)) ∧
  ∀ d : Nat, d < 16 →
    assemble ⟨"ZERO", [.e d]⟩ = some (0x13000000#32 ||| BitVec.ofNat 32 (d * 2 ^ 20)) ∧
    assemble ⟨"ONE", [.e d]⟩ = some (0x13000001#32 ||| BitVec.ofNat 32 (d * 2 ^ 20))

/-! ## The step and faults -/

/-- R90: while BUSY with the core to move, a step at a word that decodes is the execution of the command; when not BUSY
the core has no step, and its move changes nothing (log entry 6). The core moves when the agenda is empty or its next turn
is the core's (log entry 3). -/
def Obligations.StepRunsDecodedCommand : Prop :=
  ∀ (s : State) (i : Instr),
    (s.run = .busy → s.pc.toNat < 256 → decode (s.imemWord s.pc.toNat) = .ok i →
      (s.agenda = [] → step s = exec i s) ∧
      (∀ rest, s.agenda = .core :: rest → step s = exec i { s with agenda := rest })) ∧
    (s.run ≠ .busy →
      (s.agenda = [] → step s = .next s) ∧
      (∀ rest, s.agenda = .core :: rest → step s = .next { s with agenda := rest }))

/-- R80, R181: while BUSY, on the core's turn, the word at `pc` either is the word of exactly one well-formed command, and
the step executes it, or is the word of none, and the step raises `ILLEGAL_COMMAND`. -/
def Obligations.EveryWordIsCommandOrIllegal : Prop :=
  ∀ s u : State, CoreTurn s u → s.run = .busy → s.pc.toNat < 256 →
    (∃ i : Instr, i.wf = true ∧ encode i = s.imemWord s.pc.toNat ∧ step s = exec i u ∧
      ∀ j : Instr, j.wf = true → encode j = s.imemWord s.pc.toNat → j = i) ∨
    ((∀ i : Instr, i.wf = true → encode i ≠ s.imemWord s.pc.toNat) ∧
      ∃ t, step s = .next t ∧ Trapped .illegalCommand u t)

/-- R182: on the core's turn a step at `pc = 256` raises `PC_OVERRUN`, whatever memory holds, and `EPC` records 256; and `pc`
gets to 256 only by the core completing a command other than `END` at index 255. -/
def Obligations.PcOverrunAtEndOfImem : Prop :=
  (∀ s u : State, CoreTurn s u → s.run = .busy → s.pc.toNat = 256 →
    ∃ t, step s = .next t ∧ Trapped .pcOverrun u t ∧ t.epc.toNat = 256) ∧
  ∀ s t : State, step s = .next t → t.pc.toNat = 256 → s.pc.toNat ≠ 256 → CommandCompleted s t ∧ s.pc.toNat = 255

/-- R90, R188: every legal command, in every state, either completes (`pc` advanced, no control register changed), or is
`END`, or raises exactly one fault, which writes the fault record and nothing else: it takes no other way. -/
def Obligations.CommandsCompleteOrTrap : Prop :=
  ∀ (i : Instr) (s : State), i.wf = true → ∃ t, exec i s = .next t ∧
    ((i ≠ .endRun ∧ t.pc = s.pc + 1 ∧ SameControl s t) ∨ (i = .endRun ∧ t.pc = s.pc ∧ t.run = .done) ∨
      ∃ c, Trapped c s t)

/-- A command term that no word decodes to raises `ILLEGAL_COMMAND`. The spec speaks of words only: that `exec` answers so
is the model's choice, log entry 15. -/
def Obligations.IllFormedTermsTrap : Prop :=
  ∀ (i : Instr) (s : State), i.wf = false → (∀ w, decode w ≠ .ok i) ∧ ∃ t, exec i s = .next t ∧ Trapped .illegalCommand s t

/-- R21, R23, R65, R195, R196: no command writes IMEM, `START_PC` or `INTR_EN`, and none reaches what is the host's; only `ST`
writes DMEM; only the commands R21 lists write element registers, and only those R23 lists write point registers; each but
`WIPE` writes at most one. -/
def Obligations.CommandsStayInTheirState : Prop :=
  ∀ (i : Instr) (s t : State), exec i s = .next t →
    t.imem = s.imem ∧ t.startPc = s.startPc ∧ t.intrEn = s.intrEn ∧ SameOwn s t ∧
    (i.mnemonic ≠ "ST" → t.dmem = s.dmem) ∧
    (i.mnemonic ≠ "END" → t.intrState.getLsbD 0 = s.intrState.getLsbD 0) ∧
    (i.mnemonic ∉ ["MOV", "LD", "LDC", "FADD", "FSUB", "FMUL", "FMMUL", "FINV", "FEQ", "FRED", "SADD", "SSUB", "SMUL",
        "SMMUL", "SINV", "SEQ", "SRED", "PGETX", "PGETY", "PISINF", "PEQ", "WIPE"] → SameElems s t) ∧
    (i.mnemonic ∉ ["PSET", "PINF", "PLDG", "PMOV", "PDBL", "PADD", "PMUL", "WIPE"] → SamePoints s t) ∧
    (i.mnemonic ≠ "WIPE" → (∃ d, ∀ r, r ≠ d → t.elem r = s.elem r) ∧ ∃ d, ∀ r, r ≠ d → t.point r = s.point r)

/-- R180: the codes of the six faults are 1 to 6; of a decoded command, each code is taken by the commands the table
lists and no others, so that `NOP END WIPE MOV FRED SRED PSET PINF PLDG PMOV PGETX PGETY PISINF`, and `LDC` with a legal
index, raise no fault. -/
def Obligations.FaultCodesByCommand : Prop :=
  Cause.illegalCommand.code = 1 ∧ Cause.pcOverrun.code = 2 ∧ Cause.badAddress.code = 3 ∧
  Cause.outOfRange.code = 4 ∧ Cause.invalidOperand.code = 5 ∧ Cause.invalidPoint.code = 6 ∧
  ∀ (i : Instr) (s t : State), i.wf = true → s.run = .busy → exec i s = .next t → t.run = .fault →
    (t.err = 3 ∧ i.mnemonic ∈ ["LD", "ST"]) ∨
    (t.err = 4 ∧ i.mnemonic ∈ ["FADD", "FSUB", "FMUL", "FMMUL", "FINV", "FEQ", "FCHK", "SADD", "SSUB", "SMUL", "SMMUL",
      "SINV", "SEQ", "SCHK", "PMUL"]) ∨
    (t.err = 5 ∧ i.mnemonic ∈ ["FINV", "SINV"]) ∨
    (t.err = 6 ∧ i.mnemonic ∈ ["PCHK", "PDBL", "PADD", "PMUL", "PEQ"])

/-! ## Reset, invariants, runs -/

/-- R39, R210: after reset every register is 0, every point register `(0, 0, 0)` and not valid, `run` IDLE, and the
memories are unspecified (nothing is listed, so every cell is a free value: log entry 1); a reset turn does this from any state, with
the memories' content numbered by a free value (log entry 19), and so does a power-up with any content (log entry 18). -/
def Obligations.ResetLeavesR39 : Prop :=
  ∀ t : State,
    (t = State.reset ∨ (∃ e, t = State.powerUp e) ∨ ∃ s rest, s.agenda = .reset :: rest ∧ step s = .next t) →
      (∀ i : EReg, t.elem i = 0) ∧
      (∀ i : PReg, isPoint i = true → t.point i = ⟨0, 0, false⟩ ∧ valid (t.point i) = false) ∧
      t.pc = 0 ∧ t.run = .idle ∧ t.err = 0 ∧ t.epc = 0 ∧ t.startPc = 0 ∧ t.intrEn = 0 ∧ t.intrState = 0 ∧
      t.status = 0 ∧ t.irq = false ∧
      (∀ k, t.imemWord k = Config.imemDraw t.epoch k) ∧ (∀ a, t.dmemByte a = Config.dmemDraw t.epoch a)

/-- The invariant holds after reset. -/
def Obligations.InvariantAtReset : Prop := State.reset.Inv

/-- R25, R26, R30 and the memories' canonical form: every step of the block, whoever moves, keeps the invariant. -/
def Obligations.StepKeepsInvariant : Prop := ∀ s t : State, s.Inv → step s = .next t → t.Inv

/-- R218, R219: with the core alone to move, a run at `pc` is over after at most `257 - pc` steps; until then it is BUSY and
runs the words at `pc`, `pc + 1`, ... in order, and if it ends in DONE it ends at the `END` it has reached. -/
def Obligations.EveryRunTerminates : Prop :=
  ∀ s : State, s.run = .busy → s.agenda = [] → s.pc.toNat ≤ 256 →
    ∃ (k : Nat) (t : State), k + s.pc.toNat ≤ 256 ∧ Reaches (k + 1) s t ∧ RunEnded t ∧ t.pc.toNat = s.pc.toNat + k ∧
      (t.run = .done → decode (s.imemWord t.pc.toNat) = .ok .endRun) ∧
      ∀ (j : Nat) (u : State), j ≤ k → Reaches j s u → u.run = .busy ∧ u.pc.toNat = s.pc.toNat + j

/-- R26, R99: the complete list of what changes `pc`: the core completing a command other than `END` (`+ 1`), `CTRL.START` (`START_PC`), reset (0). -/
def Obligations.OnlyThreeEventsChangePc : Prop :=
  ∀ s t : State, step s = .next t → t.pc ≠ s.pc →
    CommandCompleted s t ∨
    (s.run ≠ .busy ∧ t.run = .busy ∧ t.pc = s.startPc.setWidth 9 ∧
      ∃ data rest, s.agenda = .host (.write 0 32 data) :: rest ∧ data.getLsbD 0 = true) ∨
    (t.pc = 0 ∧ t.run = .idle ∧ ∃ rest, s.agenda = .reset :: rest)

/-- R28: `run` leaves BUSY only by `END`, a fault or reset, and enters it only by a `CTRL` write with `START`. -/
def Obligations.RunStateTransitions : Prop :=
  ∀ s t : State, step s = .next t →
    (s.run = .busy → t.run ≠ .busy →
      (t.run = .done ∧ decode (s.imemWord s.pc.toNat) = .ok .endRun) ∨ (∃ c, t.run = .fault ∧ t.err = Cause.code c) ∨
      (t.run = .idle ∧ ∃ rest, s.agenda = .reset :: rest)) ∧
    (s.run ≠ .busy → t.run ≠ s.run →
      (∃ data rest, s.agenda = .host (.write 0 32 data) :: rest ∧
        (t.run = .busy ∧ data.getLsbD 0 = true ∧ (s.run = .fault → data.getLsbD 1 = true) ∨
          t.run = .idle ∧ data.getLsbD 1 = true)) ∨
      (t.run = .idle ∧ ∃ rest, s.agenda = .reset :: rest))

/-! ## The host window -/

/-- R33, R34: a `CTRL` write with `START` only, from IDLE or DONE, loads `pc` with `START_PC` and makes `run` BUSY, and
nothing else changes; in FAULT and while BUSY it is ignored. One with `CLEAR` only, when not BUSY, makes `run` IDLE and `ERR`
and `EPC` 0, and nothing else changes. -/
def Obligations.CtrlStartAndClear : Prop :=
  ∀ (s : State) (rest : List Turn) (data : Cmd),
    s.agenda = .host (.write 0 32 data) :: rest → data.getLsbD 2 = false →
    (data.getLsbD 0 = true → data.getLsbD 1 = false →
      (s.run = .idle ∨ s.run = .done →
        step s = .next { s with agenda := rest, pc := s.startPc.setWidth 9, run := .busy }) ∧
      (s.run = .fault ∨ s.run = .busy → step s = .next { s with agenda := rest })) ∧
    (data.getLsbD 1 = true → data.getLsbD 0 = false → s.run ≠ .busy →
      step s = .next { s with agenda := rest, run := .idle, err := 0, epc := 0 })

/-- R35: a `CTRL` write with `ZEROIZE` only, when not BUSY, zeroes every element register, makes every point register
`(0, 0, 0)` and zeroes every DMEM byte; `run`, the control registers, `pc` and IMEM are unchanged. -/
def Obligations.CtrlZeroizeWipes : Prop :=
  ∀ (s : State) (rest : List Turn) (data : Cmd), s.agenda = .host (.write 0 32 data) :: rest → s.run ≠ .busy →
    data.getLsbD 2 = true → data.getLsbD 0 = false → data.getLsbD 1 = false →
    ∃ t, step s = .next t ∧ (∀ i : EReg, t.elem i = 0) ∧
      (∀ i : PReg, isPoint i = true → t.point i = ⟨0, 0, false⟩) ∧ (∀ a, a < 4096 → t.dmemByte a = 0) ∧
      SameControl s t ∧ t.pc = s.pc ∧ SameImem s t ∧ t.agenda = rest ∧ t.rdata = s.rdata ∧ t.epoch = s.epoch

/-- R36: while BUSY a `CTRL` write is ignored whole; otherwise its bits act in the order `CLEAR`, `ZEROIZE`, `START`, so
`0x3` in FAULT acknowledges the fault and starts a run, and a write of several bits is those three writes in turn. -/
def Obligations.CtrlBitsActInOrder : Prop :=
  ∀ (s : State) (rest : List Turn) (data : Cmd), s.agenda = .host (.write 0 32 data) :: rest →
    (s.run = .busy → step s = .next { s with agenda := rest }) ∧
    (s.run = .fault → data = 3 →
      step s = .next { s with agenda := rest, err := 0, epc := 0, pc := s.startPc.setWidth 9, run := .busy }) ∧
    (s.run ≠ .busy → step s = .next ((({ s with agenda := rest } : State).hostWrite 0 32 (data &&& 2)).hostWrite 0 32
      (data &&& 4) |>.hostWrite 0 32 (data &&& 1)))

/-- R61: while BUSY the host reads IMEM and DMEM as 0, and its writes to IMEM, DMEM, `START_PC` and `CTRL` are ignored. -/
def Obligations.BusyShutsHostOut : Prop :=
  ∀ (s : State) (offset : Nat) (data : Cmd), s.run = .busy → offset % 4 = 0 →
    ((0x400 ≤ offset ∧ offset < 0x800) ∨ (0x1000 ≤ offset ∧ offset < 0x2000) →
      s.hostRead offset 32 = 0 ∧ s.hostWrite offset 32 data = s) ∧
    (offset = 0x00 ∨ offset = 0x10 → s.hostWrite offset 32 data = s)

/-- R61: what the host can read while BUSY does not depend on the registers, `pc` or the memories: two busy states with the
same control registers answer every read alike. -/
def Obligations.BusyReadsRevealNoOperand : Prop :=
  ∀ s s' : State, s.run = .busy → SameControl s s' → ∀ offset bits : Nat,
    s.hostRead offset bits = s'.hostRead offset bits

/-- R31, R32, R194: a host write to `INTR_STATE` clears exactly the bits written as 1, in every run state; `irq` is the
level `(INTR_STATE & INTR_EN) != 0`. -/
def Obligations.IntrStateWriteOneToClear : Prop :=
  ∀ (s : State) (rest : List Turn) (data : Cmd), s.agenda = .host (.write 0x18 32 data) :: rest →
    ∃ t, step s = .next t ∧ (∀ j, j < 2 → t.intrState.getLsbD j = (s.intrState.getLsbD j && !data.getLsbD j)) ∧
      (t.irq = true ↔ ∃ j, j < 2 ∧ t.intrState.getLsbD j = true ∧ t.intrEn.getLsbD j = true) ∧
      t = { s with agenda := rest, intrState := t.intrState }

/-- R56, R60: a host access that is not 32 bits wide, or not at a multiple of 4, or outside the window, or at a reserved
offset, changes nothing and reads 0. -/
def Obligations.InertHostAccesses : Prop :=
  ∀ (s : State) (offset bits : Nat) (data : Cmd),
    bits ≠ 32 ∨ offset % 4 ≠ 0 ∨ 0x2000 ≤ offset ∨ (0x1C ≤ offset ∧ offset < 0x400) ∨
        (0x800 ≤ offset ∧ offset < 0x1000) →
      s.hostRead offset bits = 0 ∧ s.hostWrite offset bits data = s

/-- R29, R58, R61, R63: a host turn is one access and one step: a read changes nothing but the word handed to the host, a
write is the window's write. What the host reads of the control registers; its write of `INTR_EN` takes in every run state,
one of `START_PC` when not BUSY, each to its register alone; `STATUS`, `ERR` and `EPC` ignore writes. -/
def Obligations.HostTurnsAndControlRegisters : Prop :=
  (∀ (s : State) (rest : List Turn) (offset bits : Nat) (data : Cmd),
    (s.agenda = .host (.read offset bits) :: rest →
      step s = .next { s with agenda := rest, rdata := s.hostRead offset bits }) ∧
    (s.agenda = .host (.write offset bits data) :: rest →
      step s = .next (({ s with agenda := rest } : State).hostWrite offset bits data))) ∧
  ∀ (s : State) (data : Cmd),
    s.hostRead 0x00 32 = 0 ∧
    (s.hostRead 0x04 32).toNat =
      (if s.run = .busy then 1 else 0) + (if s.run = .done then 2 else 0) + (if s.run = .fault then 4 else 0) ∧
    (s.hostRead 0x08 32).toNat = s.err.toNat ∧ (s.hostRead 0x0C 32).toNat = s.epc.toNat ∧
    (s.hostRead 0x10 32).toNat = s.startPc.toNat ∧ (s.hostRead 0x14 32).toNat = s.intrEn.toNat ∧
    (s.hostRead 0x18 32).toNat = s.intrState.toNat ∧
    s.hostWrite 0x14 32 data = { s with intrEn := data.extractLsb' 0 2 } ∧
    (s.run ≠ .busy → s.hostWrite 0x10 32 data = { s with startPc := data.extractLsb' 0 8 }) ∧
    s.hostWrite 0x04 32 data = s ∧ s.hostWrite 0x08 32 data = s ∧ s.hostWrite 0x0C 32 data = s

/-- R53: when not BUSY, the window word at `0x1000 + 32*slot + 4*j` is bits `255-32j : 224-32j` of the slot's value, for a
read; and a write there followed by a read gives the word back, with every byte outside the word and every other part of
the state unchanged. -/
def Obligations.HostDmemWordIsBigEndian : Prop :=
  ∀ (s : State) (slot : Imm) (j : Nat) (data : Cmd), s.run ≠ .busy → slot.toNat < 128 → j < 8 →
    (∀ (d : EReg) (t : State), exec (.ld d slot) s = .next t →
      s.hostRead (0x1000 + 32 * slot.toNat + 4 * j) 32 = (t.elem d).extractLsb' (224 - 32 * j) 32) ∧
    (s.hostWrite (0x1000 + 32 * slot.toNat + 4 * j) 32 data).hostRead (0x1000 + 32 * slot.toNat + 4 * j) 32 = data ∧
    (∀ a, a < 32 * slot.toNat + 4 * j ∨ 32 * slot.toNat + 4 * j + 4 ≤ a →
      (s.hostWrite (0x1000 + 32 * slot.toNat + 4 * j) 32 data).dmemByte a = s.dmemByte a) ∧
    SameElems s (s.hostWrite (0x1000 + 32 * slot.toNat + 4 * j) 32 data) ∧
    SamePoints s (s.hostWrite (0x1000 + 32 * slot.toNat + 4 * j) 32 data) ∧
    SameImem s (s.hostWrite (0x1000 + 32 * slot.toNat + 4 * j) 32 data) ∧
    SameControl s (s.hostWrite (0x1000 + 32 * slot.toNat + 4 * j) 32 data) ∧
    (s.hostWrite (0x1000 + 32 * slot.toNat + 4 * j) 32 data).pc = s.pc ∧
    SameOwn s (s.hostWrite (0x1000 + 32 * slot.toNat + 4 * j) 32 data)

/-- R54, R63: when not BUSY, a host write at `0x400 + 4*i` stores the data word as command word `i`, bit for bit, changes no
other, and is what the host reads there and what a run fetches at `pc = i`. -/
def Obligations.HostWritesCommandWord : Prop :=
  ∀ (s : State) (i : Nat) (data : Cmd), s.run ≠ .busy → i < 256 →
    (s.hostWrite (0x400 + 4 * i) 32 data).imemWord i = data ∧
    (s.hostWrite (0x400 + 4 * i) 32 data).hostRead (0x400 + 4 * i) 32 = data ∧
    (∀ k, k ≠ i → (s.hostWrite (0x400 + 4 * i) 32 data).imemWord k = s.imemWord k) ∧
    SameElems s (s.hostWrite (0x400 + 4 * i) 32 data) ∧ SamePoints s (s.hostWrite (0x400 + 4 * i) 32 data) ∧
    SameDmem s (s.hostWrite (0x400 + 4 * i) 32 data) ∧ SameControl s (s.hostWrite (0x400 + 4 * i) 32 data) ∧
    (s.hostWrite (0x400 + 4 * i) 32 data).pc = s.pc ∧ SameOwn s (s.hostWrite (0x400 + 4 * i) 32 data)
end

