-- ==== Sys2Proof/Laws/Arith.lean ====
section
/-! SUPPORT. Modular arithmetic: ranges, what each function is in the ring of residues, and that `powMod` is the power. -/

namespace Sys2Proof.Machine

theorem p_pos : 0 < Config.p := by decide
theorem n_pos : 0 < Config.n := by decide
theorem p_lt : Config.p < 2 ^ 256 := by decide +kernel
theorem n_lt : Config.n < 2 ^ 256 := by decide +kernel
theorem n_lt_p : Config.n < Config.p := by decide +kernel

/-- The value of a stored number that fits. -/
theorem toNat_word {v : Nat} (h : v < 2 ^ 256) : (word v).toNat = v := by
  rw [word, BitVec.toNat_ofNat, Nat.mod_eq_of_lt h]

/-! ## Ranges -/

theorem zmod_lt (x : Int) {m : Nat} (h : 0 < m) : zmod x m < m := by
  have h1 : x % (m : Int) < m := Int.emod_lt_of_pos x (by exact_mod_cast h)
  have h2 : 0 ≤ x % (m : Int) := Int.emod_nonneg x (by omega)
  unfold zmod
  omega

theorem addm_lt {m : Nat} (h : 0 < m) (a b : Nat) : addm m a b < m := Nat.mod_lt _ h
theorem subm_lt {m : Nat} (h : 0 < m) (a b : Nat) : subm m a b < m := zmod_lt _ h
theorem mulm_lt {m : Nat} (h : 0 < m) (a b : Nat) : mulm m a b < m := Nat.mod_lt _ h
theorem montP_lt (a b : Nat) : montP a b < Config.p := Nat.mod_lt _ p_pos
theorem montN_lt (a b : Nat) : montN a b < Config.n := Nat.mod_lt _ n_pos

/-- `zmod` is the residue of R7. -/
theorem zmod_coe (x : Int) {m : Nat} (h : 0 < m) : (zmod x m : Int) = x % m := by
  unfold zmod
  exact Int.toNat_of_nonneg (Int.emod_nonneg x (by omega))

/-- In the ring of residues `zmod` is the identity. -/
theorem cast_zmod (x : Int) {m : Nat} (h : 0 < m) : (zmod x m : ZMod m) = (x : ZMod m) := by
  rw [← Int.cast_natCast, zmod_coe x h, ZMod.intCast_mod]

theorem zmod_natCast (a m : Nat) : zmod (a : Int) m = a % m := by
  unfold zmod
  rw [← Int.natCast_mod, Int.toNat_natCast]

/-- Two residues of a modulus are equal as numbers if they are equal in the ring. -/
theorem eq_of_cast_eq {m a b : Nat} (ha : a < m) (hb : b < m) (h : (a : ZMod m) = b) : a = b := by
  rw [ZMod.natCast_eq_natCast_iff'] at h
  rwa [Nat.mod_eq_of_lt ha, Nat.mod_eq_of_lt hb] at h

/-! ## Powers and inverses -/

/-- `powMod` is the power modulo `m`. -/
theorem powMod_eq (m k b e : Nat) (h : e < 2 ^ k) : powMod m k b e = b ^ e % m := by
  induction k generalizing b e with
  | zero => simp_all [powMod]
  | succ k ih =>
    have ih := ih (b * b % m) (e / 2) (by rw [Nat.pow_succ] at h; omega)
    have hsq : (b * b % m) ^ (e / 2) % m = b ^ (2 * (e / 2)) % m := by
      rw [← Nat.pow_mod, ← pow_two, ← pow_mul]
    simp only [powMod, ih, hsq]
    by_cases ho : e % 2 = 1
    · rw [if_pos ho, Nat.mod_mul_mod, ← pow_succ]
      congr 2
      omega
    · rw [if_neg ho]
      congr 2
      omega

theorem invm_eq {m : Nat} (hm : m ≤ 2 ^ 256) (h2 : 2 ≤ m) (a : Nat) : invm a m = a ^ (m - 2) % m := by
  rw [invm, powMod_eq _ _ _ _ (by omega), ← Nat.pow_mod]

theorem invm_lt {m : Nat} (hm : m ≤ 2 ^ 256) (h2 : 2 ≤ m) (a : Nat) : invm a m < m := by
  rw [invm_eq hm h2]
  exact Nat.mod_lt _ (by omega)

/-- For an odd prime modulus `invm` is the inverse in the field of residues (Fermat, R11, R112). -/
theorem cast_invm {m : Nat} [Fact m.Prime] (hm : m ≤ 2 ^ 256) (h2 : 2 < m) (a : Nat) :
    (invm a m : ZMod m) = (a : ZMod m)⁻¹ := by
  rw [invm_eq hm h2.le, ZMod.natCast_mod, Nat.cast_pow]
  by_cases ha : (a : ZMod m) = 0
  · rw [ha, inv_zero]
    exact zero_pow (by omega)
  · refine eq_inv_of_mul_eq_one_left ?_
    rw [← pow_succ, show m - 2 + 1 = m - 1 by omega]
    exact ZMod.pow_card_sub_one_eq_one ha

end Sys2Proof.Machine
end

