-- ==== Sys2Proof/Laws/Primality.lean ====
section
/-! SUPPORT. `p` and `n` are prime (R11 and R125 say so from general knowledge; here it is proved, by chains of Lucas
certificates whose powers the kernel computes). -/

namespace Sys2Proof.Machine

/-- A Lucas certificate: `q - 1` is the product of the listed primes, and `a` has order `q - 1`. -/
theorem prime_of_certificate (q a : Nat) (fs : List Nat) (hfs : ∀ f ∈ fs, f.Prime)
    (h : (decide (2 ≤ q) && decide (q ≤ 2 ^ 256) && fs.prod == q - 1 && powMod q 256 a (q - 1) == 1 &&
      fs.all fun f => powMod q 256 a ((q - 1) / f) != 1) = true) : q.Prime := by
  simp only [Bool.and_eq_true, decide_eq_true_eq, beq_iff_eq, List.all_eq_true, bne_iff_ne] at h
  obtain ⟨⟨⟨⟨h2, hq⟩, hprod⟩, hone⟩, hne⟩ := h
  have small (e : Nat) (he : e ≤ q - 1) : powMod q 256 a e = a ^ e % q := powMod_eq q 256 a e (by omega)
  have cast_one_iff (e : Nat) : (a : ZMod q) ^ e = 1 ↔ a ^ e % q = 1 := by
    have h := ZMod.natCast_eq_natCast_iff' (a ^ e) 1 q
    rwa [Nat.cast_pow, Nat.cast_one, Nat.mod_eq_of_lt (show 1 < q by omega)] at h
  refine lucas_primality q (a : ZMod q) ?_ fun r hr hdvd heq => ?_
  · rw [small _ le_rfl] at hone
    exact (cast_one_iff _).2 hone
  · rw [← hprod] at hdvd
    obtain ⟨f, hf, hrf⟩ := (Prime.dvd_prod_iff hr.prime).1 hdvd
    obtain rfl := (Nat.prime_dvd_prime_iff_eq hr (hfs f hf)).1 hrf
    apply hne r hf
    rw [small _ (Nat.div_le_self _ _)]
    exact (cast_one_iff _).1 heq

theorem prime_204061199 : Nat.Prime 204061199 := by
  refine prime_of_certificate _ 11 [2, 11, 23, 107, 3769] ?_ (by decide +kernel)
  simp only [List.mem_cons, List.not_mem_nil, or_false, forall_eq_or_imp, forall_eq]
  refine ⟨by norm_num, by norm_num, by norm_num, by norm_num, by norm_num⟩

theorem prime_34282281433 : Nat.Prime 34282281433 := by
  refine prime_of_certificate _ 17 [2, 2, 2, 3, 7, 204061199] ?_ (by decide +kernel)
  simp only [List.mem_cons, List.not_mem_nil, or_false, forall_eq_or_imp, forall_eq]
  refine ⟨by norm_num, by norm_num, by norm_num, by norm_num, by norm_num, prime_204061199⟩

theorem prime_66417393611 : Nat.Prime 66417393611 := by
  refine prime_of_certificate _ 6 [2, 5, 53, 173, 197, 3677] ?_ (by decide +kernel)
  simp only [List.mem_cons, List.not_mem_nil, or_false, forall_eq_or_imp, forall_eq]
  refine ⟨by norm_num, by norm_num, by norm_num, by norm_num, by norm_num, by norm_num⟩

theorem prime_11290956913871 : Nat.Prime 11290956913871 := by
  refine prime_of_certificate _ 13 [2, 5, 17, 66417393611] ?_ (by decide +kernel)
  simp only [List.mem_cons, List.not_mem_nil, or_false, forall_eq_or_imp, forall_eq]
  refine ⟨by norm_num, by norm_num, by norm_num, prime_66417393611⟩

theorem prime_46076956964474543 : Nat.Prime 46076956964474543 := by
  refine prime_of_certificate _ 5 [2, 23, 18169, 78283, 704251] ?_ (by decide +kernel)
  simp only [List.mem_cons, List.not_mem_nil, or_false, forall_eq_or_imp, forall_eq]
  refine ⟨by norm_num, by norm_num, by norm_num, by norm_num, by norm_num⟩

theorem prime_774023187263532362759620327192479577272145303 : Nat.Prime 774023187263532362759620327192479577272145303 := by
  refine prime_of_certificate _ 3 [2, 3, 3, 2411, 34282281433, 11290956913871, 46076956964474543] ?_ (by decide +kernel)
  simp only [List.mem_cons, List.not_mem_nil, or_false, forall_eq_or_imp, forall_eq]
  refine ⟨by norm_num, by norm_num, by norm_num, by norm_num, prime_34282281433, prime_11290956913871, prime_46076956964474543⟩

theorem prime_835945042244614951780389953367877943453916927241 : Nat.Prime 835945042244614951780389953367877943453916927241 := by
  refine prime_of_certificate _ 11 [2, 2, 2, 3, 3, 3, 5, 774023187263532362759620327192479577272145303] ?_ (by decide +kernel)
  simp only [List.mem_cons, List.not_mem_nil, or_false, forall_eq_or_imp, forall_eq]
  refine ⟨by norm_num, by norm_num, by norm_num, by norm_num, by norm_num, by norm_num, by norm_num, prime_774023187263532362759620327192479577272145303⟩

/-- The field prime is prime. -/
theorem p_prime : Nat.Prime Config.p := by
  refine prime_of_certificate _ 6 [2, 3, 5, 5, 17, 257, 641, 1531, 65537, 490463, 6700417, 835945042244614951780389953367877943453916927241] ?_ (by decide +kernel)
  simp only [List.mem_cons, List.not_mem_nil, or_false, forall_eq_or_imp, forall_eq]
  refine ⟨by norm_num, by norm_num, by norm_num, by norm_num, by norm_num, by norm_num, by norm_num, by norm_num, by norm_num, by norm_num, by norm_num, prime_835945042244614951780389953367877943453916927241⟩

theorem prime_187019741 : Nat.Prime 187019741 := by
  refine prime_of_certificate _ 2 [2, 2, 5, 9350987] ?_ (by decide +kernel)
  simp only [List.mem_cons, List.not_mem_nil, or_false, forall_eq_or_imp, forall_eq]
  refine ⟨by norm_num, by norm_num, by norm_num, by norm_num⟩

theorem prime_311245691 : Nat.Prime 311245691 := by
  refine prime_of_certificate _ 2 [2, 5, 7, 17, 29, 29, 311] ?_ (by decide +kernel)
  simp only [List.mem_cons, List.not_mem_nil, or_false, forall_eq_or_imp, forall_eq]
  refine ⟨by norm_num, by norm_num, by norm_num, by norm_num, by norm_num, by norm_num, by norm_num⟩

theorem prime_622491383 : Nat.Prime 622491383 := by
  refine prime_of_certificate _ 5 [2, 311245691] ?_ (by decide +kernel)
  simp only [List.mem_cons, List.not_mem_nil, or_false, forall_eq_or_imp, forall_eq]
  refine ⟨by norm_num, prime_311245691⟩

theorem prime_1002328039319 : Nat.Prime 1002328039319 := by
  refine prime_of_certificate _ 19 [2, 126241, 3969899] ?_ (by decide +kernel)
  simp only [List.mem_cons, List.not_mem_nil, or_false, forall_eq_or_imp, forall_eq]
  refine ⟨by norm_num, by norm_num, by norm_num⟩

theorem prime_191039911 : Nat.Prime 191039911 := by
  refine prime_of_certificate _ 3 [2, 3, 5, 41, 155317] ?_ (by decide +kernel)
  simp only [List.mem_cons, List.not_mem_nil, or_false, forall_eq_or_imp, forall_eq]
  refine ⟨by norm_num, by norm_num, by norm_num, by norm_num, by norm_num⟩

theorem prime_208150935158385979 : Nat.Prime 208150935158385979 := by
  refine prime_of_certificate _ 2 [2, 3, 11, 43, 127, 3023, 191039911] ?_ (by decide +kernel)
  simp only [List.mem_cons, List.not_mem_nil, or_false, forall_eq_or_imp, forall_eq]
  refine ⟨by norm_num, by norm_num, by norm_num, by norm_num, by norm_num, by norm_num, prime_191039911⟩

theorem prime_2624747550333869278416773953 : Nat.Prime 2624747550333869278416773953 := by
  refine prime_of_certificate _ 7 [2, 2, 2, 2, 2, 2, 3, 3, 1297, 16879, 208150935158385979] ?_ (by decide +kernel)
  simp only [List.mem_cons, List.not_mem_nil, or_false, forall_eq_or_imp, forall_eq]
  refine ⟨by norm_num, by norm_num, by norm_num, by norm_num, by norm_num, by norm_num, by norm_num, by norm_num, by norm_num, by norm_num, prime_208150935158385979⟩

/-- The group order is prime. -/
theorem n_prime : Nat.Prime Config.n := by
  refine prime_of_certificate _ 7 [2, 2, 2, 2, 3, 71, 131, 373, 3407, 17449, 38189, 187019741, 622491383, 1002328039319, 2624747550333869278416773953] ?_ (by decide +kernel)
  simp only [List.mem_cons, List.not_mem_nil, or_false, forall_eq_or_imp, forall_eq]
  refine ⟨by norm_num, by norm_num, by norm_num, by norm_num, by norm_num, by norm_num, by norm_num, by norm_num, by norm_num, by norm_num, by norm_num, prime_187019741, prime_622491383, prime_1002328039319, prime_2624747550333869278416773953⟩

theorem two_lt_p : 2 < Config.p := by decide +kernel
theorem two_lt_n : 2 < Config.n := by decide +kernel

/-- `invm` modulo `p` in the field of residues. -/
theorem cast_invm_p (a : Nat) : (invm a Config.p : ZMod Config.p) = (a : ZMod Config.p)⁻¹ :=
  haveI := Fact.mk p_prime
  cast_invm p_lt.le two_lt_p a

/-- `invm` modulo `n` in the field of residues. -/
theorem cast_invm_n (a : Nat) : (invm a Config.n : ZMod Config.n) = (a : ZMod Config.n)⁻¹ :=
  haveI := Fact.mk n_prime
  cast_invm n_lt.le two_lt_n a

end Sys2Proof.Machine
end

