-- ==== Sys2Proof/Laws/Curve.lean ====
section
/-! SUPPORT. The curve of R150 as Mathlib's elliptic curve over the field of residues modulo `p`, and what the model's
`valid` and `paddPoint` are there: a valid point-register value denotes one point of the group, and `paddPoint` denotes
the group's addition. (R153 takes the group's laws as general knowledge; here they come from Mathlib.) -/

namespace Sys2Proof.Machine

/-- The field of R15: residues modulo `p`. -/
abbrev Fp := ZMod Config.p

/-- `y^2 = x^3 - 3x + b` over the field of residues (R150). -/
def curve : WeierstrassCurve.Affine Fp := ⟨0, 0, 0, -3, (Config.b : Fp)⟩

@[simp] theorem curve_a₁ : curve.a₁ = 0 := rfl
@[simp] theorem curve_a₂ : curve.a₂ = 0 := rfl
@[simp] theorem curve_a₃ : curve.a₃ = 0 := rfl
@[simp] theorem curve_a₄ : curve.a₄ = -3 := rfl
@[simp] theorem curve_a₆ : curve.a₆ = (Config.b : Fp) := rfl

/-- The curve is smooth. -/
theorem curve_Δ_ne_zero : curve.Δ ≠ 0 := by
  have h : curve.Δ = ((16 * 108 - 432 * (Config.b : Int) ^ 2 : Int) : Fp) := by
    simp only [WeierstrassCurve.Δ, WeierstrassCurve.b₂, WeierstrassCurve.b₄, WeierstrassCurve.b₆,
      WeierstrassCurve.b₈, curve_a₁, curve_a₂, curve_a₃, curve_a₄, curve_a₆]
    push_cast
    ring
  rw [h, Ne, ZMod.intCast_zmod_eq_zero_iff_dvd]
  decide +kernel

theorem nonsingular_iff (x y : Fp) : curve.Nonsingular x y ↔ y ^ 2 = x ^ 3 - 3 * x + Config.b := by
  rw [← WeierstrassCurve.Affine.equation_iff_nonsingular_of_Δ_ne_zero curve_Δ_ne_zero,
    WeierstrassCurve.Affine.equation_iff]
  simp only [curve_a₁, curve_a₂, curve_a₃, curve_a₄, curve_a₆]
  constructor <;> intro h <;> linear_combination h

/-- The point-register value stores the point: the identity in its canonical form, or the point's coordinates as
numbers below `p`. -/
def Denotes (P : PointReg) (A : curve.Point) : Prop :=
  (P = .infinity ∧ A = 0) ∨
    ∃ (x y : Fp) (h : curve.Nonsingular x y), A = .some x y h ∧ P.inf = false ∧ P.x.toNat < Config.p ∧
      P.y.toNat < Config.p ∧ (P.x.toNat : Fp) = x ∧ (P.y.toNat : Fp) = y

theorem denotes_infinity : Denotes .infinity 0 := .inl ⟨rfl, rfl⟩

theorem cast_curveRhs (x : Nat) : (curveRhs x : Fp) = (x : Fp) ^ 3 - 3 * x + Config.b := by
  rw [curveRhs, cast_zmod _ p_pos]
  push_cast
  ring

theorem curveRhs_lt (x : Nat) : curveRhs x < Config.p := zmod_lt _ p_pos

/-- The equation test of R151 is the curve equation of R150. -/
theorem equation_test (x y : Nat) :
    y * y % Config.p = curveRhs x ↔ (y : Fp) ^ 2 = (x : Fp) ^ 3 - 3 * x + Config.b := by
  rw [← cast_curveRhs]
  constructor
  · intro h
    rw [← h, ZMod.natCast_mod, Nat.cast_mul, pow_two]
  · intro h
    refine eq_of_cast_eq (Nat.mod_lt _ p_pos) (curveRhs_lt x) ?_
    rw [ZMod.natCast_mod, Nat.cast_mul, ← pow_two, h]

/-- `valid` (R151) holds exactly of the values that store a point of the curve. -/
theorem valid_iff_denotes (P : PointReg) : valid P = true ↔ ∃ A, Denotes P A := by
  obtain ⟨x, y, inf⟩ := P
  cases inf
  · simp only [valid, Bool.false_eq_true, if_false, Bool.and_eq_true, decide_eq_true_eq, beq_iff_eq, equation_test]
    constructor
    · rintro ⟨⟨hx, hy⟩, h⟩
      exact ⟨_, .inr ⟨_, _, (nonsingular_iff _ _).2 h, rfl, rfl, hx, hy, rfl, rfl⟩⟩
    · rintro ⟨A, h⟩
      rcases h with ⟨h, -⟩ | ⟨_, _, h, -, -, hx, hy, rfl, rfl⟩
      · simp [PointReg.infinity] at h
      · exact ⟨⟨hx, hy⟩, (nonsingular_iff _ _).1 h⟩
  · simp only [valid, if_true, Bool.and_eq_true, beq_iff_eq]
    constructor
    · rintro ⟨rfl, rfl⟩
      exact ⟨0, .inl ⟨rfl, rfl⟩⟩
    · rintro ⟨A, h⟩
      rcases h with ⟨h, -⟩ | ⟨_, _, _, -, h, -⟩
      · simpa [PointReg.infinity] using h
      · cases h

/-- A value stores at most one point. -/
theorem Denotes.point_unique {P : PointReg} {A B : curve.Point} (hA : Denotes P A) (hB : Denotes P B) : A = B := by
  rcases hA with ⟨rfl, rfl⟩ | ⟨x, y, h, rfl, hi, -, -, rfl, rfl⟩ <;>
    rcases hB with ⟨h2, rfl⟩ | ⟨x', y', h', rfl, hi', -, -, rfl, rfl⟩
  · rfl
  · cases hi'
  · rw [h2] at hi; cases hi
  · rfl

/-- A point is stored in one form only (R25). -/
theorem Denotes.value_unique {P Q : PointReg} {A : curve.Point} (hP : Denotes P A) (hQ : Denotes Q A) : P = Q := by
  rcases hP with ⟨rfl, rfl⟩ | ⟨x, y, h, rfl, hi, hx, hy, ex, ey⟩ <;>
    rcases hQ with ⟨h2, h3⟩ | ⟨x', y', h', h3, hi', hx', hy', ex', ey'⟩
  · exact h2.symm
  · cases h3
  · cases h3
  · obtain ⟨rfl, rfl⟩ : x = x' ∧ y = y' := by simpa using h3
    have e1 := eq_of_cast_eq hx hx' (ex.trans ex'.symm)
    have e2 := eq_of_cast_eq hy hy' (ey.trans ey'.symm)
    obtain ⟨Px, Py, Pi⟩ := P
    obtain ⟨Qx, Qy, Qi⟩ := Q
    simp_all [BitVec.toNat_inj]

theorem cast_tangent (x1 y1 : Nat) : (tangent x1 y1 : Fp) = (3 * (x1 : Fp) ^ 2 - 3) * (2 * (y1 : Fp))⁻¹ := by
  rw [tangent, cast_zmod _ p_pos]
  push_cast
  rw [cast_invm_p]
  push_cast
  ring

theorem cast_chord (x1 y1 x2 y2 : Nat) :
    (chord x1 y1 x2 y2 : Fp) = ((y2 : Fp) - y1) * ((x2 : Fp) - x1)⁻¹ := by
  rw [chord, cast_zmod _ p_pos]
  push_cast
  rw [cast_invm_p, cast_zmod _ p_pos]
  push_cast
  ring

/-- The third point of a line, in the field. -/
theorem thirdPoint_spec (lam x1 y1 x2 : Nat) :
    (thirdPoint lam x1 y1 x2).inf = false ∧ (thirdPoint lam x1 y1 x2).x.toNat < Config.p ∧
      (thirdPoint lam x1 y1 x2).y.toNat < Config.p ∧
      ((thirdPoint lam x1 y1 x2).x.toNat : Fp) = (lam : Fp) ^ 2 - x1 - x2 ∧
      ((thirdPoint lam x1 y1 x2).y.toNat : Fp) = lam * (x1 - ((lam : Fp) ^ 2 - x1 - x2)) - y1 := by
  have hx := zmod_lt ((lam : Int) * lam - x1 - x2) p_pos
  have cx : ((zmod ((lam : Int) * lam - x1 - x2) Config.p : Nat) : Fp) = (lam : Fp) ^ 2 - x1 - x2 := by
    rw [cast_zmod _ p_pos]; push_cast; ring
  simp only [thirdPoint]
  generalize zmod ((lam : Int) * lam - x1 - x2) Config.p = x3 at hx cx
  have hy := zmod_lt ((lam : Int) * ((x1 : Int) - x3) - y1) p_pos
  have cy : ((zmod ((lam : Int) * ((x1 : Int) - x3) - y1) Config.p : Nat) : Fp) =
      lam * (x1 - ((lam : Fp) ^ 2 - x1 - x2)) - y1 := by
    rw [cast_zmod _ p_pos, ← cx]; push_cast; ring
  generalize zmod ((lam : Int) * ((x1 : Int) - x3) - y1) Config.p = y3 at hy cy
  refine ⟨trivial, ?_, ?_, ?_, ?_⟩
  · rwa [toNat_word (hx.trans p_lt)]
  · rwa [toNat_word (hy.trans p_lt)]
  · rwa [toNat_word (hx.trans p_lt)]
  · rwa [toNat_word (hy.trans p_lt)]

/-- `paddPoint` (R152) denotes the addition of the curve's group. -/
theorem Denotes.padd [Fact (Nat.Prime Config.p)] [DecidableEq Fp] {P Q : PointReg} {A B : curve.Point}
    (hA : Denotes P A) (hB : Denotes Q B) : Denotes (paddPoint P Q) (A + B) := by
  by_cases hP : P = .infinity
  · subst hP
    obtain rfl := hA.point_unique denotes_infinity
    simpa [paddPoint] using hB
  by_cases hQ : Q = .infinity
  · subst hQ
    obtain rfl := hB.point_unique denotes_infinity
    simpa [paddPoint, hP] using hA
  rcases hA with ⟨h, -⟩ | ⟨x₁, y₁, h₁, rfl, -, hx1, hy1, ex1, ey1⟩
  · exact absurd h hP
  rcases hB with ⟨h, -⟩ | ⟨x₂, y₂, h₂, rfl, -, hx2, hy2, ex2, ey2⟩
  · exact absurd h hQ
  have hxiff : P.x.toNat = Q.x.toNat ↔ x₁ = x₂ := by
    constructor
    · intro h; rw [← ex1, ← ex2, h]
    · intro h; exact eq_of_cast_eq hx1 hx2 (by rw [ex1, ex2, h])
  have hyiff : (P.y.toNat + Q.y.toNat) % Config.p = 0 ↔ y₁ = -y₂ := by
    rw [← Nat.dvd_iff_mod_eq_zero, ← ZMod.natCast_eq_zero_iff, Nat.cast_add, ey1, ey2, eq_neg_iff_add_eq_zero]
  have hneg : curve.negY x₂ y₂ = -y₂ := by simp [WeierstrassCurve.Affine.negY]
  simp only [paddPoint, hP, hQ, if_false]
  by_cases hx : x₁ = x₂
  · by_cases hy : y₁ = -y₂
    · rw [if_pos ⟨hxiff.2 hx, hyiff.2 hy⟩, WeierstrassCurve.Affine.Point.add_of_Y_eq hx (by rw [hneg, hy])]
      exact denotes_infinity
    · have hne : y₁ ≠ curve.negY x₂ y₂ := by rwa [hneg]
      rw [if_neg fun h => hy (hyiff.1 h.2), if_pos (hxiff.2 hx),
        WeierstrassCurve.Affine.Point.add_some fun h => hne h.2]
      obtain ⟨s1, s2, s3, s4, s5⟩ := thirdPoint_spec (tangent P.x.toNat P.y.toNat) P.x.toNat P.y.toNat Q.x.toNat
      rw [cast_tangent, ex1, ey1, ex2] at s4 s5
      have hslope : curve.slope x₁ x₂ y₁ y₂ = (3 * x₁ ^ 2 - 3) * (2 * y₁)⁻¹ := by
        rw [WeierstrassCurve.Affine.slope_of_Y_ne hx hne, div_eq_mul_inv]
        simp only [WeierstrassCurve.Affine.negY, curve_a₁, curve_a₂, curve_a₃, curve_a₄]
        have num : 3 * x₁ ^ 2 + 2 * 0 * x₁ + -3 - 0 * y₁ = 3 * x₁ ^ 2 - 3 := by ring
        have den : y₁ - (-y₁ - 0 * x₁ - 0) = 2 * y₁ := by ring
        rw [num, den]
      refine .inr ⟨_, _, _, rfl, s1, s2, s3, ?_, ?_⟩
      · rw [s4, hslope]
        simp only [WeierstrassCurve.Affine.addX, curve_a₁, curve_a₂]
        ring
      · rw [s5, hslope]
        simp only [WeierstrassCurve.Affine.addY, WeierstrassCurve.Affine.negAddY, WeierstrassCurve.Affine.negY,
          WeierstrassCurve.Affine.addX, curve_a₁, curve_a₂, curve_a₃]
        ring
  · rw [if_neg fun h => hx (hxiff.1 h.1), if_neg fun h => hx (hxiff.1 h),
      WeierstrassCurve.Affine.Point.add_some fun h => hx h.1]
    obtain ⟨s1, s2, s3, s4, s5⟩ := thirdPoint_spec
      (chord P.x.toNat P.y.toNat Q.x.toNat Q.y.toNat) P.x.toNat P.y.toNat Q.x.toNat
    rw [cast_chord, ex1, ey1, ex2, ey2] at s4 s5
    have hslope : curve.slope x₁ x₂ y₁ y₂ = (y₂ - y₁) * (x₂ - x₁)⁻¹ := by
      rw [WeierstrassCurve.Affine.slope_of_X_ne hx, div_eq_mul_inv, ← neg_sub y₂ y₁, ← neg_sub x₂ x₁, inv_neg]
      ring
    refine .inr ⟨_, _, _, rfl, s1, s2, s3, ?_, ?_⟩
    · rw [s4, hslope]
      simp only [WeierstrassCurve.Affine.addX, curve_a₁, curve_a₂]
      ring
    · rw [s5, hslope]
      simp only [WeierstrassCurve.Affine.addY, WeierstrassCurve.Affine.negAddY, WeierstrassCurve.Affine.negY,
        WeierstrassCurve.Affine.addX, curve_a₁, curve_a₂, curve_a₃]
      ring

/-- `negPoint` (R152) denotes the negative. -/
theorem Denotes.neg {P : PointReg} {A : curve.Point} (h : Denotes P A) : Denotes (negPoint P) (-A) := by
  rcases h with ⟨rfl, rfl⟩ | ⟨x, y, h, rfl, hi, hx, hy, ex, ey⟩
  · exact .inl ⟨rfl, rfl⟩
  · rw [WeierstrassCurve.Affine.Point.neg_some]
    have e : (word ((Config.p - P.y.toNat) % Config.p)).toNat = (Config.p - P.y.toNat) % Config.p :=
      toNat_word ((Nat.mod_lt _ p_pos).trans p_lt)
    refine .inr ⟨_, _, _, rfl, ?_, ?_, ?_, ?_, ?_⟩
    · simp [negPoint, hi]
    · simpa [negPoint, hi] using hx
    · simp only [negPoint, hi, Bool.false_eq_true, if_false, e]; exact Nat.mod_lt _ p_pos
    · simpa [negPoint, hi] using ex
    · simp only [negPoint, hi, Bool.false_eq_true, if_false, e, ZMod.natCast_mod]
      rw [Nat.cast_sub hy.le, ey]; simp [WeierstrassCurve.Affine.negY]

/-- `pmulPoint` (R154) denotes the multiple. -/
theorem Denotes.pmul [Fact (Nat.Prime Config.p)] [DecidableEq Fp] {P : PointReg} {A : curve.Point}
    (h : Denotes P A) (k : Nat) : Denotes (pmulPoint k P) (k • A) := by
  induction k with
  | zero => rw [zero_nsmul]; exact denotes_infinity
  | succ k ih => rw [add_smul, one_smul]; exact ih.padd h

/-- One iteration of the ladder (R162) on the multiples by `m` and `m + 1`: those by `2m + bit` and `2m + bit + 1`. -/
theorem ladderStep_denotes {A : curve.Point} [Fact (Nat.Prime Config.p)] [DecidableEq Fp] (bit : Bool) (m : Nat)
    {S : PointReg × PointReg} (h1 : Denotes S.1 (m • A)) (h2 : Denotes S.2 ((m + 1) • A)) :
    Denotes (ladderStep bit S).1 ((2 * m + bit.toNat) • A) ∧
      Denotes (ladderStep bit S).2 ((2 * m + bit.toNat + 1) • A) := by
  cases bit
  · refine ⟨?_, ?_⟩
    · have := h1.padd h1; rw [← add_smul] at this
      simpa [ladderStep, cswap, two_mul] using this
    · have := h1.padd h2; rw [← add_smul] at this
      simpa [ladderStep, cswap, two_mul, add_assoc] using this
  · refine ⟨?_, ?_⟩
    · have := h2.padd h1; rw [← add_smul] at this
      simpa [ladderStep, cswap, two_mul, add_assoc, add_comm, add_left_comm] using this
    · have := h2.padd h2; rw [← add_smul] at this
      simpa [ladderStep, cswap, two_mul, add_assoc, add_comm, add_left_comm] using this

/-- The last `i` iterations of the ladder (R162), from a pair that denotes the multiples by `m` and `m + 1`: its pair
denotes the multiples by `m` followed by the last `i` bits of `k`, and by one more. -/
theorem ladderFrom_denotes [Fact (Nat.Prime Config.p)] [DecidableEq Fp] {A : curve.Point} (k i m : Nat)
    (S : PointReg × PointReg)
    (h1 : Denotes S.1 (m • A)) (h2 : Denotes S.2 ((m + 1) • A)) :
    Denotes (ladderFrom k i S).1 ((m * 2 ^ i + k % 2 ^ i) • A) ∧
      Denotes (ladderFrom k i S).2 ((m * 2 ^ i + k % 2 ^ i + 1) • A) := by
  induction i generalizing m S with
  | zero => simpa [ladderFrom, Nat.mod_one] using ⟨h1, h2⟩
  | succ i ih =>
    rw [ladderFrom]
    obtain ⟨s1, s2⟩ := ladderStep_denotes (k.testBit i) m h1 h2
    have hm : m * 2 ^ (i + 1) + k % 2 ^ (i + 1) = (2 * m + (k.testBit i).toNat) * 2 ^ i + k % 2 ^ i := by
      rw [Nat.mod_pow_succ, Nat.testBit_eq_decide_div_mod_eq, pow_succ]
      have : (decide (k / 2 ^ i % 2 = 1)).toNat = k / 2 ^ i % 2 := by
        rcases Nat.mod_two_eq_zero_or_one (k / 2 ^ i) with h | h <;> simp [h]
      rw [this]; ring
    rw [hm]
    exact ih _ _ s1 s2

/-- The ladder's iterations in two parts: the top `i` bits first, then the low `j`. -/
theorem ladderFrom_split (k i j : Nat) (S : PointReg × PointReg) :
    ladderFrom k (i + j) S = ladderFrom k j (ladderFrom (k / 2 ^ j) i S) := by
  induction i generalizing S with
  | zero => rw [Nat.zero_add]; rfl
  | succ i ih =>
    rw [Nat.succ_add, ladderFrom, ladderFrom, ih, Nat.testBit_div_two_pow, Nat.add_comm i j, Nat.add_comm j i]

end Sys2Proof.Machine
end

