-- ==== Sys2Proof/Laws/Decode.lean ====
section
/-! SUPPORT. The field layout is exact in both directions (R70). -/

namespace Sys2Proof

/-- Taking the fields of a word laid out from fields gives them back. -/
@[simp] theorem fieldsOf_wordOf (f : Fields) : fieldsOf (wordOf f) = f := by
  obtain ⟨op, d, a, b, imm⟩ := f
  simp only [fieldsOf, wordOf, Fields.mk.injEq]
  refine ⟨?_, ?_, ?_, ?_, ?_⟩ <;> (ext i hi; simp; try grind)

/-- Laying out the fields of a word gives the word back. -/
@[simp] theorem wordOf_fieldsOf (w : Cmd) : wordOf (fieldsOf w) = w := by
  apply BitVec.eq_of_getLsbD_eq
  intro i hi
  simp only [fieldsOf, wordOf, BitVec.getLsbD_append, BitVec.getLsbD_extractLsb']
  grind

theorem wordOf_inj {f g : Fields} : wordOf f = wordOf g ↔ f = g :=
  ⟨fun h => by simpa using congrArg fieldsOf h, fun h => by rw [h]⟩

/-- Masking a word masks each field. -/
theorem wordOf_and (f g : Fields) :
    wordOf f &&& wordOf g = wordOf ⟨f.op &&& g.op, f.d &&& g.d, f.a &&& g.a, f.b &&& g.b, f.imm &&& g.imm⟩ := by
  apply BitVec.eq_of_getLsbD_eq
  intro i hi
  simp only [wordOf, BitVec.getLsbD_append, BitVec.getLsbD_and]
  grind

/-- A word matches a row exactly when each field does. -/
theorem OpRow.fits_iff (r : OpRow) (f : Fields) : r.fits (wordOf f) = true ↔
    f.op &&& (fieldsOf r.mask).op = (fieldsOf r.code).op ∧ f.d &&& (fieldsOf r.mask).d = (fieldsOf r.code).d ∧
      f.a &&& (fieldsOf r.mask).a = (fieldsOf r.code).a ∧ f.b &&& (fieldsOf r.mask).b = (fieldsOf r.code).b ∧
      f.imm &&& (fieldsOf r.mask).imm = (fieldsOf r.code).imm := by
  rw [OpRow.fits, beq_iff_eq, ← wordOf_fieldsOf r.mask, ← wordOf_fieldsOf r.code, wordOf_and, wordOf_inj]
  simp only [fieldsOf_wordOf, Fields.ext_iff]

/-- The masks of the fields: the whole opcode, a field that must be zero, a point field. -/
theorem op_mask (x : BitVec 8) : x &&& 0xFF#8 = x := BitVec.and_allOnes
theorem reg_mask (x : BitVec 4) : x &&& 0xF#4 = x := BitVec.and_allOnes
theorem imm_mask (x : BitVec 12) : x &&& 0xFFF#12 = x := BitVec.and_allOnes
theorem point_mask (x : PReg) : x &&& 8#4 = 0#4 ↔ isPoint x = true := by revert x; decide

theorem need_eq_ok {ok : Bool} {r : Reject} {k : Except Reject Instr} {i : Instr} :
    need ok r k = .ok i ↔ ok = true ∧ k = .ok i := by
  cases ok <;> simp [need]

/-! ## What a form accepts: the fields it does not use are zero, those it does are legal, and the command holds them -/

variable {f : Fields} {i : Instr}

theorem formN_eq_ok {c : Instr} : formN c f = .ok i ↔ (f.d = 0 ∧ f.a = 0 ∧ f.b = 0 ∧ f.imm = 0) ∧ c = i := by
  simp [formN, need_eq_ok, and_assoc]

theorem formEE_eq_ok {c : EReg → EReg → Instr} : formEE c f = .ok i ↔ (f.b = 0 ∧ f.imm = 0) ∧ c f.d f.a = i := by
  simp [formEE, need_eq_ok, and_assoc]

theorem formEEE_eq_ok {c : EReg → EReg → EReg → Instr} : formEEE c f = .ok i ↔ (f.imm = 0) ∧ c f.d f.a f.b = i := by
  simp [formEEE, need_eq_ok]

theorem formA_eq_ok {c : EReg → Instr} : formA c f = .ok i ↔ (f.d = 0 ∧ f.b = 0 ∧ f.imm = 0) ∧ c f.a = i := by
  simp [formA, need_eq_ok, and_assoc]

theorem formLD_eq_ok {c : EReg → Imm → Instr} : formLD c f = .ok i ↔ (f.a = 0 ∧ f.b = 0) ∧ c f.d f.imm = i := by
  simp [formLD, need_eq_ok, and_assoc]

theorem formST_eq_ok {c : Imm → EReg → Instr} : formST c f = .ok i ↔ (f.d = 0 ∧ f.b = 0) ∧ c f.imm f.a = i := by
  simp [formST, need_eq_ok, and_assoc]

theorem formLDC_eq_ok {c : EReg → Imm → Instr} : formLDC c f = .ok i ↔ (f.a = 0 ∧ f.b = 0 ∧ isConst f.imm = true) ∧ c f.d f.imm = i := by
  simp [formLDC, need_eq_ok, and_assoc]

theorem formPEE_eq_ok {c : PReg → EReg → EReg → Instr} : formPEE c f = .ok i ↔ (f.imm = 0 ∧ isPoint f.d = true) ∧ c f.d f.a f.b = i := by
  simp [formPEE, need_eq_ok, and_assoc]

theorem formPD_eq_ok {c : PReg → Instr} : formPD c f = .ok i ↔ (f.a = 0 ∧ f.b = 0 ∧ f.imm = 0 ∧ isPoint f.d = true) ∧ c f.d = i := by
  simp [formPD, need_eq_ok, and_assoc]

theorem formPP_eq_ok {c : PReg → PReg → Instr} : formPP c f = .ok i ↔ (f.b = 0 ∧ f.imm = 0 ∧ isPoint f.d = true ∧ isPoint f.a = true) ∧ c f.d f.a = i := by
  simp [formPP, need_eq_ok, and_assoc]

theorem formEP_eq_ok {c : EReg → PReg → Instr} : formEP c f = .ok i ↔ (f.b = 0 ∧ f.imm = 0 ∧ isPoint f.a = true) ∧ c f.d f.a = i := by
  simp [formEP, need_eq_ok, and_assoc]

theorem formPA_eq_ok {c : PReg → Instr} : formPA c f = .ok i ↔ (f.d = 0 ∧ f.b = 0 ∧ f.imm = 0 ∧ isPoint f.a = true) ∧ c f.a = i := by
  simp [formPA, need_eq_ok, and_assoc]

theorem formPPP_eq_ok {c : PReg → PReg → PReg → Instr} : formPPP c f = .ok i ↔ (f.imm = 0 ∧ isPoint f.d = true ∧ isPoint f.a = true ∧ isPoint f.b = true) ∧ c f.d f.a f.b = i := by
  simp [formPPP, need_eq_ok, and_assoc]

theorem formPEP_eq_ok {c : PReg → EReg → PReg → Instr} : formPEP c f = .ok i ↔ (f.imm = 0 ∧ isPoint f.d = true ∧ isPoint f.b = true) ∧ c f.d f.a f.b = i := by
  simp [formPEP, need_eq_ok, and_assoc]

theorem formEPP_eq_ok {c : EReg → PReg → PReg → Instr} : formEPP c f = .ok i ↔ (f.imm = 0 ∧ isPoint f.a = true ∧ isPoint f.b = true) ∧ c f.d f.a f.b = i := by
  simp [formEPP, need_eq_ok, and_assoc]

end Sys2Proof
end

