-- ==== Sys2Proof/Laws/Memory.lean ====
section
/-! SUPPORT. The laws of a memory: read after write, and every operation keeps the canonical form. -/

namespace Sys2Proof.Machine

variable {w : Nat}

@[simp] theorem Memory.get?_nil (a : Nat) : Memory.get? ([] : List (Nat × BitVec w)) a = none := rfl

/-- A read after a write: the written cell at its address, the old answer elsewhere. -/
theorem Memory.get?_set (m : List (Nat × BitVec w)) (a k : Nat) (c : BitVec w) :
    Memory.get? (Memory.set m a c) k = if k = a then some c else Memory.get? m k := by
  induction m with
  | nil => simp [Memory.set, Memory.get?]
  | cons h m ih =>
    obtain ⟨k', v⟩ := h
    simp only [Memory.set]
    split_ifs <;> simp_all [Memory.get?]

theorem Memory.get?_set_same (m : List (Nat × BitVec w)) (a : Nat) (c : BitVec w) :
    Memory.get? (Memory.set m a c) a = some c := by simp [Memory.get?_set]

theorem Memory.get?_set_other (m : List (Nat × BitVec w)) {a k : Nat} (c : BitVec w) (h : k ≠ a) :
    Memory.get? (Memory.set m a c) k = Memory.get? m k := by simp [Memory.get?_set, h]

theorem Memory.mem_set {m : List (Nat × BitVec w)} {a : Nat} {c : BitVec w} {x : Nat × BitVec w}
    (h : x ∈ Memory.set m a c) : x = (a, c) ∨ x ∈ m := by
  induction m with
  | nil => simpa [Memory.set] using h
  | cons y m ih =>
    simp only [Memory.set] at h
    split_ifs at h <;> simp_all <;> grind

theorem Memory.set_rising {m : List (Nat × BitVec w)} (a : Nat) (c : BitVec w)
    (h : m.Pairwise (fun c c' => c.1 < c'.1)) : (Memory.set m a c).Pairwise (fun c c' => c.1 < c'.1) := by
  induction m with
  | nil => simp [Memory.set]
  | cons y m ih =>
    obtain ⟨hy, hm⟩ := List.pairwise_cons.1 h
    simp only [Memory.set]
    split_ifs with h1 h2
    · refine List.pairwise_cons.2 ⟨?_, h⟩
      intro x hx
      rcases List.mem_cons.1 hx with rfl | hx
      · exact h1
      · exact h1.trans (hy x hx)
    · subst h2; exact List.pairwise_cons.2 ⟨hy, hm⟩
    · refine List.pairwise_cons.2 ⟨?_, ih hm⟩
      intro x hx
      rcases Memory.mem_set hx with rfl | hx
      · exact lt_of_le_of_ne (not_lt.1 h1) (Ne.symm h2)
      · exact hy x hx

/-- Storing inside the memory keeps the canonical form. -/
theorem Memory.wf_set {size : Nat} {m : List (Nat × BitVec w)} {a : Nat} (c : BitVec w)
    (h : Memory.wf size m) (ha : a < size) : Memory.wf size (Memory.set m a c) := by
  refine ⟨Memory.set_rising a c h.1, fun x hx => ?_⟩
  rcases Memory.mem_set hx with rfl | hx
  · exact ha
  · exact h.2 x hx

theorem Memory.fillFrom_eq_map (c : BitVec w) (a n : Nat) :
    Memory.fillFrom c a n = (List.range' a n).map fun k => (k, c) := by
  induction n generalizing a with
  | zero => rfl
  | succ n ih => simp [Memory.fillFrom, ih, List.range'_succ]

/-- The filled memory is in canonical form. -/
theorem Memory.wf_fill (size : Nat) (c : BitVec w) : Memory.wf size (Memory.fill size c) := by
  refine ⟨?_, ?_⟩
  · simp only [Memory.fill, Memory.fillFrom_eq_map, List.pairwise_map]
    exact List.pairwise_lt_range'
  · simp [Memory.fill, Memory.fillFrom_eq_map]

theorem Memory.get?_map_pair (l : List Nat) (c : BitVec w) (a : Nat) :
    Memory.get? (l.map fun k => (k, c)) a = if a ∈ l then some c else none := by
  induction l with
  | nil => rfl
  | cons k l ih => simp only [List.map_cons, Memory.get?, ih, List.mem_cons]; grind

/-- The filled memory holds the cell at every address inside, and lists nothing outside. -/
theorem Memory.get?_fill (size : Nat) (c : BitVec w) (a : Nat) :
    Memory.get? (Memory.fill size c) a = if a < size then some c else none := by
  simp [Memory.fill, Memory.fillFrom_eq_map, Memory.get?_map_pair]

/-- Memories in canonical form that answer the same at every address are the same list. -/
theorem Memory.ext {m m' : List (Nat × BitVec w)} {size : Nat} (h : Memory.wf size m) (h' : Memory.wf size m')
    (hg : ∀ a, Memory.get? m a = Memory.get? m' a) : m = m' := by
  have none_of : ∀ (l : List (Nat × BitVec w)) (k : Nat), (∀ x ∈ l, k < x.1) → Memory.get? l k = none := by
    intro l k hl
    induction l with
    | nil => rfl
    | cons y l ih =>
      have := hl y (by simp)
      simp only [Memory.get?]
      rw [if_neg (by omega)]
      exact ih fun x hx => hl x (by simp [hx])
  suffices ∀ m m' : List (Nat × BitVec w), m.Pairwise (fun c c' => c.1 < c'.1) →
      m'.Pairwise (fun c c' => c.1 < c'.1) → (∀ a, Memory.get? m a = Memory.get? m' a) → m = m' from
    this m m' h.1 h'.1 hg
  intro m
  induction m with
  | nil =>
    intro m' _ _ hg
    cases m' with
    | nil => rfl
    | cons y m' => have := hg y.1; simp [Memory.get?] at this
  | cons x m ih =>
    intro m' hm hm' hg
    obtain ⟨hx, hm⟩ := List.pairwise_cons.1 hm
    cases m' with
    | nil => have := hg x.1; simp [Memory.get?] at this
    | cons y m' =>
      obtain ⟨hy, hm'⟩ := List.pairwise_cons.1 hm'
      have key : x.1 = y.1 := by
        rcases lt_trichotomy x.1 y.1 with hlt | heq | hlt
        · have h1 := hg x.1
          rw [none_of (y :: m') x.1 (by
            intro z hz
            rcases List.mem_cons.1 hz with rfl | hz
            · exact hlt
            · exact hlt.trans (hy z hz))] at h1
          simp [Memory.get?] at h1
        · exact heq
        · have h1 := hg y.1
          rw [none_of (x :: m) y.1 (by
            intro z hz
            rcases List.mem_cons.1 hz with rfl | hz
            · exact hlt
            · exact hlt.trans (hx z hz))] at h1
          simp [Memory.get?] at h1
      have hval : x.2 = y.2 := by
        have h1 := hg x.1
        simpa [Memory.get?, key] using h1
      have hxy : x = y := Prod.ext key hval
      have htail : m = m' := by
        refine ih m' hm hm' fun a => ?_
        have h1 := hg a
        simp only [Memory.get?] at h1
        by_cases ha : a = x.1
        · rw [ha, none_of m x.1 hx, none_of m' x.1 (hxy ▸ hy)]
        · simpa [ha, ← hxy] using h1
      rw [hxy, htail]

end Sys2Proof.Machine
end

