-- ==== Sys2Proof/Laws/State.lean ====
section
/-! SUPPORT. One lemma per field per update of the state, true by unfolding, so that no proof opens a record update. -/

namespace Sys2Proof.Machine

variable (s : State)

/-! ### `setElem` -/

@[simp] theorem State.setElem_elems (i : EReg) (v : Word) : (s.setElem i v).elems = s.elems.set i.toNat v i.isLt := rfl
@[simp] theorem State.setElem_points (i : EReg) (v : Word) : (s.setElem i v).points = s.points := rfl
@[simp] theorem State.setElem_pc (i : EReg) (v : Word) : (s.setElem i v).pc = s.pc := rfl
@[simp] theorem State.setElem_run (i : EReg) (v : Word) : (s.setElem i v).run = s.run := rfl
@[simp] theorem State.setElem_err (i : EReg) (v : Word) : (s.setElem i v).err = s.err := rfl
@[simp] theorem State.setElem_epc (i : EReg) (v : Word) : (s.setElem i v).epc = s.epc := rfl
@[simp] theorem State.setElem_startPc (i : EReg) (v : Word) : (s.setElem i v).startPc = s.startPc := rfl
@[simp] theorem State.setElem_intrEn (i : EReg) (v : Word) : (s.setElem i v).intrEn = s.intrEn := rfl
@[simp] theorem State.setElem_intrState (i : EReg) (v : Word) : (s.setElem i v).intrState = s.intrState := rfl
@[simp] theorem State.setElem_imem (i : EReg) (v : Word) : (s.setElem i v).imem = s.imem := rfl
@[simp] theorem State.setElem_dmem (i : EReg) (v : Word) : (s.setElem i v).dmem = s.dmem := rfl
@[simp] theorem State.setElem_epoch (i : EReg) (v : Word) : (s.setElem i v).epoch = s.epoch := rfl
@[simp] theorem State.setElem_agenda (i : EReg) (v : Word) : (s.setElem i v).agenda = s.agenda := rfl
@[simp] theorem State.setElem_rdata (i : EReg) (v : Word) : (s.setElem i v).rdata = s.rdata := rfl

/-! ### `setPoint` -/

@[simp] theorem State.setPoint_elems (i : PReg) (v : PointReg) : (s.setPoint i v).elems = s.elems := rfl
@[simp] theorem State.setPoint_points (i : PReg) (v : PointReg) : (s.setPoint i v).points = s.points.setIfInBounds i.toNat v := rfl
@[simp] theorem State.setPoint_pc (i : PReg) (v : PointReg) : (s.setPoint i v).pc = s.pc := rfl
@[simp] theorem State.setPoint_run (i : PReg) (v : PointReg) : (s.setPoint i v).run = s.run := rfl
@[simp] theorem State.setPoint_err (i : PReg) (v : PointReg) : (s.setPoint i v).err = s.err := rfl
@[simp] theorem State.setPoint_epc (i : PReg) (v : PointReg) : (s.setPoint i v).epc = s.epc := rfl
@[simp] theorem State.setPoint_startPc (i : PReg) (v : PointReg) : (s.setPoint i v).startPc = s.startPc := rfl
@[simp] theorem State.setPoint_intrEn (i : PReg) (v : PointReg) : (s.setPoint i v).intrEn = s.intrEn := rfl
@[simp] theorem State.setPoint_intrState (i : PReg) (v : PointReg) : (s.setPoint i v).intrState = s.intrState := rfl
@[simp] theorem State.setPoint_imem (i : PReg) (v : PointReg) : (s.setPoint i v).imem = s.imem := rfl
@[simp] theorem State.setPoint_dmem (i : PReg) (v : PointReg) : (s.setPoint i v).dmem = s.dmem := rfl
@[simp] theorem State.setPoint_epoch (i : PReg) (v : PointReg) : (s.setPoint i v).epoch = s.epoch := rfl
@[simp] theorem State.setPoint_agenda (i : PReg) (v : PointReg) : (s.setPoint i v).agenda = s.agenda := rfl
@[simp] theorem State.setPoint_rdata (i : PReg) (v : PointReg) : (s.setPoint i v).rdata = s.rdata := rfl

/-! ### `wipeRegs` -/

@[simp] theorem State.wipeRegs_elems : (s.wipeRegs).elems = Vector.replicate 16 0 := rfl
@[simp] theorem State.wipeRegs_points : (s.wipeRegs).points = Vector.replicate 8 PointReg.zero := rfl
@[simp] theorem State.wipeRegs_pc : (s.wipeRegs).pc = s.pc := rfl
@[simp] theorem State.wipeRegs_run : (s.wipeRegs).run = s.run := rfl
@[simp] theorem State.wipeRegs_err : (s.wipeRegs).err = s.err := rfl
@[simp] theorem State.wipeRegs_epc : (s.wipeRegs).epc = s.epc := rfl
@[simp] theorem State.wipeRegs_startPc : (s.wipeRegs).startPc = s.startPc := rfl
@[simp] theorem State.wipeRegs_intrEn : (s.wipeRegs).intrEn = s.intrEn := rfl
@[simp] theorem State.wipeRegs_intrState : (s.wipeRegs).intrState = s.intrState := rfl
@[simp] theorem State.wipeRegs_imem : (s.wipeRegs).imem = s.imem := rfl
@[simp] theorem State.wipeRegs_dmem : (s.wipeRegs).dmem = s.dmem := rfl
@[simp] theorem State.wipeRegs_epoch : (s.wipeRegs).epoch = s.epoch := rfl
@[simp] theorem State.wipeRegs_agenda : (s.wipeRegs).agenda = s.agenda := rfl
@[simp] theorem State.wipeRegs_rdata : (s.wipeRegs).rdata = s.rdata := rfl

/-! ### `setImem` -/

@[simp] theorem State.setImem_elems (k : Nat) (w : Cmd) : (s.setImem k w).elems = s.elems := rfl
@[simp] theorem State.setImem_points (k : Nat) (w : Cmd) : (s.setImem k w).points = s.points := rfl
@[simp] theorem State.setImem_pc (k : Nat) (w : Cmd) : (s.setImem k w).pc = s.pc := rfl
@[simp] theorem State.setImem_run (k : Nat) (w : Cmd) : (s.setImem k w).run = s.run := rfl
@[simp] theorem State.setImem_err (k : Nat) (w : Cmd) : (s.setImem k w).err = s.err := rfl
@[simp] theorem State.setImem_epc (k : Nat) (w : Cmd) : (s.setImem k w).epc = s.epc := rfl
@[simp] theorem State.setImem_startPc (k : Nat) (w : Cmd) : (s.setImem k w).startPc = s.startPc := rfl
@[simp] theorem State.setImem_intrEn (k : Nat) (w : Cmd) : (s.setImem k w).intrEn = s.intrEn := rfl
@[simp] theorem State.setImem_intrState (k : Nat) (w : Cmd) : (s.setImem k w).intrState = s.intrState := rfl
@[simp] theorem State.setImem_imem (k : Nat) (w : Cmd) : (s.setImem k w).imem = Memory.set s.imem k w := rfl
@[simp] theorem State.setImem_dmem (k : Nat) (w : Cmd) : (s.setImem k w).dmem = s.dmem := rfl
@[simp] theorem State.setImem_epoch (k : Nat) (w : Cmd) : (s.setImem k w).epoch = s.epoch := rfl
@[simp] theorem State.setImem_agenda (k : Nat) (w : Cmd) : (s.setImem k w).agenda = s.agenda := rfl
@[simp] theorem State.setImem_rdata (k : Nat) (w : Cmd) : (s.setImem k w).rdata = s.rdata := rfl

/-! ### `memWrite` -/

@[simp] theorem State.memWrite_elems (a n v : Nat) : (s.memWrite a n v).elems = s.elems := rfl
@[simp] theorem State.memWrite_points (a n v : Nat) : (s.memWrite a n v).points = s.points := rfl
@[simp] theorem State.memWrite_pc (a n v : Nat) : (s.memWrite a n v).pc = s.pc := rfl
@[simp] theorem State.memWrite_run (a n v : Nat) : (s.memWrite a n v).run = s.run := rfl
@[simp] theorem State.memWrite_err (a n v : Nat) : (s.memWrite a n v).err = s.err := rfl
@[simp] theorem State.memWrite_epc (a n v : Nat) : (s.memWrite a n v).epc = s.epc := rfl
@[simp] theorem State.memWrite_startPc (a n v : Nat) : (s.memWrite a n v).startPc = s.startPc := rfl
@[simp] theorem State.memWrite_intrEn (a n v : Nat) : (s.memWrite a n v).intrEn = s.intrEn := rfl
@[simp] theorem State.memWrite_intrState (a n v : Nat) : (s.memWrite a n v).intrState = s.intrState := rfl
@[simp] theorem State.memWrite_imem (a n v : Nat) : (s.memWrite a n v).imem = s.imem := rfl
@[simp] theorem State.memWrite_dmem (a n v : Nat) : (s.memWrite a n v).dmem = putBe s.dmem a n v := rfl
@[simp] theorem State.memWrite_epoch (a n v : Nat) : (s.memWrite a n v).epoch = s.epoch := rfl
@[simp] theorem State.memWrite_agenda (a n v : Nat) : (s.memWrite a n v).agenda = s.agenda := rfl
@[simp] theorem State.memWrite_rdata (a n v : Nat) : (s.memWrite a n v).rdata = s.rdata := rfl

/-! ### `zeroDmem` -/

@[simp] theorem State.zeroDmem_elems : (s.zeroDmem).elems = s.elems := rfl
@[simp] theorem State.zeroDmem_points : (s.zeroDmem).points = s.points := rfl
@[simp] theorem State.zeroDmem_pc : (s.zeroDmem).pc = s.pc := rfl
@[simp] theorem State.zeroDmem_run : (s.zeroDmem).run = s.run := rfl
@[simp] theorem State.zeroDmem_err : (s.zeroDmem).err = s.err := rfl
@[simp] theorem State.zeroDmem_epc : (s.zeroDmem).epc = s.epc := rfl
@[simp] theorem State.zeroDmem_startPc : (s.zeroDmem).startPc = s.startPc := rfl
@[simp] theorem State.zeroDmem_intrEn : (s.zeroDmem).intrEn = s.intrEn := rfl
@[simp] theorem State.zeroDmem_intrState : (s.zeroDmem).intrState = s.intrState := rfl
@[simp] theorem State.zeroDmem_imem : (s.zeroDmem).imem = s.imem := rfl
@[simp] theorem State.zeroDmem_dmem : (s.zeroDmem).dmem = Memory.fill Config.dmemBytes 0 := rfl
@[simp] theorem State.zeroDmem_epoch : (s.zeroDmem).epoch = s.epoch := rfl
@[simp] theorem State.zeroDmem_agenda : (s.zeroDmem).agenda = s.agenda := rfl
@[simp] theorem State.zeroDmem_rdata : (s.zeroDmem).rdata = s.rdata := rfl

/-! ### `raise` -/

@[simp] theorem State.raise_elems (c : Cause) : (s.raise c).elems = s.elems := rfl
@[simp] theorem State.raise_points (c : Cause) : (s.raise c).points = s.points := rfl
@[simp] theorem State.raise_pc (c : Cause) : (s.raise c).pc = s.pc := rfl
@[simp] theorem State.raise_run (c : Cause) : (s.raise c).run = .fault := rfl
@[simp] theorem State.raise_err (c : Cause) : (s.raise c).err = c.code := rfl
@[simp] theorem State.raise_epc (c : Cause) : (s.raise c).epc = s.pc := rfl
@[simp] theorem State.raise_startPc (c : Cause) : (s.raise c).startPc = s.startPc := rfl
@[simp] theorem State.raise_intrEn (c : Cause) : (s.raise c).intrEn = s.intrEn := rfl
@[simp] theorem State.raise_intrState (c : Cause) : (s.raise c).intrState = s.intrState ||| 2#2 := rfl
@[simp] theorem State.raise_imem (c : Cause) : (s.raise c).imem = s.imem := rfl
@[simp] theorem State.raise_dmem (c : Cause) : (s.raise c).dmem = s.dmem := rfl
@[simp] theorem State.raise_epoch (c : Cause) : (s.raise c).epoch = s.epoch := rfl
@[simp] theorem State.raise_agenda (c : Cause) : (s.raise c).agenda = s.agenda := rfl
@[simp] theorem State.raise_rdata (c : Cause) : (s.raise c).rdata = s.rdata := rfl

/-! ### `clear` -/

@[simp] theorem State.clear_elems : (s.clear).elems = s.elems := rfl
@[simp] theorem State.clear_points : (s.clear).points = s.points := rfl
@[simp] theorem State.clear_pc : (s.clear).pc = s.pc := rfl
@[simp] theorem State.clear_run : (s.clear).run = .idle := rfl
@[simp] theorem State.clear_err : (s.clear).err = 0 := rfl
@[simp] theorem State.clear_epc : (s.clear).epc = 0 := rfl
@[simp] theorem State.clear_startPc : (s.clear).startPc = s.startPc := rfl
@[simp] theorem State.clear_intrEn : (s.clear).intrEn = s.intrEn := rfl
@[simp] theorem State.clear_intrState : (s.clear).intrState = s.intrState := rfl
@[simp] theorem State.clear_imem : (s.clear).imem = s.imem := rfl
@[simp] theorem State.clear_dmem : (s.clear).dmem = s.dmem := rfl
@[simp] theorem State.clear_epoch : (s.clear).epoch = s.epoch := rfl
@[simp] theorem State.clear_agenda : (s.clear).agenda = s.agenda := rfl
@[simp] theorem State.clear_rdata : (s.clear).rdata = s.rdata := rfl

/-! ### `finish` -/

@[simp] theorem State.finish_elems : (s.finish).elems = s.elems := rfl
@[simp] theorem State.finish_points : (s.finish).points = s.points := rfl
@[simp] theorem State.finish_pc : (s.finish).pc = s.pc := rfl
@[simp] theorem State.finish_run : (s.finish).run = .done := rfl
@[simp] theorem State.finish_err : (s.finish).err = s.err := rfl
@[simp] theorem State.finish_epc : (s.finish).epc = s.epc := rfl
@[simp] theorem State.finish_startPc : (s.finish).startPc = s.startPc := rfl
@[simp] theorem State.finish_intrEn : (s.finish).intrEn = s.intrEn := rfl
@[simp] theorem State.finish_intrState : (s.finish).intrState = s.intrState ||| 1#2 := rfl
@[simp] theorem State.finish_imem : (s.finish).imem = s.imem := rfl
@[simp] theorem State.finish_dmem : (s.finish).dmem = s.dmem := rfl
@[simp] theorem State.finish_epoch : (s.finish).epoch = s.epoch := rfl
@[simp] theorem State.finish_agenda : (s.finish).agenda = s.agenda := rfl
@[simp] theorem State.finish_rdata : (s.finish).rdata = s.rdata := rfl

/-! ### `start` -/

@[simp] theorem State.start_elems : (s.start).elems = s.elems := rfl
@[simp] theorem State.start_points : (s.start).points = s.points := rfl
@[simp] theorem State.start_pc : (s.start).pc = s.startPc.setWidth 9 := rfl
@[simp] theorem State.start_run : (s.start).run = .busy := rfl
@[simp] theorem State.start_err : (s.start).err = s.err := rfl
@[simp] theorem State.start_epc : (s.start).epc = s.epc := rfl
@[simp] theorem State.start_startPc : (s.start).startPc = s.startPc := rfl
@[simp] theorem State.start_intrEn : (s.start).intrEn = s.intrEn := rfl
@[simp] theorem State.start_intrState : (s.start).intrState = s.intrState := rfl
@[simp] theorem State.start_imem : (s.start).imem = s.imem := rfl
@[simp] theorem State.start_dmem : (s.start).dmem = s.dmem := rfl
@[simp] theorem State.start_epoch : (s.start).epoch = s.epoch := rfl
@[simp] theorem State.start_agenda : (s.start).agenda = s.agenda := rfl
@[simp] theorem State.start_rdata : (s.start).rdata = s.rdata := rfl

/-! ### `advance` -/

@[simp] theorem State.advance_elems : (s.advance).elems = s.elems := rfl
@[simp] theorem State.advance_points : (s.advance).points = s.points := rfl
@[simp] theorem State.advance_pc : (s.advance).pc = s.pc + 1 := rfl
@[simp] theorem State.advance_run : (s.advance).run = s.run := rfl
@[simp] theorem State.advance_err : (s.advance).err = s.err := rfl
@[simp] theorem State.advance_epc : (s.advance).epc = s.epc := rfl
@[simp] theorem State.advance_startPc : (s.advance).startPc = s.startPc := rfl
@[simp] theorem State.advance_intrEn : (s.advance).intrEn = s.intrEn := rfl
@[simp] theorem State.advance_intrState : (s.advance).intrState = s.intrState := rfl
@[simp] theorem State.advance_imem : (s.advance).imem = s.imem := rfl
@[simp] theorem State.advance_dmem : (s.advance).dmem = s.dmem := rfl
@[simp] theorem State.advance_epoch : (s.advance).epoch = s.epoch := rfl
@[simp] theorem State.advance_agenda : (s.advance).agenda = s.agenda := rfl
@[simp] theorem State.advance_rdata : (s.advance).rdata = s.rdata := rfl

/-! ## Power-up -/

theorem State.reset_eq_powerUp : State.reset = State.powerUp 0 := rfl
@[simp] theorem State.powerUp_epoch (e : Nat) : (State.powerUp e).epoch = e := rfl

end Sys2Proof.Machine
end

