-- ==== Sys2Proof/Laws/Ops.lean ====
section
/-! SUPPORT. What each shared operation can do, said once: the readers over every update, the byte order of the slots,
and the frames of completing a command and of taking a fault. -/

namespace Sys2Proof.Machine

variable (s : State)

/-! ## The readers over the updates that do not touch what they read -/

@[simp] theorem State.point_setElem (i : EReg) (v : Word) (r : PReg) : (s.setElem i v).point r = s.point r := rfl
@[simp] theorem State.imemWord_setElem (i : EReg) (v : Word) (r : Nat) : (s.setElem i v).imemWord r = s.imemWord r := rfl
@[simp] theorem State.dmemByte_setElem (i : EReg) (v : Word) (r : Nat) : (s.setElem i v).dmemByte r = s.dmemByte r := rfl
@[simp] theorem State.elem_setPoint (i : PReg) (v : PointReg) (r : EReg) : (s.setPoint i v).elem r = s.elem r := rfl
@[simp] theorem State.imemWord_setPoint (i : PReg) (v : PointReg) (r : Nat) : (s.setPoint i v).imemWord r = s.imemWord r := rfl
@[simp] theorem State.dmemByte_setPoint (i : PReg) (v : PointReg) (r : Nat) : (s.setPoint i v).dmemByte r = s.dmemByte r := rfl
@[simp] theorem State.imemWord_wipeRegs (r : Nat) : (s.wipeRegs).imemWord r = s.imemWord r := rfl
@[simp] theorem State.dmemByte_wipeRegs (r : Nat) : (s.wipeRegs).dmemByte r = s.dmemByte r := rfl
@[simp] theorem State.elem_setImem (k : Nat) (w : Cmd) (r : EReg) : (s.setImem k w).elem r = s.elem r := rfl
@[simp] theorem State.point_setImem (k : Nat) (w : Cmd) (r : PReg) : (s.setImem k w).point r = s.point r := rfl
@[simp] theorem State.dmemByte_setImem (k : Nat) (w : Cmd) (r : Nat) : (s.setImem k w).dmemByte r = s.dmemByte r := rfl
@[simp] theorem State.elem_memWrite (a n v : Nat) (r : EReg) : (s.memWrite a n v).elem r = s.elem r := rfl
@[simp] theorem State.point_memWrite (a n v : Nat) (r : PReg) : (s.memWrite a n v).point r = s.point r := rfl
@[simp] theorem State.imemWord_memWrite (a n v : Nat) (r : Nat) : (s.memWrite a n v).imemWord r = s.imemWord r := rfl
@[simp] theorem State.elem_zeroDmem (r : EReg) : (s.zeroDmem).elem r = s.elem r := rfl
@[simp] theorem State.point_zeroDmem (r : PReg) : (s.zeroDmem).point r = s.point r := rfl
@[simp] theorem State.imemWord_zeroDmem (r : Nat) : (s.zeroDmem).imemWord r = s.imemWord r := rfl
@[simp] theorem State.elem_raise (c : Cause) (r : EReg) : (s.raise c).elem r = s.elem r := rfl
@[simp] theorem State.point_raise (c : Cause) (r : PReg) : (s.raise c).point r = s.point r := rfl
@[simp] theorem State.imemWord_raise (c : Cause) (r : Nat) : (s.raise c).imemWord r = s.imemWord r := rfl
@[simp] theorem State.dmemByte_raise (c : Cause) (r : Nat) : (s.raise c).dmemByte r = s.dmemByte r := rfl
@[simp] theorem State.elem_clear (r : EReg) : (s.clear).elem r = s.elem r := rfl
@[simp] theorem State.point_clear (r : PReg) : (s.clear).point r = s.point r := rfl
@[simp] theorem State.imemWord_clear (r : Nat) : (s.clear).imemWord r = s.imemWord r := rfl
@[simp] theorem State.dmemByte_clear (r : Nat) : (s.clear).dmemByte r = s.dmemByte r := rfl
@[simp] theorem State.elem_finish (r : EReg) : (s.finish).elem r = s.elem r := rfl
@[simp] theorem State.point_finish (r : PReg) : (s.finish).point r = s.point r := rfl
@[simp] theorem State.imemWord_finish (r : Nat) : (s.finish).imemWord r = s.imemWord r := rfl
@[simp] theorem State.dmemByte_finish (r : Nat) : (s.finish).dmemByte r = s.dmemByte r := rfl
@[simp] theorem State.elem_start (r : EReg) : (s.start).elem r = s.elem r := rfl
@[simp] theorem State.point_start (r : PReg) : (s.start).point r = s.point r := rfl
@[simp] theorem State.imemWord_start (r : Nat) : (s.start).imemWord r = s.imemWord r := rfl
@[simp] theorem State.dmemByte_start (r : Nat) : (s.start).dmemByte r = s.dmemByte r := rfl
@[simp] theorem State.elem_advance (r : EReg) : (s.advance).elem r = s.elem r := rfl
@[simp] theorem State.point_advance (r : PReg) : (s.advance).point r = s.point r := rfl
@[simp] theorem State.imemWord_advance (r : Nat) : (s.advance).imemWord r = s.imemWord r := rfl
@[simp] theorem State.dmemByte_advance (r : Nat) : (s.advance).dmemByte r = s.dmemByte r := rfl

/-! ## The registers -/

theorem State.elem_setElem (i j : EReg) (v : Word) : (s.setElem i v).elem j = if j = i then v else s.elem j := by
  simp only [State.elem, State.setElem_elems, Vector.getElem_set, ← BitVec.toNat_inj, eq_comm]

@[simp] theorem State.elem_setElem_same (i : EReg) (v : Word) : (s.setElem i v).elem i = v := by
  simp [State.elem_setElem]

theorem State.elem_setElem_other {i j : EReg} (v : Word) (h : j ≠ i) : (s.setElem i v).elem j = s.elem j := by
  simp [State.elem_setElem, h]

theorem State.point_setPoint {i : PReg} (j : PReg) (v : PointReg) (hi : isPoint i = true) :
    (s.setPoint i v).point j = if j = i then v else s.point j := by
  have hi' : i.toNat < 8 := by simpa [isPoint] using hi
  simp only [State.point, State.setPoint_points, Vector.getElem?_setIfInBounds, ← BitVec.toNat_inj]
  by_cases h : i.toNat = j.toNat
  · simp [← h, hi']
  · simp [h, Ne.symm h]

theorem State.point_setPoint_same {i : PReg} (v : PointReg) (hi : isPoint i = true) :
    (s.setPoint i v).point i = v := by simp [State.point_setPoint s i v hi]

theorem State.point_setPoint_other {i j : PReg} (v : PointReg) (h : j ≠ i) :
    (s.setPoint i v).point j = s.point j := by
  have h' : i.toNat ≠ j.toNat := fun e => h (BitVec.toNat_inj.1 e.symm)
  simp [State.point, h']

@[simp] theorem State.elem_wipeRegs (i : EReg) : s.wipeRegs.elem i = 0 := by
  simp [State.elem]

@[simp] theorem State.point_wipeRegs (i : PReg) : s.wipeRegs.point i = PointReg.zero := by
  simp only [State.point, State.wipeRegs_points, Vector.getElem?_replicate]
  split <;> rfl

/-! ## IMEM and DMEM -/

theorem State.imemWord_setImem (k j : Nat) (w : Cmd) :
    (s.setImem k w).imemWord j = if j = k then w else s.imemWord j := by
  simp only [State.imemWord, State.setImem_imem, State.setImem_epoch, Memory.get?_set]
  split <;> rfl

theorem State.dmemByte_zeroDmem (a : Nat) (h : a < Config.dmemBytes) : s.zeroDmem.dmemByte a = 0 := by
  simp only [State.dmemByte, State.zeroDmem_dmem, Memory.get?_fill, if_pos h, Option.getD_some]

/-- The cells of a big-endian store: the bytes of the value inside, the old cells outside. -/
theorem get?_putBe (m : List Host.Cell) (addr n v a : Nat) :
    Memory.get? (putBe m addr n v) a =
      if addr ≤ a ∧ a < addr + n then some (BitVec.ofNat 8 (v / 256 ^ (n - 1 - (a - addr)))) else Memory.get? m a := by
  induction n generalizing v with
  | zero => simp only [putBe]; rw [if_neg (by omega)]
  | succ n ih =>
    rw [putBe, Memory.get?_set, ih]
    by_cases h : a = addr + n
    · subst h; simp
    · by_cases h1 : addr ≤ a ∧ a < addr + n
      · rw [if_neg h, if_pos h1, if_pos (by omega), Nat.div_div_eq_div_mul, ← Nat.pow_succ']
        congr 4
        omega
      · rw [if_neg h, if_neg h1, if_neg (by omega)]

theorem State.dmemByte_memWrite (addr n v a : Nat) :
    (s.memWrite addr n v).dmemByte a =
      if addr ≤ a ∧ a < addr + n then BitVec.ofNat 8 (v / 256 ^ (n - 1 - (a - addr))) else s.dmemByte a := by
  simp only [State.dmemByte, State.memWrite_dmem, State.memWrite_epoch, get?_putBe]
  split <;> rfl

/-- A big-endian store inside the memory keeps the canonical form. -/
theorem wf_putBe {size : Nat} {m : List Host.Cell} (addr n v : Nat) (h : Memory.wf size m) (hn : addr + n ≤ size) :
    Memory.wf size (putBe m addr n v) := by
  induction n generalizing v with
  | zero => exact h
  | succ n ih => exact Memory.wf_set _ (ih _ (by omega)) (by omega)

/-! Every operation on a memory keeps its canonical form, and the reset state's memories have it. -/

theorem State.wf_setImem {k : Nat} (w : Cmd) (h : Memory.wf Config.imemWords s.imem) (hk : k < Config.imemWords) :
    Memory.wf Config.imemWords (s.setImem k w).imem := by
  rw [State.setImem_imem]; exact Memory.wf_set w h hk

theorem State.wf_memWrite {addr n : Nat} (v : Nat) (h : Memory.wf Config.dmemBytes s.dmem)
    (hn : addr + n ≤ Config.dmemBytes) : Memory.wf Config.dmemBytes (s.memWrite addr n v).dmem := by
  rw [State.memWrite_dmem]; exact wf_putBe addr n v h hn

theorem State.wf_zeroDmem : Memory.wf Config.dmemBytes s.zeroDmem.dmem := by
  rw [State.zeroDmem_dmem]; exact Memory.wf_fill _ _

theorem State.wf_reset :
    Memory.wf Config.imemWords State.reset.imem ∧ Memory.wf Config.dmemBytes State.reset.dmem :=
  ⟨⟨.nil, nofun⟩, ⟨.nil, nofun⟩⟩

/-- The big-endian value is below `256 ^ n`. -/
theorem be_lt (f : Nat → Byte) (addr n : Nat) : be f addr n < 256 ^ n := by
  induction n with
  | zero => simp [be]
  | succ n ih =>
    have := (f (addr + n)).isLt
    rw [be, Nat.pow_succ]
    omega

/-- The big-endian value as the sum of R9 and R51. -/
theorem be_eq_sum (f : Nat → Byte) (addr n : Nat) :
    be f addr n = ∑ j ∈ Finset.range n, (f (addr + j)).toNat * 256 ^ (n - 1 - j) := by
  induction n with
  | zero => rfl
  | succ n ih =>
    rw [be, Finset.sum_range_succ, ih, Finset.sum_mul]
    congr 1
    · refine Finset.sum_congr rfl fun j hj => ?_
      have : j < n := Finset.mem_range.1 hj
      rw [mul_assoc, ← pow_succ]
      congr 2
      omega
    · simp

theorem be_congr {f g : Nat → Byte} {addr n : Nat} (h : ∀ j, j < n → f (addr + j) = g (addr + j)) :
    be f addr n = be g addr n := by
  induction n with
  | zero => rfl
  | succ n ih => rw [be, be, ih fun j hj => h j (by omega), h n (by omega)]

/-- Reading back the bytes of a value gives the value, if it fits. -/
theorem be_bytes (v addr n : Nat) :
    be (fun a => BitVec.ofNat 8 (v / 256 ^ (n - 1 - (a - addr)))) addr n = v % 256 ^ n := by
  induction n generalizing v with
  | zero => simp [be, Nat.mod_one]
  | succ n ih =>
    rw [be]
    have step : be (fun a => BitVec.ofNat 8 (v / 256 ^ (n + 1 - 1 - (a - addr)))) addr n =
        be (fun a => BitVec.ofNat 8 (v / 256 / 256 ^ (n - 1 - (a - addr)))) addr n := by
      refine be_congr fun j hj => ?_
      rw [Nat.div_div_eq_div_mul, ← Nat.pow_succ']
      congr 3
      omega
    rw [step, ih]
    have last : (BitVec.ofNat 8 (v / 256 ^ (n + 1 - 1 - (addr + n - addr)))).toNat = v % 256 := by simp
    rw [last, Nat.pow_succ, Nat.mul_comm (256 ^ n) 256, Nat.mod_mul]
    omega

/-- A read after a write of the same bytes. -/
theorem State.memRead_memWrite (addr n v : Nat) : (s.memWrite addr n v).memRead addr n = v % 256 ^ n := by
  rw [State.memRead, ← be_bytes v addr n]
  refine be_congr fun j hj => ?_
  rw [State.dmemByte_memWrite, if_pos (by omega)]

/-- A big-endian value from its two parts. -/
theorem be_append (f : Nat → Byte) (a m n : Nat) : be f a (m + n) = be f a m * 256 ^ n + be f (a + m) n := by
  induction n with
  | zero => simp [be]
  | succ n ih => rw [← Nat.add_assoc, be, ih, be, pow_succ, Nat.add_assoc a m n]; ring

/-- Byte `j` of a big-endian value is the byte read there. -/
theorem be_byte (f : Nat → Byte) (addr n j : Nat) (h : j < n) :
    be f addr n / 256 ^ (n - 1 - j) % 256 = (f (addr + j)).toNat := by
  induction n with
  | zero => omega
  | succ n ih =>
    have hl := (f (addr + n)).isLt
    rw [be]
    by_cases hj : j = n
    · subst hj
      rw [show j + 1 - 1 - j = 0 by omega, pow_zero, Nat.div_one]
      omega
    · rw [show n + 1 - 1 - j = (n - 1 - j) + 1 by omega, Nat.pow_succ', ← Nat.div_div_eq_div_mul,
        show (be f addr n * 256 + (f (addr + n)).toNat) / 256 = be f addr n by omega]
      exact ih (by omega)

@[simp] theorem State.memRead_advance (addr n : Nat) : s.advance.memRead addr n = s.memRead addr n := rfl

/-- A slot's value fits a register. -/
theorem State.memRead_lt (addr : Nat) : s.memRead addr 32 < 2 ^ 256 :=
  lt_of_lt_of_eq (be_lt s.dmemByte addr 32) (by norm_num)

/-- A store then a load of one slot. -/
theorem State.memRead_memWrite_word (addr : Nat) (v : Word) : (s.memWrite addr 32 v.toNat).memRead addr 32 = v.toNat := by
  rw [State.memRead_memWrite, Nat.mod_eq_of_lt]
  exact lt_of_lt_of_eq v.isLt (by norm_num)

/-- Storing a slot's own value changes no byte. -/
theorem State.dmemByte_memWrite_memRead (addr a : Nat) :
    (s.memWrite addr 32 (s.memRead addr 32)).dmemByte a = s.dmemByte a := by
  rw [State.dmemByte_memWrite]
  split
  · rename_i h
    apply BitVec.eq_of_toNat_eq
    have hb := be_byte s.dmemByte addr 32 (a - addr) (by omega)
    rw [show addr + (a - addr) = a by omega] at hb
    rw [BitVec.toNat_ofNat, State.memRead, ← hb]
  · rfl

/-! ## Completing a command -/

theorem complete_wroteNothing : ∃ t, complete s = .next t ∧ WroteNothing s t :=
  ⟨_, rfl, by simp, fun _ => by simp, fun _ => by simp, fun _ => by simp, fun _ => by simp, by constructor <;> simp,
    by constructor <;> simp⟩

theorem toElem_wroteElem (d : EReg) (v : Word) : ∃ t, toElem d v s = .next t ∧ WroteElem d v s t :=
  ⟨_, rfl, by simp, by simp, fun _ h => by simp [State.elem_setElem_other s v h], fun _ => by simp, fun _ => by simp,
    fun _ => by simp, by constructor <;> simp, by constructor <;> simp⟩

theorem toPoint_wrotePoint {d : PReg} (P : PointReg) (hd : isPoint d = true) :
    ∃ t, toPoint d P s = .next t ∧ WrotePoint d P s t :=
  ⟨_, rfl, by simp, by simp [State.point_setPoint_same s P hd], fun _ h => by simp [State.point_setPoint_other s P h],
    fun _ => by simp, fun _ => by simp, fun _ => by simp, by constructor <;> simp, by constructor <;> simp⟩

theorem memWrite_wroteSlot (addr : Nat) (v : Word) :
    ∃ t, complete (s.memWrite addr 32 v.toNat) = .next t ∧ WroteSlot addr v s t := by
  refine ⟨_, rfl, by simp, fun j hj => ?_, fun a ha => ?_, fun _ => by simp, fun _ => by simp, fun _ => by simp, ?_, ?_⟩
  · rw [State.dmemByte_advance, State.dmemByte_memWrite, if_pos (by omega)]
    simp
  · rw [State.dmemByte_advance, State.dmemByte_memWrite, if_neg (by omega)]
  · constructor <;> simp
  · constructor <;> simp

/-! ## Taking a fault -/

theorem raise_trapped (c : Cause) : Trapped c s (s.raise c) := by
  refine ⟨rfl, rfl, rfl, ?_, ?_, rfl, rfl, rfl, fun _ => rfl, fun _ => rfl, fun _ => rfl, fun _ => rfl, ⟨rfl, rfl, rfl⟩⟩
  · simp
  · simp

theorem trap_trapped (c : Cause) : ∃ t, trap c s = .next t ∧ Trapped c s t := ⟨_, rfl, raise_trapped s c⟩

/-! ## The operand forms -/

theorem legal_of {ok : Bool} (h : ok = true) (k : Result) : legal ok s k = k := by simp [legal, h]

theorem elemOperand_of {m : Nat} {r : EReg} (h : (s.elem r).toNat < m) (k : Nat → Result) :
    elemOperand m r s k = k (s.elem r).toNat := by simp [elemOperand, h]

theorem elemOperand_trap {m : Nat} {r : EReg} (h : m ≤ (s.elem r).toNat) (k : Nat → Result) :
    elemOperand m r s k = trap .outOfRange s := by simp [elemOperand, Nat.not_lt.2 h]

theorem pointOperand_of {r : PReg} (h : valid (s.point r) = true) (k : PointReg → Result) :
    pointOperand r s k = k (s.point r) := by simp [pointOperand, h]

theorem pointOperand_trap {r : PReg} (h : valid (s.point r) = false) (k : PointReg → Result) :
    pointOperand r s k = trap .invalidPoint s := by simp [pointOperand, h]

theorem slotOperand_of {slot : Imm} (h : slot.toNat < 128) (k : Nat → Result) :
    slotOperand slot s k = k (32 * slot.toNat) := by simp [slotOperand, h]

theorem slotOperand_trap {slot : Imm} (h : 128 ≤ slot.toNat) (k : Nat → Result) :
    slotOperand slot s k = trap .badAddress s := by simp [slotOperand, h]

/-- An operand form either goes on with its value or takes its fault. -/
theorem elemOperand_cases (m : Nat) (r : EReg) (k : Nat → Result) :
    ((s.elem r).toNat < m ∧ elemOperand m r s k = k (s.elem r).toNat) ∨
      (m ≤ (s.elem r).toNat ∧ elemOperand m r s k = trap .outOfRange s) := by
  rcases Nat.lt_or_ge (s.elem r).toNat m with h | h
  · exact .inl ⟨h, elemOperand_of s h k⟩
  · exact .inr ⟨h, elemOperand_trap s h k⟩

theorem pointOperand_cases (r : PReg) (k : PointReg → Result) :
    (valid (s.point r) = true ∧ pointOperand r s k = k (s.point r)) ∨
      (valid (s.point r) = false ∧ pointOperand r s k = trap .invalidPoint s) := by
  cases h : valid (s.point r)
  · exact .inr ⟨rfl, pointOperand_trap s h k⟩
  · exact .inl ⟨rfl, pointOperand_of s h k⟩

theorem slotOperand_cases (slot : Imm) (k : Nat → Result) :
    (slot.toNat < 128 ∧ slotOperand slot s k = k (32 * slot.toNat)) ∨
      (128 ≤ slot.toNat ∧ slotOperand slot s k = trap .badAddress s) := by
  rcases Nat.lt_or_ge slot.toNat 128 with h | h
  · exact .inl ⟨h, slotOperand_of s h k⟩
  · exact .inr ⟨h, slotOperand_trap s h k⟩

end Sys2Proof.Machine
end

