-- ==== Sys2Proof/Laws/Exec.lean ====
section
/-! SUPPORT. What executing a command can do, said once: it takes a fault, or it is `END`, or it completes with the one
write its row of R74 allows. -/

namespace Sys2Proof.Machine

/-! ## The canonical infinity (R25) -/

/-- If the infinity bit is set, both coordinates are 0 (R25). -/
def PointReg.Canonical (P : PointReg) : Prop := P.inf = true → P.x = 0 ∧ P.y = 0

theorem PointReg.canonical_infinity : PointReg.infinity.Canonical := fun _ => ⟨rfl, rfl⟩
theorem PointReg.canonical_zero : PointReg.zero.Canonical := fun _ => ⟨rfl, rfl⟩
theorem PointReg.canonical_affine {P : PointReg} (h : P.inf = false) : P.Canonical := fun h' => by simp [h] at h'

theorem valid_canonical {P : PointReg} (h : valid P = true) : P.Canonical := by
  intro hi
  simpa [valid, hi] using h

theorem paddPoint_canonical {P Q : PointReg} (hP : P.Canonical) (hQ : Q.Canonical) : (paddPoint P Q).Canonical := by
  unfold paddPoint
  simp only
  split_ifs
  · exact hQ
  · exact hP
  · exact PointReg.canonical_infinity
  · exact PointReg.canonical_affine rfl
  · exact PointReg.canonical_affine rfl

theorem ladderStep_canonical {A : PointReg × PointReg} (bit : Bool) (h : A.1.Canonical ∧ A.2.Canonical) :
    (ladderStep bit A).1.Canonical ∧ (ladderStep bit A).2.Canonical := by
  cases bit
  · exact ⟨paddPoint_canonical h.1 h.1, paddPoint_canonical h.1 h.2⟩
  · exact ⟨paddPoint_canonical h.2 h.1, paddPoint_canonical h.2 h.2⟩

theorem ladder_canonical (k : Nat) {P : PointReg} (h : P.Canonical) : (ladder k P).Canonical := by
  have key : ∀ i A, A.1.Canonical ∧ A.2.Canonical → (ladderFrom k i A).1.Canonical ∧ (ladderFrom k i A).2.Canonical := by
    intro i
    induction i with
    | zero => exact fun _ h => h
    | succ i ih => exact fun A h => ih _ (ladderStep_canonical _ h)
  exact (key 256 _ ⟨PointReg.canonical_infinity, h⟩).1

/-! ## The one write of a command -/

/-- What a command that completes has written, `t` being the state before `pc` advances. -/
def Effect (s t : State) : Instr → Prop
  | .nop | .fchk _ | .schk _ | .pchk _ => t = s
  | .endRun => False
  | .wipe => t = s.wipeRegs
  | .mov d _ | .ld d _ | .ldc d _ | .finv d _ | .sinv d _ => ∃ v, t = s.setElem d v
  | .fadd d _ _ | .fsub d _ _ | .fmul d _ _ | .fmmul d _ _ | .feq d _ _ | .fred d _ _ => ∃ v, t = s.setElem d v
  | .sadd d _ _ | .ssub d _ _ | .smul d _ _ | .smmul d _ _ | .seq d _ _ | .sred d _ _ => ∃ v, t = s.setElem d v
  | .pgetx d _ | .pgety d _ | .pisinf d _ | .peq d _ _ => ∃ v, t = s.setElem d v
  | .st slot a => slot.toNat < 128 ∧ t = s.memWrite (32 * slot.toNat) 32 (s.elem a).toNat
  | .pmov d a => isPoint d = true ∧ t = s.setPoint d (s.point a)
  | .pset d _ _ | .pinf d | .pldg d | .pdbl d _ | .padd d _ _ | .pmul d _ _ =>
    isPoint d = true ∧ ∃ P : PointReg, P.Canonical ∧ t = s.setPoint d P

/-- The five writes there are. -/
theorem Effect.cases {s t : State} {i : Instr} (h : Effect s t i) :
    t = s ∨ (i = .wipe ∧ t = s.wipeRegs) ∨ (∃ d v, t = s.setElem d v) ∨ (∃ d P, isPoint d = true ∧ t = s.setPoint d P) ∨
      ∃ slot a, i = .st slot a ∧ slot.toNat < 128 ∧ t = s.memWrite (32 * slot.toNat) 32 (s.elem a).toNat := by
  cases i <;> simp only [Effect] at h
  case st slot a => exact .inr (.inr (.inr (.inr ⟨slot, a, rfl, h⟩)))
  case pmov d a => exact .inr (.inr (.inr (.inl ⟨d, _, h⟩)))
  case wipe => exact .inr (.inl ⟨rfl, h⟩)
  all_goals first
    | exact .inl h
    | exact h.elim fun v hv => .inr (.inr (.inl ⟨_, v, hv⟩))
    | exact h.elim fun hd hP => hP.elim fun P hP => .inr (.inr (.inr (.inl ⟨_, P, hd, hP.2⟩)))

/-- What no command that completes touches: the control state, IMEM, and the model's own fields. -/
theorem Effect.control {s t : State} {i : Instr} (h : Effect s t i) :
    t.pc = s.pc ∧ t.imem = s.imem ∧ SameControl s t ∧ SameOwn s t := by
  rcases h.cases with rfl | ⟨-, rfl⟩ | ⟨d, v, rfl⟩ | ⟨d, P, -, rfl⟩ | ⟨slot, a, -, -, rfl⟩ <;>
    exact ⟨by simp, by simp, by constructor <;> simp, by constructor <;> simp⟩

/-- The result is a fault, or the completion of a state with the property. -/
def TrapsOr (s : State) (E : State → Prop) (r : Result) : Prop := (∃ c, r = trap c s) ∨ ∃ t, r = complete t ∧ E t

section forms

variable {s : State} {E : State → Prop}

theorem trapsOr_trap (c : Cause) : TrapsOr s E (trap c s) := .inl ⟨c, rfl⟩

theorem trapsOr_complete {t : State} (h : E t) : TrapsOr s E (complete t) := .inr ⟨t, rfl, h⟩

theorem trapsOr_legal {ok : Bool} {k : Result} (h : ok = true → TrapsOr s E k) : TrapsOr s E (legal ok s k) := by
  unfold legal; split
  · exact h ‹_›
  · exact trapsOr_trap _

theorem trapsOr_elemOperand {m : Nat} {r : EReg} {k : Nat → Result} (h : ∀ x, TrapsOr s E (k x)) :
    TrapsOr s E (elemOperand m r s k) := by
  unfold elemOperand; split
  · exact h _
  · exact trapsOr_trap _

theorem trapsOr_pointOperand {r : PReg} {k : PointReg → Result} (h : ∀ P, P.Canonical → TrapsOr s E (k P)) :
    TrapsOr s E (pointOperand r s k) := by
  unfold pointOperand; split
  · exact h _ (valid_canonical ‹_›)
  · exact trapsOr_trap _

theorem trapsOr_slotOperand {slot : Imm} {k : Nat → Result} (h : slot.toNat < 128 → TrapsOr s E (k (32 * slot.toNat))) :
    TrapsOr s E (slotOperand slot s k) := by
  rcases slotOperand_cases s slot k with ⟨h1, h2⟩ | ⟨_, h2⟩ <;> rw [h2]
  · exact h h1
  · exact trapsOr_trap _

theorem trapsOr_constOperand {index : Imm} {k : Nat → Result} (h : ∀ v, TrapsOr s E (k v)) :
    TrapsOr s E (constOperand index s k) := by
  unfold constOperand; split
  · exact h _
  · exact trapsOr_trap _

theorem trapsOr_toElem {d : EReg} {v : Word} : TrapsOr s (fun t => ∃ v, t = s.setElem d v) (toElem d v s) :=
  trapsOr_complete ⟨v, rfl⟩

theorem trapsOr_toPoint {d : PReg} {P : PointReg} (hd : isPoint d = true) (hP : P.Canonical) :
    TrapsOr s (fun t => isPoint d = true ∧ ∃ P : PointReg, P.Canonical ∧ t = s.setPoint d P) (toPoint d P s) :=
  trapsOr_complete ⟨hd, P, hP, rfl⟩

theorem trapsOr_binary {m : Nat} {f : Nat → Nat → Nat} {d a b : EReg} :
    TrapsOr s (fun t => ∃ v, t = s.setElem d v) (binary m f d a b s) :=
  trapsOr_elemOperand fun _ => trapsOr_elemOperand fun _ => trapsOr_toElem

theorem trapsOr_equality {m : Nat} {d a b : EReg} :
    TrapsOr s (fun t => ∃ v, t = s.setElem d v) (equality m d a b s) :=
  trapsOr_elemOperand fun _ => trapsOr_elemOperand fun _ => trapsOr_toElem

theorem trapsOr_inversion {m : Nat} {d a : EReg} :
    TrapsOr s (fun t => ∃ v, t = s.setElem d v) (inversion m d a s) := by
  refine trapsOr_elemOperand fun x => ?_
  split
  · exact trapsOr_trap _
  · exact trapsOr_toElem

end forms

/-- Everything a command can do: take a fault, finish the run (`END`), or complete with its one write. -/
theorem exec_cases (i : Instr) (s : State) :
    (∃ c, exec i s = trap c s) ∨ (i = .endRun ∧ exec i s = .next s.finish) ∨
      ∃ t, exec i s = complete t ∧ Effect s t i := by
  have key : i ≠ .endRun → TrapsOr s (fun t => Effect s t i) (exec i s) := by
    intro hne
    cases i with
    | endRun => exact absurd rfl hne
    | nop => exact trapsOr_complete rfl
    | wipe => exact trapsOr_complete rfl
    | mov d a => exact trapsOr_toElem
    | ld d slot =>
      exact trapsOr_slotOperand (k := fun addr => toElem d (word (s.memRead addr Config.slotBytes)) s)
        fun _ => trapsOr_toElem
    | st slot a =>
      exact trapsOr_slotOperand
        (k := fun addr => complete (s.memWrite addr Config.slotBytes (s.elem a).toNat))
        fun h => trapsOr_complete ⟨h, rfl⟩
    | ldc d index => exact trapsOr_constOperand fun _ => trapsOr_toElem
    | fadd d a b => exact trapsOr_binary
    | fsub d a b => exact trapsOr_binary
    | fmul d a b => exact trapsOr_binary
    | fmmul d a b => exact trapsOr_binary
    | finv d a => exact trapsOr_inversion
    | feq d a b => exact trapsOr_equality
    | fchk a => exact trapsOr_elemOperand (E := fun t => t = s) fun _ => trapsOr_complete rfl
    | fred d a b => exact trapsOr_toElem
    | sadd d a b => exact trapsOr_binary
    | ssub d a b => exact trapsOr_binary
    | smul d a b => exact trapsOr_binary
    | smmul d a b => exact trapsOr_binary
    | sinv d a => exact trapsOr_inversion
    | seq d a b => exact trapsOr_equality
    | schk a => exact trapsOr_elemOperand (E := fun t => t = s) fun _ => trapsOr_complete rfl
    | sred d a b => exact trapsOr_toElem
    | pset d a b => exact trapsOr_legal fun h => trapsOr_toPoint h (PointReg.canonical_affine rfl)
    | pinf d => exact trapsOr_legal fun h => trapsOr_toPoint h PointReg.canonical_infinity
    | pldg d => exact trapsOr_legal fun h => trapsOr_toPoint h (PointReg.canonical_affine rfl)
    | pmov d a => exact trapsOr_legal fun h => trapsOr_complete ⟨(Bool.and_eq_true_iff.1 h).1, rfl⟩
    | pgetx d a => exact trapsOr_legal fun _ => trapsOr_toElem
    | pgety d a => exact trapsOr_legal fun _ => trapsOr_toElem
    | pisinf d a => exact trapsOr_legal fun _ => trapsOr_toElem
    | pchk a => exact trapsOr_legal fun _ => trapsOr_pointOperand fun _ _ => trapsOr_complete rfl
    | pdbl d a =>
      exact trapsOr_legal fun h => trapsOr_pointOperand fun _ hP =>
        trapsOr_toPoint (Bool.and_eq_true_iff.1 h).1 (paddPoint_canonical hP hP)
    | padd d a b =>
      exact trapsOr_legal fun h => trapsOr_pointOperand fun _ hP => trapsOr_pointOperand fun _ hQ =>
        trapsOr_toPoint (Bool.and_eq_true_iff.1 (Bool.and_eq_true_iff.1 h).1).1 (paddPoint_canonical hP hQ)
    | pmul d a b =>
      exact trapsOr_legal fun h => trapsOr_elemOperand fun k => trapsOr_pointOperand fun _ hP =>
        trapsOr_toPoint (Bool.and_eq_true_iff.1 h).1 (ladder_canonical k hP)
    | peq d a b =>
      exact trapsOr_legal fun _ => trapsOr_pointOperand fun _ _ => trapsOr_pointOperand fun _ _ => trapsOr_toElem
  by_cases h : i = .endRun
  · subst h; exact .inr (.inl ⟨rfl, rfl⟩)
  · rcases key h with h' | h'
    · exact .inl h'
    · exact .inr (.inr h')

end Sys2Proof.Machine
end

