-- ==== Sys2Proof/Laws/GroupOrder.lean ====
section
/-! SUPPORT. Facts towards the group order (R163): the cubic of the curve has no root, so there is no point of order 2,
and there are at most `2p + 1` points. -/

namespace Sys2Proof.Machine

/-! ## Polynomials modulo `x^3 - 3x + b`, by their three coefficients -/

/-- `c2 * x^2 + c1 * x + c0`. -/
structure Tri where
  c2 : Nat
  c1 : Nat
  c0 : Nat
  deriving DecidableEq

/-- The polynomial's value. -/
def Tri.at (u : Tri) (x : Fp) : Fp := u.c2 * x ^ 2 + u.c1 * x + u.c0

/-- The product, reduced by `x^3 = 3x - b`. -/
def Tri.mul (u v : Tri) : Tri :=
  let c4 := u.c2 * v.c2
  let c3 := u.c2 * v.c1 + u.c1 * v.c2
  ⟨(u.c2 * v.c0 + u.c1 * v.c1 + u.c0 * v.c2 + 3 * c4) % Config.p,
   (u.c1 * v.c0 + u.c0 * v.c1 + (Config.p - Config.b) * c4 + 3 * c3) % Config.p,
   (u.c0 * v.c0 + (Config.p - Config.b) * c3) % Config.p⟩

theorem Tri.at_mul (u v : Tri) {x : Fp} (h : x ^ 3 - 3 * x + Config.b = 0) : (u.mul v).at x = u.at x * v.at x := by
  have hb : ((Config.p - Config.b : Nat) : Fp) = - (Config.b : Fp) := by
    rw [Nat.cast_sub (by decide), CharP.cast_eq_zero, zero_sub]
  simp only [Tri.mul, Tri.at, ZMod.natCast_mod, Nat.cast_add, Nat.cast_mul, hb, Nat.cast_ofNat]
  linear_combination (-((u.c2 : Fp) * v.c2 * x + (u.c2 * v.c1 + u.c1 * v.c2))) * h

/-- The power by squaring, for `e < 2 ^ k`. -/
def Tri.pow : Nat → Tri → Nat → Tri
  | 0, _, _ => ⟨0, 0, 1⟩
  | k + 1, u, e =>
    let r := Tri.pow k (u.mul u) (e / 2)
    if e % 2 = 1 then r.mul u else r

theorem Tri.at_pow (k : Nat) (u : Tri) (e : Nat) (he : e < 2 ^ k) {x : Fp} (h : x ^ 3 - 3 * x + Config.b = 0) :
    (Tri.pow k u e).at x = u.at x ^ e := by
  induction k generalizing u e with
  | zero => obtain rfl : e = 0 := by omega
            simp [Tri.pow, Tri.at]
  | succ k ih =>
    have := ih (u.mul u) (e / 2) (by rw [Nat.pow_succ] at he; omega)
    rw [Tri.at_mul _ _ h, ← pow_two, ← pow_mul] at this
    simp only [Tri.pow]
    split
    · rw [Tri.at_mul _ _ h, this, ← pow_succ]; congr 1; omega
    · rw [this]; congr 1; omega

/-- The remainder of `x^p` modulo the cubic. -/
def triFrob : Tri :=
  ⟨0x368fbbcd696676a0341535e2f5c2448c25b58fb7587e14be8d657ae5d2ec63f1,
   0x1b6b65e0dba268d6bf72f99fba65e1bf30f126868605e87e9d516f57ef5dd84c,
   0x92e088642d3312c097d5943a147b76e7b494e0924f03d682e5350a345a27381d⟩

/-- The remainder of `x^p - x`, and its inverse modulo the cubic. -/
def triDiff : Tri := ⟨triFrob.c2, triFrob.c1 - 1, triFrob.c0⟩

@[inherit_doc triDiff] def triDiffInv : Tri :=
  ⟨0x4cde11cf86cb876cd59cf0115813c55af0ecd3cda667d98bb9a347a56aa74a6d,
   0xa4a08891884100c13323460107a8d28eede4387fa3e6e9bfebec9f6d72d0b5cc,
   0xa969487079f1744798bf0de6fded091b66e9d328eb0645fe5d979d1339b7f47f⟩

/-- The cubic has no root among the residues: `x^p - x` is invertible modulo it. -/
theorem cubic_no_root [Fact (Nat.Prime Config.p)] (x : Fp) : x ^ 3 - 3 * x + Config.b ≠ 0 := by
  intro h
  have hx : (⟨0, 1, 0⟩ : Tri).at x = x := by simp [Tri.at]
  have hfrob : triFrob.at x = x := by
    have hr : Tri.pow 256 ⟨0, 1, 0⟩ Config.p = triFrob := by decide +kernel
    rw [← hr, Tri.at_pow 256 _ Config.p p_lt h, hx, ZMod.pow_card]
  have hdiff : triDiff.at x = 0 := by
    have hsub : triFrob.at x = triDiff.at x + x := by
      have e : triFrob.c1 = triDiff.c1 + 1 := by decide +kernel
      simp only [Tri.at, e, show triDiff.c2 = triFrob.c2 from rfl, show triDiff.c0 = triFrob.c0 from rfl]
      push_cast
      ring
    rw [hfrob] at hsub
    linear_combination -hsub
  have hone : triDiffInv.mul triDiff = ⟨0, 0, 1⟩ := by decide +kernel
  have h3 := Tri.at_mul triDiffInv triDiff h
  rw [hone, hdiff, mul_zero] at h3
  simp [Tri.at] at h3

theorem two_ne_zero_fp : (2 : Fp) ≠ 0 := by
  have : ((2 : Nat) : Fp) ≠ 0 := by rw [Ne, ZMod.natCast_eq_zero_iff]; intro h; exact absurd (Nat.le_of_dvd (by omega) h) (by have := two_lt_p; omega)
  exact_mod_cast this

/-! ## The points -/

/-- There is no point of order 2. -/
theorem no_order_two [Fact (Nat.Prime Config.p)] [DecidableEq Fp] (A : curve.Point) (h : A + A = 0) : A = 0 := by
  rcases A with _ | ⟨x, y, hn⟩
  · rfl
  · exfalso
    have h1 := (eq_neg_of_add_eq_zero_left h)
    rw [WeierstrassCurve.Affine.Point.neg_some] at h1
    have hy : y = -y := by
      simp only [WeierstrassCurve.Affine.Point.some.injEq] at h1
      simpa [WeierstrassCurve.Affine.negY] using h1.2
    have hy0 : y = 0 := by
      have : 2 * y = 0 := by linear_combination hy
      exact (mul_eq_zero.1 this).resolve_left two_ne_zero_fp
    have := (nonsingular_iff x y).1 hn
    rw [hy0] at this
    exact cubic_no_root x (by rw [← this]; simp)

open Classical in
/-- A point's `x`, and which of the two square roots its `y` is. -/
noncomputable def code (A : curve.Point) : Option (Fp × Bool) :=
  match A with
  | .zero => none
  | .some x y _ => some (x, decide (y = if h : ∃ c : Fp, c ^ 2 = x ^ 3 - 3 * x + Config.b then h.choose else 0))

theorem code_injective [Fact (Nat.Prime Config.p)] : Function.Injective code := by
  intro A B h
  rcases A with _ | ⟨x, y, hn⟩ <;> rcases B with _ | ⟨x', y', hn'⟩
  · rfl
  · simp [code] at h
  · simp [code] at h
  · simp only [code, Option.some.injEq, Prod.mk.injEq] at h
    obtain ⟨rfl, h⟩ := h
    have e1 := (nonsingular_iff x y).1 hn
    have e2 := (nonsingular_iff x y').1 hn'
    have hex : ∃ c : Fp, c ^ 2 = x ^ 3 - 3 * x + Config.b := ⟨y, e1⟩
    rw [dif_pos hex] at h
    have hc := hex.choose_spec
    have e3 : ∀ z : Fp, z ^ 2 = x ^ 3 - 3 * x + Config.b → z = hex.choose ∨ z = -hex.choose := by
      intro z hz; exact sq_eq_sq_iff_eq_or_eq_neg.1 (hz.trans hc.symm)
    have : y = y' := by
      rcases e3 y e1 with a | a <;> rcases e3 y' e2 with b | b
      · rw [a, b]
      · simp only [decide_eq_decide] at h; exact (h.1 a ▸ a)
      · simp only [decide_eq_decide] at h; rw [b]; exact h.2 b
      · rw [a, b]
    subst this; rfl

theorem finite_point [Fact (Nat.Prime Config.p)] : Finite curve.Point := Finite.of_injective code code_injective

/-- The curve has at most `2p + 1` points. -/
theorem card_point_le [Fact (Nat.Prime Config.p)] : Nat.card curve.Point ≤ 2 * Config.p + 1 := by
  have := Nat.card_le_card_of_injective code code_injective
  have h2 : Nat.card (Option (Fp × Bool)) = 2 * Config.p + 1 := by
    have : NeZero Config.p := ⟨p_pos.ne'⟩
    rw [Nat.card_eq_fintype_card, Fintype.card_option, Fintype.card_prod, ZMod.card, Fintype.card_bool, Nat.mul_comm]
  omega

end Sys2Proof.Machine
end

