-- ==== Sys2Proof/Laws/PerInstr.lean ====
section
/-! SUPPORT. Per instruction: the word of a legal command matches its own row of the opcode table (R74, R75). -/

namespace Sys2Proof.Laws.EncodeFitsRow

/-- The word of the command, if its fields are legal, matches the row of its mnemonic. -/
def Statement (i : Instr) : Prop :=
  i.wf = true → ∃ r ∈ opcodeTable, r.mnemonic = i.mnemonic ∧ r.fits (encode i) = true

/-- A row matches the word of fields that agree with its opcode, its zero fields and its point fields. -/
theorem of_row {i : Instr} (r : OpRow) (hr : r ∈ opcodeTable) (hm : r.mnemonic = i.mnemonic)
    (h : i.wf = true → r.fits (wordOf (encodeFields i)) = true) : Statement i :=
  fun hw => ⟨r, hr, hm, h hw⟩

theorem nop : Statement .nop :=
  of_row ⟨"NOP", 0xFFFFFFFF, 0x01000000⟩ (by decide) rfl fun _ => by
    rw [OpRow.fits_iff]
    simp [encodeFields, Instr.opcode, fieldsOf]

theorem endRun : Statement .endRun :=
  of_row ⟨"END", 0xFFFFFFFF, 0x02000000⟩ (by decide) rfl fun _ => by
    rw [OpRow.fits_iff]
    simp [encodeFields, Instr.opcode, fieldsOf]

theorem wipe : Statement .wipe :=
  of_row ⟨"WIPE", 0xFFFFFFFF, 0x03000000⟩ (by decide) rfl fun _ => by
    rw [OpRow.fits_iff]
    simp [encodeFields, Instr.opcode, fieldsOf]

theorem mov (d a : EReg) : Statement (.mov d a) :=
  of_row ⟨"MOV", 0xFF00FFFF, 0x10000000⟩ (by decide) rfl fun _ => by
    rw [OpRow.fits_iff]
    simp [encodeFields, Instr.opcode, fieldsOf]

theorem ld (d : EReg) (slot : Imm) : Statement (.ld d slot) :=
  of_row ⟨"LD", 0xFF0FF000, 0x11000000⟩ (by decide) rfl fun _ => by
    rw [OpRow.fits_iff]
    simp [encodeFields, Instr.opcode, fieldsOf]

theorem st (slot : Imm) (a : EReg) : Statement (.st slot a) :=
  of_row ⟨"ST", 0xFFF0F000, 0x12000000⟩ (by decide) rfl fun _ => by
    rw [OpRow.fits_iff]
    simp [encodeFields, Instr.opcode, fieldsOf]

theorem ldc (d : EReg) (index : Imm) : Statement (.ldc d index) :=
  of_row ⟨"LDC", 0xFF0FF000, 0x13000000⟩ (by decide) rfl fun _ => by
    rw [OpRow.fits_iff]
    simp [encodeFields, Instr.opcode, fieldsOf]

theorem fadd (d a b : EReg) : Statement (.fadd d a b) :=
  of_row ⟨"FADD", 0xFF000FFF, 0x20000000⟩ (by decide) rfl fun _ => by
    rw [OpRow.fits_iff]
    simp [encodeFields, Instr.opcode, fieldsOf]

theorem fsub (d a b : EReg) : Statement (.fsub d a b) :=
  of_row ⟨"FSUB", 0xFF000FFF, 0x21000000⟩ (by decide) rfl fun _ => by
    rw [OpRow.fits_iff]
    simp [encodeFields, Instr.opcode, fieldsOf]

theorem fmul (d a b : EReg) : Statement (.fmul d a b) :=
  of_row ⟨"FMUL", 0xFF000FFF, 0x22000000⟩ (by decide) rfl fun _ => by
    rw [OpRow.fits_iff]
    simp [encodeFields, Instr.opcode, fieldsOf]

theorem fmmul (d a b : EReg) : Statement (.fmmul d a b) :=
  of_row ⟨"FMMUL", 0xFF000FFF, 0x23000000⟩ (by decide) rfl fun _ => by
    rw [OpRow.fits_iff]
    simp [encodeFields, Instr.opcode, fieldsOf]

theorem finv (d a : EReg) : Statement (.finv d a) :=
  of_row ⟨"FINV", 0xFF00FFFF, 0x24000000⟩ (by decide) rfl fun _ => by
    rw [OpRow.fits_iff]
    simp [encodeFields, Instr.opcode, fieldsOf]

theorem feq (d a b : EReg) : Statement (.feq d a b) :=
  of_row ⟨"FEQ", 0xFF000FFF, 0x25000000⟩ (by decide) rfl fun _ => by
    rw [OpRow.fits_iff]
    simp [encodeFields, Instr.opcode, fieldsOf]

theorem fchk (a : EReg) : Statement (.fchk a) :=
  of_row ⟨"FCHK", 0xFFF0FFFF, 0x26000000⟩ (by decide) rfl fun _ => by
    rw [OpRow.fits_iff]
    simp [encodeFields, Instr.opcode, fieldsOf]

theorem fred (d a b : EReg) : Statement (.fred d a b) :=
  of_row ⟨"FRED", 0xFF000FFF, 0x27000000⟩ (by decide) rfl fun _ => by
    rw [OpRow.fits_iff]
    simp [encodeFields, Instr.opcode, fieldsOf]

theorem sadd (d a b : EReg) : Statement (.sadd d a b) :=
  of_row ⟨"SADD", 0xFF000FFF, 0x30000000⟩ (by decide) rfl fun _ => by
    rw [OpRow.fits_iff]
    simp [encodeFields, Instr.opcode, fieldsOf]

theorem ssub (d a b : EReg) : Statement (.ssub d a b) :=
  of_row ⟨"SSUB", 0xFF000FFF, 0x31000000⟩ (by decide) rfl fun _ => by
    rw [OpRow.fits_iff]
    simp [encodeFields, Instr.opcode, fieldsOf]

theorem smul (d a b : EReg) : Statement (.smul d a b) :=
  of_row ⟨"SMUL", 0xFF000FFF, 0x32000000⟩ (by decide) rfl fun _ => by
    rw [OpRow.fits_iff]
    simp [encodeFields, Instr.opcode, fieldsOf]

theorem smmul (d a b : EReg) : Statement (.smmul d a b) :=
  of_row ⟨"SMMUL", 0xFF000FFF, 0x33000000⟩ (by decide) rfl fun _ => by
    rw [OpRow.fits_iff]
    simp [encodeFields, Instr.opcode, fieldsOf]

theorem sinv (d a : EReg) : Statement (.sinv d a) :=
  of_row ⟨"SINV", 0xFF00FFFF, 0x34000000⟩ (by decide) rfl fun _ => by
    rw [OpRow.fits_iff]
    simp [encodeFields, Instr.opcode, fieldsOf]

theorem seq (d a b : EReg) : Statement (.seq d a b) :=
  of_row ⟨"SEQ", 0xFF000FFF, 0x35000000⟩ (by decide) rfl fun _ => by
    rw [OpRow.fits_iff]
    simp [encodeFields, Instr.opcode, fieldsOf]

theorem schk (a : EReg) : Statement (.schk a) :=
  of_row ⟨"SCHK", 0xFFF0FFFF, 0x36000000⟩ (by decide) rfl fun _ => by
    rw [OpRow.fits_iff]
    simp [encodeFields, Instr.opcode, fieldsOf]

theorem sred (d a b : EReg) : Statement (.sred d a b) :=
  of_row ⟨"SRED", 0xFF000FFF, 0x37000000⟩ (by decide) rfl fun _ => by
    rw [OpRow.fits_iff]
    simp [encodeFields, Instr.opcode, fieldsOf]

theorem pset (d : PReg) (a b : EReg) : Statement (.pset d a b) :=
  of_row ⟨"PSET", 0xFF800FFF, 0x40000000⟩ (by decide) rfl fun h => by
    rw [OpRow.fits_iff]
    simp_all [encodeFields, Instr.opcode, Instr.wf, point_mask, fieldsOf]

theorem pinf (d : PReg) : Statement (.pinf d) :=
  of_row ⟨"PINF", 0xFF8FFFFF, 0x41000000⟩ (by decide) rfl fun h => by
    rw [OpRow.fits_iff]
    simp_all [encodeFields, Instr.opcode, Instr.wf, point_mask, fieldsOf]

theorem pldg (d : PReg) : Statement (.pldg d) :=
  of_row ⟨"PLDG", 0xFF8FFFFF, 0x42000000⟩ (by decide) rfl fun h => by
    rw [OpRow.fits_iff]
    simp_all [encodeFields, Instr.opcode, Instr.wf, point_mask, fieldsOf]

theorem pmov (d a : PReg) : Statement (.pmov d a) :=
  of_row ⟨"PMOV", 0xFF88FFFF, 0x43000000⟩ (by decide) rfl fun h => by
    rw [OpRow.fits_iff]
    simp_all [encodeFields, Instr.opcode, Instr.wf, point_mask, fieldsOf]

theorem pgetx (d : EReg) (a : PReg) : Statement (.pgetx d a) :=
  of_row ⟨"PGETX", 0xFF08FFFF, 0x44000000⟩ (by decide) rfl fun h => by
    rw [OpRow.fits_iff]
    simp_all [encodeFields, Instr.opcode, Instr.wf, point_mask, fieldsOf]

theorem pgety (d : EReg) (a : PReg) : Statement (.pgety d a) :=
  of_row ⟨"PGETY", 0xFF08FFFF, 0x45000000⟩ (by decide) rfl fun h => by
    rw [OpRow.fits_iff]
    simp_all [encodeFields, Instr.opcode, Instr.wf, point_mask, fieldsOf]

theorem pisinf (d : EReg) (a : PReg) : Statement (.pisinf d a) :=
  of_row ⟨"PISINF", 0xFF08FFFF, 0x46000000⟩ (by decide) rfl fun h => by
    rw [OpRow.fits_iff]
    simp_all [encodeFields, Instr.opcode, Instr.wf, point_mask, fieldsOf]

theorem pchk (a : PReg) : Statement (.pchk a) :=
  of_row ⟨"PCHK", 0xFFF8FFFF, 0x50000000⟩ (by decide) rfl fun h => by
    rw [OpRow.fits_iff]
    simp_all [encodeFields, Instr.opcode, Instr.wf, point_mask, fieldsOf]

theorem pdbl (d a : PReg) : Statement (.pdbl d a) :=
  of_row ⟨"PDBL", 0xFF88FFFF, 0x51000000⟩ (by decide) rfl fun h => by
    rw [OpRow.fits_iff]
    simp_all [encodeFields, Instr.opcode, Instr.wf, point_mask, fieldsOf]

theorem padd (d a b : PReg) : Statement (.padd d a b) :=
  of_row ⟨"PADD", 0xFF888FFF, 0x52000000⟩ (by decide) rfl fun h => by
    rw [OpRow.fits_iff]
    simp_all [encodeFields, Instr.opcode, Instr.wf, point_mask, fieldsOf]

theorem pmul (d : PReg) (a : EReg) (b : PReg) : Statement (.pmul d a b) :=
  of_row ⟨"PMUL", 0xFF808FFF, 0x53000000⟩ (by decide) rfl fun h => by
    rw [OpRow.fits_iff]
    simp_all [encodeFields, Instr.opcode, Instr.wf, point_mask, fieldsOf]

theorem peq (d : EReg) (a b : PReg) : Statement (.peq d a b) :=
  of_row ⟨"PEQ", 0xFF088FFF, 0x54000000⟩ (by decide) rfl fun h => by
    rw [OpRow.fits_iff]
    simp_all [encodeFields, Instr.opcode, Instr.wf, point_mask, fieldsOf]

end Sys2Proof.Laws.EncodeFitsRow
end

