-- ==== Sys2Proof/Laws/Step.lean ====
section
/-! SUPPORT. What one step of the block can do, said once: whose move it is, and what each move can do. -/

namespace Sys2Proof.Machine

/-- A step is a move of the core, one host access, or reset. -/
theorem step_cases {s t : State} (h : step s = .next t) :
    (∃ u, CoreTurn s u ∧ coreMove u = .next t) ∨
      (∃ a rest, s.agenda = .host a :: rest ∧ t = State.hostAct { s with agenda := rest } a) ∨
      ∃ rest, s.agenda = .reset :: rest ∧ t = State.resetEvent { s with agenda := rest } := by
  unfold step takeTurn at h
  split at h
  · exact .inl ⟨s, .inl ⟨‹_›, rfl⟩, h⟩
  · exact .inl ⟨_, .inr ⟨_, ‹_›, rfl⟩, h⟩
  · exact .inr (.inl ⟨_, _, ‹_›, (Host.Outcome.next.inj h).symm⟩)
  · exact .inr (.inr ⟨_, ‹_›, (Host.Outcome.next.inj h).symm⟩)

theorem step_of_empty {s : State} (h : s.agenda = []) : step s = coreMove s := by
  unfold step takeTurn; rw [h]

theorem step_of_core {s : State} {rest : List Turn} (h : s.agenda = .core :: rest) :
    step s = coreMove { s with agenda := rest } := by
  unfold step takeTurn; rw [h]

theorem step_of_host {s : State} {a : HostAccess} {rest : List Turn} (h : s.agenda = .host a :: rest) :
    step s = .next (State.hostAct { s with agenda := rest } a) := by
  unfold step takeTurn; rw [h]

theorem step_of_reset {s : State} {rest : List Turn} (h : s.agenda = .reset :: rest) :
    step s = .next (State.resetEvent { s with agenda := rest }) := by
  unfold step takeTurn; rw [h]

/-- On the core's turn a step is the core's move. -/
theorem step_of_coreTurn {s u : State} (h : CoreTurn s u) : step s = coreMove u := by
  rcases h with ⟨h, rfl⟩ | ⟨rest, h, rfl⟩
  exacts [step_of_empty h, step_of_core h]

/-- Taking the core's turn off the agenda changes nothing the core's move reads. -/
theorem CoreTurn.same {s u : State} (h : CoreTurn s u) :
    u.run = s.run ∧ u.pc = s.pc ∧ u.startPc = s.startPc ∧ (∀ k, u.imemWord k = s.imemWord k) := by
  rcases h with ⟨-, rfl⟩ | ⟨rest, -, rfl⟩ <;> exact ⟨rfl, rfl, rfl, fun _ => rfl⟩

/-! ## The core's move -/

theorem coreMove_busy {s : State} (h : s.run = .busy) : coreMove s = runCommand s := by simp [coreMove, h]

theorem coreMove_stopped {s : State} (h : s.run ≠ .busy) : coreMove s = .next s := by
  unfold coreMove; cases hr : s.run <;> simp_all

theorem runCommand_overrun {s : State} (h : s.pc.toNat = 256) : runCommand s = trap .pcOverrun s := by
  simp [runCommand, h]

theorem runCommand_ok {s : State} {i : Instr} (h : s.pc.toNat < 256) (hd : decode (s.imemWord s.pc.toNat) = .ok i) :
    runCommand s = exec i s := by
  unfold runCommand
  rw [if_neg (show ¬ s.pc.toNat = 256 by omega), if_neg (show ¬ 256 < s.pc.toNat by omega), State.fetch, hd]

theorem runCommand_illegal {s : State} {r : Reject} (h : s.pc.toNat < 256)
    (hd : decode (s.imemWord s.pc.toNat) = .error r) : runCommand s = trap .illegalCommand s := by
  unfold runCommand
  rw [if_neg (show ¬ s.pc.toNat = 256 by omega), if_neg (show ¬ 256 < s.pc.toNat by omega), State.fetch, hd]

/-- What the core's move can do. -/
theorem coreMove_cases {u t : State} (h : coreMove u = .next t) :
    (u.run ≠ .busy ∧ t = u) ∨
      (u.run = .busy ∧ u.pc.toNat ≤ 256 ∧
        ((∃ c, t = u.raise c) ∨
          (u.pc.toNat < 256 ∧ decode (u.imemWord u.pc.toNat) = .ok .endRun ∧ t = u.finish) ∨
          ∃ i w, u.pc.toNat < 256 ∧ decode (u.imemWord u.pc.toNat) = .ok i ∧ Effect u w i ∧ t = w.advance ∧
            exec i u = .next t)) := by
  by_cases hr : u.run = .busy
  · rw [coreMove_busy hr] at h
    refine .inr ⟨hr, ?_⟩
    rcases Nat.lt_trichotomy u.pc.toNat 256 with hp | hp | hp
    · refine ⟨hp.le, ?_⟩
      cases hd : decode (u.imemWord u.pc.toNat) with
      | error r =>
        rw [runCommand_illegal hp hd] at h
        exact .inl ⟨_, (Host.Outcome.next.inj h).symm⟩
      | ok i =>
        rw [runCommand_ok hp hd] at h
        rcases exec_cases i u with ⟨c, e⟩ | ⟨rfl, e⟩ | ⟨w, e, he⟩ <;> rw [e] at h
        · exact .inl ⟨c, (Host.Outcome.next.inj h).symm⟩
        · exact .inr (.inl ⟨hp, rfl, (Host.Outcome.next.inj h).symm⟩)
        · exact .inr (.inr ⟨i, w, hp, rfl, he, (Host.Outcome.next.inj h).symm, e.trans h⟩)
    · rw [runCommand_overrun hp] at h
      exact ⟨hp.le, .inl ⟨_, (Host.Outcome.next.inj h).symm⟩⟩
    · unfold runCommand at h
      rw [if_neg (show ¬ u.pc.toNat = 256 by omega), if_pos (show 256 < u.pc.toNat from hp)] at h
      cases h
  · rw [coreMove_stopped hr] at h
    exact .inl ⟨hr, (Host.Outcome.next.inj h).symm⟩

/-! ## The host's move -/

theorem State.isBusy_of {s : State} (h : s.run = .busy) : s.isBusy = true := by simp [State.isBusy, h]
theorem State.not_isBusy_of {s : State} (h : s.run ≠ .busy) : s.isBusy = false := by simp [State.isBusy, h]

/-- Where the regions lie (R59). -/
theorem region_spec (offset : Nat) :
    match region offset with
    | .ctrl => offset = 0
    | .status => offset = 0x04
    | .err => offset = 0x08
    | .epc => offset = 0x0C
    | .startPc => offset = 0x10
    | .intrEn => offset = 0x14
    | .intrState => offset = 0x18
    | .imem k => k < 256
    | .dmem a => offset = 0x1000 + a ∧ a < 0x1000
    | .reserved => True := by
  unfold region
  split_ifs <;> simp only <;> omega

/-- An aligned word access inside the window acts (R56). -/
theorem acts_word {offset : Nat} (h : offset % 4 = 0) (hl : offset < 0x2000) : acts offset 32 = true := by
  simp [acts, h, hl]

theorem region_imem {i : Nat} (h : i < 256) : region (0x400 + 4 * i) = .imem i := by
  unfold region
  split_ifs <;> first
    | omega
    | rw [Nat.add_sub_cancel_left, Nat.mul_div_cancel_left i (by decide)]

theorem region_dmem {a : Nat} (h : a < 4096) : region (0x1000 + a) = .dmem a := by
  unfold region
  split_ifs <;> first
    | omega
    | rw [Nat.add_sub_cancel_left]

/-- A word read inside the window answers its region. -/
theorem State.hostRead_word (s : State) {offset : Nat} (h : offset % 4 = 0) (hl : offset < 0x2000) :
    s.hostRead offset 32 = s.regionRead (region offset) := by
  rw [State.hostRead, if_pos (acts_word h hl)]

/-- A word write inside the window writes its region. -/
theorem State.hostWrite_word (s : State) {offset : Nat} (data : Cmd) (h : offset % 4 = 0) (hl : offset < 0x2000) :
    s.hostWrite offset 32 data = s.regionWrite data (region offset) := by
  rw [State.hostWrite, if_pos (acts_word h hl)]

/-- What a host write can do: nothing, a `CTRL` write, or one store to the register or memory it addresses. -/
theorem State.hostWrite_cases (s : State) (offset bits : Nat) (data : Cmd) :
    s.hostWrite offset bits data = s ∨
      (offset = 0 ∧ bits = 32 ∧ s.hostWrite offset bits data = s.ctrlWrite data) ∨
      (s.run ≠ .busy ∧ s.hostWrite offset bits data = { s with startPc := data.setWidth 8 }) ∨
      s.hostWrite offset bits data = { s with intrEn := data.setWidth 2 } ∨
      s.hostWrite offset bits data = { s with intrState := s.intrState &&& ~~~(data.setWidth 2) } ∨
      (s.run ≠ .busy ∧ ∃ k, k < 256 ∧ s.hostWrite offset bits data = s.setImem k data) ∨
      (s.run ≠ .busy ∧ ∃ a, a + 4 ≤ 4096 ∧ s.hostWrite offset bits data = s.memWrite a 4 data.toNat) := by
  unfold State.hostWrite
  split
  swap
  · exact .inl rfl
  rename_i ha
  simp only [acts, Bool.and_eq_true, beq_iff_eq, decide_eq_true_eq] at ha
  obtain ⟨⟨hb, h4⟩, hlt⟩ := ha
  have hreg := region_spec offset
  cases hr : region offset with
  | ctrl => rw [hr] at hreg; exact .inr (.inl ⟨hreg, hb, rfl⟩)
  | status => exact .inl rfl
  | err => exact .inl rfl
  | epc => exact .inl rfl
  | startPc =>
    by_cases hz : s.run = .busy
    · exact .inl (by simp [State.regionWrite, State.isBusy_of hz])
    · exact .inr (.inr (.inl ⟨hz, by simp [State.regionWrite, State.not_isBusy_of hz]⟩))
  | intrEn => exact .inr (.inr (.inr (.inl rfl)))
  | intrState => exact .inr (.inr (.inr (.inr (.inl rfl))))
  | imem k =>
    rw [hr] at hreg
    by_cases hz : s.run = .busy
    · exact .inl (by simp [State.regionWrite, State.isBusy_of hz])
    · exact .inr (.inr (.inr (.inr (.inr (.inl ⟨hz, k, hreg, by simp [State.regionWrite, State.not_isBusy_of hz]⟩)))))
  | dmem a =>
    rw [hr] at hreg
    by_cases hz : s.run = .busy
    · exact .inl (by simp [State.regionWrite, State.isBusy_of hz])
    · refine .inr (.inr (.inr (.inr (.inr (.inr ⟨hz, a, ?_, by simp [State.regionWrite, State.not_isBusy_of hz]⟩)))))
      simp only at hreg
      omega
  | reserved => exact .inl rfl

end Sys2Proof.Machine
end

