-- ==== Sys2Proof/Laws/Results.lean ====
section
/-! SUPPORT. What the shared command shapes answer: the two-operand shape, the inverse it writes, a term no word decodes
to; and what one `CTRL` write does to `pc` and `run`. -/

namespace Sys2Proof.Machine

/-! ## Results -/

/-- A command that ends by writing a number puts exactly that number in its destination. -/
theorem givesElem_of_toElem {d : EReg} {i : Instr} {s : State} {v : Nat} (hv : v < 2 ^ 256)
    (h : exec i s = toElem d (word v) s) : GivesElem i d v s := by
  obtain ⟨t, ht, w⟩ := toElem_wroteElem s d (word v)
  exact ⟨t, h.trans ht, by rw [w.dest]; exact w, by rw [w.dest, toNat_word hv]⟩

/-- The two-operand shape: the result on operands in range, `OUT_OF_RANGE` on others (R100, R120). -/
theorem binary_checksAndGives {m : Nat} (hm : m ≤ 2 ^ 256) {i : Instr} {d a b : EReg} {f g : Nat → Nat → Nat} {s : State}
    (hi : exec i s = binary m f d a b s) (hlt : ∀ x y, x < m → y < m → f x y < m)
    (hfg : ∀ x y, x < m → y < m → f x y = g x y) : ChecksAndGives m i d a b g s := by
  refine ⟨fun ha hb => ?_, fun h => ?_⟩
  · rw [← hfg _ _ ha hb]
    refine givesElem_of_toElem (lt_of_lt_of_le (hlt _ _ ha hb) hm) ?_
    rw [hi, binary, elemOperand_of s ha, elemOperand_of s hb]
  · unfold Traps
    rw [hi, binary]
    rcases Nat.lt_or_ge (s.elem a).toNat m with ha | ha
    · rw [elemOperand_of s ha, elemOperand_trap s (by omega)]; exact trap_trapped s _
    · rw [elemOperand_trap s ha]; exact trap_trapped s _

/-- The difference by cases, with no negative number (R102, R122). -/
theorem subm_eq {m x y : Nat} (hx : x < m) (hy : y < m) : subm m x y = if y ≤ x then x - y else x + m - y := by
  have h0 : 0 < m := by omega
  have := zmod_coe ((x : Int) - y) h0
  unfold subm
  split
  · have e : ((x : Int) - y) = ((x - y : Nat) : Int) := by omega
    rw [e, zmod_natCast, Nat.mod_eq_of_lt (by omega)]
  · have e : ((x : Int) - y) % m = ((x + m - y : Nat) : Int) := by
      rw [← Int.add_emod_right, Int.emod_eq_of_lt] <;> omega
    omega

/-- `invm` of a nonzero residue is its inverse, in `[1, m - 1]`, and the only one (R105, R125). -/
theorem invm_spec {m : Nat} [Fact m.Prime] (hm : m ≤ 2 ^ 256) (h2 : 2 < m) {x : Nat} (h0 : 0 < x) (hx : x < m) :
    1 ≤ invm x m ∧ invm x m ≤ m - 1 ∧ x * invm x m % m = 1 ∧
      ∀ z, 1 ≤ z → z ≤ m - 1 → x * z % m = 1 → z = invm x m := by
  have hne : (x : ZMod m) ≠ 0 := by
    rw [Ne, ZMod.natCast_eq_zero_iff]; intro h; exact absurd (Nat.le_of_dvd h0 h) (by omega)
  have hlt := invm_lt hm h2.le x
  have one : ∀ z : Nat, x * z % m = 1 ↔ (x : ZMod m) * z = 1 := fun z => by
    have h := ZMod.natCast_eq_natCast_iff' (x * z) 1 m
    rw [Nat.mod_eq_of_lt (show 1 < m by omega)] at h
    rw [← h, Nat.cast_mul, Nat.cast_one]
  have hmul : x * invm x m % m = 1 := by rw [one, cast_invm hm h2, mul_inv_cancel₀ hne]
  refine ⟨?_, by omega, hmul, fun z _ h3 h => ?_⟩
  · rcases Nat.eq_zero_or_pos (invm x m) with h | h
    · rw [h] at hmul; simp at hmul
    · exact h
  · refine eq_of_cast_eq (by omega) hlt ?_
    rw [cast_invm hm h2]
    exact eq_inv_of_mul_eq_one_right ((one z).1 h)

/-- A term no word decodes to takes `ILLEGAL_COMMAND` (log entry 15). -/
theorem exec_of_not_wf {i : Instr} (s : State) (h : i.wf = false) : exec i s = trap .illegalCommand s := by
  cases i <;> simp only [Instr.wf, Bool.true_eq_false] at h
  case ldc d index =>
    have : constRom[index.toNat]? = none := by
      rw [List.getElem?_eq_none_iff]; simpa [isConst, constRom] using h
    simp only [exec, execLdc, constOperand, this]
  all_goals simp only [exec, execPset, execPinf, execPldg, execPmov, execPgetx, execPgety, execPisinf, execPchk, execPdbl,
    execPadd, execPmul, execPeq, legal, h, Bool.false_eq_true, if_false]

/-! ## One `CTRL` write -/

/-- What a `CTRL` write does to `pc`: nothing, or a start at `START_PC` (R33, R36). -/
theorem State.ctrlWrite_pc (s : State) (data : Cmd) :
    (s.ctrlWrite data).pc = s.pc ∨
      (s.run ≠ .busy ∧ data.getLsbD 0 = true ∧ (s.run = .fault → data.getLsbD 1 = true) ∧
        (s.ctrlWrite data).pc = s.startPc.setWidth 9 ∧ (s.ctrlWrite data).run = .busy) := by
  unfold State.ctrlWrite
  split
  · exact .inl rfl
  rename_i hb
  simp only [State.isBusy, beq_iff_eq] at hb
  unfold State.ctrlClear State.ctrlZeroize State.ctrlStart
  split_ifs <;> simp_all
  all_goals (rename_i h; rcases h.2 with h | h <;> simp [h])

/-- What a `CTRL` write does to `run`: nothing, a start, or the acknowledgement (R33, R34, R36). -/
theorem State.ctrlWrite_run (s : State) (data : Cmd) :
    (s.ctrlWrite data).run = s.run ∨
      (s.run ≠ .busy ∧
        ((s.ctrlWrite data).run = .busy ∧ data.getLsbD 0 = true ∧ (s.run = .fault → data.getLsbD 1 = true) ∨
          (s.ctrlWrite data).run = .idle ∧ data.getLsbD 1 = true)) := by
  unfold State.ctrlWrite
  split
  · exact .inl rfl
  rename_i hb
  simp only [State.isBusy, beq_iff_eq] at hb
  unfold State.ctrlClear State.ctrlZeroize State.ctrlStart
  split_ifs <;> simp_all
  all_goals (rename_i h; rcases h.2 with h | h <;> simp [h])

end Sys2Proof.Machine
end

