-- ==== Sys2Proof/Machine/Instances.lean ====
section
/-! DEFINITION. Several instances of the block: independent copies that share nothing (R200). A claim about several
starts each from a `State.powerUp` of its own number, so that their unspecified memories are unrelated (log entry 18). -/

namespace Sys2Proof.Machine

/-- A step of instance `i` of a system of instances; the others do not move. -/
def stepInstance (blocks : List State) (i : Nat) : Option (Host.Outcome (List State) Fault Refusal) :=
  match blocks[i]? with
  | none => none
  | some s =>
    match step s with
    | .next t => some (.next (blocks.set i t))
    | .fault r => some (.fault r)
    | .refused r => some (.refused r)

end Sys2Proof.Machine
end

