-- ==== Sys2Proof/Machine/Timing.lean ====
section
/-! DEFINITION. The open latency parameter `LAT(op)` (R216, R217): a positive number of cycles per opcode, a function of
the opcode alone. No functional rule uses it; the step has no clock (log entry 13). -/

namespace Sys2Proof.Machine

/-- `LAT(op)`, positive (R217). -/
def lat (op : BitVec 8) : Nat := Config.latencyLessOne op + 1

/-- The cycles a command that completes without a fault takes (R216). -/
def cyclesOf (i : Instr) : Nat := lat i.opcode

/-- The cycles of a run of commands ending in `END`, less the unspecified host-interface overhead: "`sum of LAT` over
its commands" (R217). -/
def runCycles : List Instr → Nat
  | [] => 0
  | i :: is => cyclesOf i + runCycles is

end Sys2Proof.Machine
end

