-- ==== Sys2Proof/Tests/Slice0.lean ====
section
/-! SUPPORT. Tests of one step each, with expected values from `95_test_vectors.md`, `30_encoding.md` and the rules'
own examples; ill-formed terms; and, for every statement, values that meet its hypotheses. -/

set_option Elab.async false

namespace Sys2Proof.Tests

open Sys2Proof Sys2Proof.Machine

/-! ## Helpers -/

/-- The state a result goes on to, if it does. -/
def nextOf : Result → Option State
  | .next s => some s
  | .fault _ => none
  | .refused _ => none

/-- The reset state with some registers set. -/
def withRegs (es : List (EReg × Nat)) (ps : List (PReg × PointReg)) : State :=
  ps.foldl (fun s e => s.setPoint e.1 e.2) (es.foldl (fun s e => s.setElem e.1 (word e.2)) State.reset)

/-- What a view shows after the one step that runs the word from those registers. -/
def after {α : Type} (es : List (EReg × Nat)) (ps : List (PReg × PointReg)) (w : Nat) (view : State → α) : Option α :=
  (nextOf (step ((withRegs es ps).withFetchWord 32 w))).map view

/-- An element register's value and `pc`. -/
def e (i : EReg) (s : State) : Nat × Nat := ((s.elem i).toNat, s.pc.toNat)

/-- A point register's value and `pc`. -/
def pt (i : PReg) (s : State) : PointReg × Nat := (s.point i, s.pc.toNat)

/-- `ERR`, `EPC`, `pc`, `STATUS` and `INTR_STATE`. -/
def record (s : State) : List Nat :=
  [s.err.toNat, s.epc.toNat, s.pc.toNat, s.status.toNat, s.intrState.toNat]

/-- The reset state made BUSY at a `pc`, with the command words given. -/
def busyAt (pc : BitVec 9) (words : List (Nat × BitVec 32)) : State :=
  { State.reset with run := .busy, pc := pc, imem := words }

/-- The reset state with one host write to come. -/
def writing (run : RunState) (offset : Nat) (data : Cmd) : State :=
  { State.reset with run := run, agenda := [.host (.write offset 32 data)] }

/-- Why a word is rejected. -/
def rejectOf (w : Cmd) : Option Reject :=
  match decode w with
  | .ok _ => none
  | .error r => some r

def a1 : Nat := 0x0123456789abcdef0123456789abcdef0123456789abcdef0123456789abcdef
def a2 : Nat := 0xfedcba9876543210fedcba9876543210fedcba9876543210fedcba9876543210
def sqrtb : Nat := 0x66485c780e2f83d72433bd5d84a06bb6541c2af31dae871728bf856a174f93f4

/-- `2G`, `3G` and `-G` of `95_test_vectors.md` section 2.6. -/
def g2 : PointReg :=
  ⟨word 0x7cf27b188d034f7e8a52380304b51ac3c08969e277f21b35a60b48fc47669978,
   word 0x07775510db8ed040293d9ac69f7430dbba7dade63ce982299e04b79d227873d1, false⟩
@[inherit_doc g2] def g3 : PointReg :=
  ⟨word 0x5ecbe4d1a6330a44c8f7ef951d4bf165e6c6b721efada985fb41661bc6e7fd6c,
   word 0x8734640c4998ff7e374b06ce1a64a2ecd82ab036384fb83d9a79b127a27d5032, false⟩
@[inherit_doc g2] def gNeg : PointReg :=
  ⟨word Config.Gx, word 0xb01cbd1c01e58065711814b583f061e9d431cca994cea1313449bf97c840ae0a, false⟩

/-! ## Well-formed terms: one ill-formed term per check, refused (R78, R79) -/

theorem test_wf_ldc : (Instr.ldc 1 11).wf = false ∧ (Instr.ldc 1 4095).wf = false ∧ (Instr.ldc 1 10).wf = true := by decide
theorem test_wf_pset : (Instr.pset 8 1 2).wf = false ∧ (Instr.pset 7 15 15).wf = true := by decide
theorem test_wf_pinf : (Instr.pinf 15).wf = false ∧ (Instr.pinf 7).wf = true := by decide
theorem test_wf_pldg : (Instr.pldg 8).wf = false := by decide
theorem test_wf_pmov : (Instr.pmov 8 0).wf = false ∧ (Instr.pmov 0 8).wf = false := by decide
theorem test_wf_reads :
    (Instr.pgetx 15 8).wf = false ∧ (Instr.pgety 15 8).wf = false ∧ (Instr.pisinf 15 8).wf = false ∧
      (Instr.pgetx 15 7).wf = true := by decide
theorem test_wf_pchk : (Instr.pchk 8).wf = false := by decide
theorem test_wf_pdbl : (Instr.pdbl 8 0).wf = false ∧ (Instr.pdbl 0 8).wf = false := by decide
theorem test_wf_padd :
    (Instr.padd 8 0 0).wf = false ∧ (Instr.padd 0 8 0).wf = false ∧ (Instr.padd 0 0 8).wf = false := by decide
theorem test_wf_pmul :
    (Instr.pmul 8 0 0).wf = false ∧ (Instr.pmul 0 0 8).wf = false ∧ (Instr.pmul 0 15 0).wf = true := by decide
theorem test_wf_peq : (Instr.peq 0 8 0).wf = false ∧ (Instr.peq 0 0 8).wf = false := by decide

/-! ## Decoding: the words of R83 (each is its row of R74 with the fields of R70), both ways -/

theorem test_decode_control :
    [0x01000000, 0x02000000, 0x03000000].map (decodeTableWord 32) =
      [some .nop, some .endRun, some .wipe] := by decide

theorem test_encode_control :
    ([.nop, .endRun, .wipe] : List Instr).map encode = [0x01000000, 0x02000000, 0x03000000] := by decide

theorem test_decode_move :
    [0x103C0000, 0x1150007F, 0x12070002, 0x13100008].map (decodeTableWord 32) =
      [some (.mov 3 12), some (.ld 5 127), some (.st 2 7), some (.ldc 1 8)] := by decide

theorem test_encode_move :
    ([.mov 3 12, .ld 5 127, .st 2 7, .ldc 1 8] : List Instr).map encode = [0x103C0000, 0x1150007F, 0x12070002, 0x13100008] := by decide

theorem test_decode_field :
    [0x20123000, 0x21F0F000, 0x22444000, 0x23123000, 0x249A0000, 0x25012000, 0x26060000, 0x27234000].map (decodeTableWord 32) =
      [some (.fadd 1 2 3), some (.fsub 15 0 15), some (.fmul 4 4 4), some (.fmmul 1 2 3), some (.finv 9 10), some (.feq 0 1 2), some (.fchk 6), some (.fred 2 3 4)] := by decide

theorem test_encode_field :
    ([.fadd 1 2 3, .fsub 15 0 15, .fmul 4 4 4, .fmmul 1 2 3, .finv 9 10, .feq 0 1 2, .fchk 6, .fred 2 3 4] : List Instr).map encode = [0x20123000, 0x21F0F000, 0x22444000, 0x23123000, 0x249A0000, 0x25012000, 0x26060000, 0x27234000] := by decide

theorem test_decode_scalar :
    [0x30123000, 0x31123000, 0x32123000, 0x33123000, 0x349A0000, 0x35012000, 0x36060000, 0x37234000].map (decodeTableWord 32) =
      [some (.sadd 1 2 3), some (.ssub 1 2 3), some (.smul 1 2 3), some (.smmul 1 2 3), some (.sinv 9 10), some (.seq 0 1 2), some (.schk 6), some (.sred 2 3 4)] := by decide

theorem test_encode_scalar :
    ([.sadd 1 2 3, .ssub 1 2 3, .smul 1 2 3, .smmul 1 2 3, .sinv 9 10, .seq 0 1 2, .schk 6, .sred 2 3 4] : List Instr).map encode = [0x30123000, 0x31123000, 0x32123000, 0x33123000, 0x349A0000, 0x35012000, 0x36060000, 0x37234000] := by decide

theorem test_decode_pointMove :
    [0x40123000, 0x41700000, 0x42000000, 0x43250000, 0x44430000, 0x45530000, 0x46630000].map (decodeTableWord 32) =
      [some (.pset 1 2 3), some (.pinf 7), some (.pldg 0), some (.pmov 2 5), some (.pgetx 4 3), some (.pgety 5 3), some (.pisinf 6 3)] := by decide

theorem test_encode_pointMove :
    ([.pset 1 2 3, .pinf 7, .pldg 0, .pmov 2 5, .pgetx 4 3, .pgety 5 3, .pisinf 6 3] : List Instr).map encode = [0x40123000, 0x41700000, 0x42000000, 0x43250000, 0x44430000, 0x45530000, 0x46630000] := by decide

theorem test_decode_pointArith :
    [0x50040000, 0x51100000, 0x52201000, 0x53380000, 0x54123000].map (decodeTableWord 32) =
      [some (.pchk 4), some (.pdbl 1 0), some (.padd 2 0 1), some (.pmul 3 8 0), some (.peq 1 2 3)] := by decide

theorem test_encode_pointArith :
    ([.pchk 4, .pdbl 1 0, .padd 2 0 1, .pmul 3 8 0, .peq 1 2 3] : List Instr).map encode = [0x50040000, 0x51100000, 0x52201000, 0x53380000, 0x54123000] := by decide

/-- The illegal words of `95_test_vectors.md` section 2.1, and the step that rejects each. -/
theorem test_reject_opcode :
    ([0x00000000, 0xFFFFFFFF, 0x04000000, 0x28000000, 0x47000000, 0x55000000] : List Cmd).map rejectOf =
      List.replicate 6 (some .reservedOpcode) := by decide

theorem test_reject_unused :
    ([0x01000001, 0x02100000, 0x10300001, 0x24121000, 0x26160000, 0x50140000, 0x12170002, 0x11580000, 0x11580080]
      : List Cmd).map rejectOf = List.replicate 9 (some .unusedField) := by decide

theorem test_reject_point :
    ([0x41800000, 0x530F8000, 0x44480000, 0x52900000] : List Cmd).map rejectOf = List.replicate 4 (some .pointField) := by
  decide

theorem test_reject_const :
    ([0x1310000B, 0x13100FFF] : List Cmd).map rejectOf = List.replicate 2 (some .constIndex) := by decide

/-- The highest register numbers (section 2.1). -/
theorem test_decode_high :
    [0x20FFF000, 0x52777000, 0x530F7000].map (decodeTableWord 32) =
      [some (.fadd 15 15 15), some (.padd 7 7 7), some (.pmul 0 15 7)] := by decide

/-- The rows of `opcodeTable` are the 35 of R74, no two alike in opcode. -/
theorem test_table_opcodes : opcodeTable.Pairwise (fun r r' => r.code ≠ r'.code ∧ r.mnemonic ≠ r'.mnemonic) ∧
    opcodeTable.length = 35 := by decide +kernel

/-! ## One step per command -/

/-! Section 2.2 -/

theorem test_nop : after [(3, 7)] [] 0x01000000 (fun s => (e 3 s, s.run)) = some ((7, 1), .busy) := by decide +kernel
theorem test_end : after [] [] 0x02000000 record = some [0, 0, 0, 2, 1] := by decide +kernel
theorem test_wipe :
    after [(0, 5), (15, a1)] [(0, .base), (7, .infinity)] 0x03000000 (fun s => (e 15 s, s.point 0, s.point 7)) =
      some ((0, 1), ⟨0, 0, false⟩, ⟨0, 0, false⟩) := by decide +kernel
theorem test_mov_raw : after [(12, 2 ^ 256 - 1)] [] 0x103C0000 (e 3) = some (2 ^ 256 - 1, 1) := by decide +kernel

/-- Slot 5 holds the bytes of `Gx` (section 2.2); `LD e0, 5` gives `Gx`. -/
theorem test_ld_gx :
    (nextOf (exec (.ld 0 5) (State.reset.memWrite 160 32 Config.Gx))).map (e 0) = some (Config.Gx, 1) ∧
      (State.reset.memWrite 160 32 Config.Gx).dmemByte 160 = 0x6b ∧
      (State.reset.memWrite 160 32 Config.Gx).dmemByte 191 = 0x96 := by decide +kernel
theorem test_ld_bad_address : after [] [] 0x11500080 record = some [3, 0, 0, 4, 2] := by decide +kernel

/-- `ST 2, e7` of R96's example: bytes 1 to 32 in order; the host reads `0x01020304` at `0x1040`. -/
theorem test_st_bytes :
    after [(7, 0x0102030405060708090a0b0c0d0e0f101112131415161718191a1b1c1d1e1f20)] [] 0x12070002
      (fun s => (s.dmemByte 64, s.dmemByte 65, s.dmemByte 95, { s with run := .done }.hostRead 0x1040 32,
        { s with run := .done }.hostRead 0x105C 32)) =
      some (0x01, 0x02, 0x20, 0x01020304, 0x1d1e1f20) := by decide +kernel
theorem test_st_bad_address : after [(7, 5)] [] 0x12070080 record = some [3, 0, 0, 4, 2] := by decide +kernel
theorem test_ldc_r2p :
    after [] [] 0x13100008 (e 1) =
      some (0x00000004fffffffdfffffffffffffffefffffffbffffffff0000000000000003, 1) := by decide +kernel
theorem test_ldc_index_11 : after [] [] 0x1310000B record = some [1, 0, 0, 4, 2] := by decide +kernel

/-! Sections 2.3 and 2.4: `e[a]` in `e1`, `e[b]` in `e2`, destination `e3` -/

theorem test_fadd_carry :
    after [(1, Config.p - 1), (2, Config.p - 1)] [] 0x20312000 (e 3) =
      some (0xffffffff00000001000000000000000000000000fffffffffffffffffffffffd, 1) := by decide +kernel
theorem test_fadd_range :
    after [(1, 1), (2, Config.p)] [] 0x20312000 record =
      some [4, 0, 0, 4, 2] := by decide +kernel
theorem test_fsub_borrow :
    after [(1, 0), (2, 1)] [] 0x21312000 (e 3) =
      some (0xffffffff00000001000000000000000000000000fffffffffffffffffffffffe, 1) := by decide +kernel
theorem test_fmul_gxgy :
    after [(1, Config.Gx), (2, Config.Gy)] [] 0x22312000 (e 3) =
      some (0x823cd15f6dd3c71933565064513a6b2bd183e554c6a08622f713ebbbface98be, 1) := by decide +kernel
theorem test_fmmul_gxgy :
    after [(1, Config.Gx), (2, Config.Gy)] [] 0x23312000 (e 3) =
      some (0xc6d07b446e2462a58bd273e2834c5e4a7dfafdb3096cda3d31bac195c45209ac, 1) := by decide +kernel
theorem test_finv_gx :
    after [(1, Config.Gx), (2, 0)] [] 0x24310000 (e 3) =
      some (0xe060cbb088706d5d24936933b69b16ab707d656273744b65664c49e577f35238, 1) := by decide +kernel
theorem test_finv_zero :
    after [(1, 0), (2, 0)] [] 0x24310000 record =
      some [5, 0, 0, 4, 2] := by decide +kernel
theorem test_feq_differ :
    after [(1, a1), (2, a2)] [] 0x25312000 (e 3) =
      some (0, 1) := by decide +kernel
theorem test_feq_same :
    after [(1, a1), (2, a1)] [] 0x25312000 (e 3) =
      some (1, 1) := by decide +kernel
theorem test_fchk_n :
    after [(1, Config.n), (2, 0)] [] 0x26010000 (e 3) =
      some (0, 1) := by decide +kernel
theorem test_fchk_p :
    after [(1, Config.p), (2, 0)] [] 0x26010000 record =
      some [4, 0, 0, 4, 2] := by decide +kernel
theorem test_fred_order :
    after [(1, 1), (2, 0)] [] 0x27312000 (e 3) =
      some (0x00000000fffffffeffffffffffffffffffffffff000000000000000000000001, 1) := by decide +kernel
theorem test_fred_raw :
    after [(1, 2 ^ 256 - 1), (2, 2 ^ 256 - 1)] [] 0x27312000 (e 3) =
      some (0x00000004fffffffdfffffffffffffffefffffffbffffffff0000000000000002, 1) := by decide +kernel
theorem test_sadd_carry :
    after [(1, Config.n - 1), (2, Config.n - 1)] [] 0x30312000 (e 3) =
      some (0xffffffff00000000ffffffffffffffffbce6faada7179e84f3b9cac2fc63254f, 1) := by decide +kernel
theorem test_sadd_range :
    after [(1, Config.p - 1), (2, 0)] [] 0x30312000 record =
      some [4, 0, 0, 4, 2] := by decide +kernel
theorem test_ssub_borrow :
    after [(1, Config.Gy), (2, Config.Gx)] [] 0x31312000 (e 3) =
      some (0xe4cb70ef1cee3d54962b0465186b5d2371b1b083e45dc9b2caced1e55b89b4b0, 1) := by decide +kernel
theorem test_smul_gxgy :
    after [(1, Config.Gx), (2, Config.Gy)] [] 0x32312000 (e 3) =
      some (0x1543b5272ef9466b6179ca8d535b2e2af16b758c41da31d772eca81accce4d18, 1) := by decide +kernel
theorem test_smmul_gxgy :
    after [(1, Config.Gx), (2, Config.Gy)] [] 0x33312000 (e 3) =
      some (0x2c0541c930806259f9df5ea0001471ddec817f5fc265eeb49bb7aaddf2508da1, 1) := by decide +kernel
theorem test_sinv_gx :
    after [(1, Config.Gx), (2, 0)] [] 0x34310000 (e 3) =
      some (0x4a8dbb62c2548ddcb57084bceeab15480df0052a93d05ca48caaa102e7efdd93, 1) := by decide +kernel
theorem test_sinv_range :
    after [(1, Config.n), (2, 0)] [] 0x34310000 record =
      some [4, 0, 0, 4, 2] := by decide +kernel
theorem test_seq_same :
    after [(1, Config.n - 1), (2, Config.n - 1)] [] 0x35312000 (e 3) =
      some (1, 1) := by decide +kernel
theorem test_seq_differ :
    after [(1, a1), (2, a2)] [] 0x35312000 (e 3) =
      some (0, 1) := by decide +kernel
theorem test_schk_top :
    after [(1, Config.n - 1), (2, 0)] [] 0x36010000 (e 3) =
      some (0, 1) := by decide +kernel
theorem test_schk_p :
    after [(1, Config.p), (2, 0)] [] 0x36010000 record =
      some [4, 0, 0, 4, 2] := by decide +kernel
theorem test_sred_raw :
    after [(1, a1), (2, a2)] [] 0x37312000 (e 3) =
      some (0xa2007dbc7750a8d752cd91e88b3b838eb0c7f5d5271452b2a3ddecc08ea5f961, 1) := by decide +kernel

/-! Sections 2.5 and 2.6 -/

theorem test_pset :
    after [(2, Config.Gx), (3, Config.Gy)] [] 0x40123000 (pt 1) =
      some (⟨word Config.Gx, word Config.Gy, false⟩, 1) := by decide +kernel
theorem test_pinf :
    after [] [] 0x41700000 (pt 7) =
      some (⟨0, 0, true⟩, 1) := by decide +kernel
theorem test_pldg :
    after [] [] 0x42000000 (pt 0) =
      some (⟨word Config.Gx, word Config.Gy, false⟩, 1) := by decide +kernel
theorem test_pmov_invalid :
    after [] [(5, ⟨5, 6, false⟩)] 0x43250000 (pt 2) =
      some (⟨5, 6, false⟩, 1) := by decide +kernel
theorem test_pgetx :
    after [] [(3, .base)] 0x44430000 (e 4) =
      some (Config.Gx, 1) := by decide +kernel
theorem test_pgetx_raw :
    after [] [(3, ⟨word (2 ^ 256 - 1), 5, false⟩)] 0x44430000 (e 4) =
      some (2 ^ 256 - 1, 1) := by decide +kernel
theorem test_pgety :
    after [] [(3, .base)] 0x45530000 (e 5) =
      some (Config.Gy, 1) := by decide +kernel
theorem test_pisinf :
    after [] [(3, .infinity)] 0x46630000 (e 6) =
      some (1, 1) := by decide +kernel
theorem test_pisinf_reset :
    after [(6, 9)] [] 0x46630000 (e 6) =
      some (0, 1) := by decide +kernel
theorem test_pchk_sqrtb :
    after [] [(4, ⟨0, word sqrtb, false⟩)] 0x50040000 record =
      some [0, 0, 1, 1, 0] := by decide +kernel
theorem test_pchk_x_is_p :
    after [] [(4, ⟨word Config.p, word sqrtb, false⟩)] 0x50040000 record =
      some [6, 0, 0, 4, 2] := by decide +kernel
theorem test_pdbl_g :
    after [] [(0, .base)] 0x51100000 (pt 1) =
      some (g2, 1) := by decide +kernel
theorem test_pdbl_infinity :
    after [] [(0, .infinity)] 0x51100000 (pt 1) =
      some (.infinity, 1) := by decide +kernel
theorem test_padd_3g :
    after [] [(0, .base), (1, g2)] 0x52201000 (pt 2) =
      some (g3, 1) := by decide +kernel
theorem test_padd_inverse :
    after [] [(0, .base), (1, gNeg)] 0x52201000 (pt 2) =
      some (.infinity, 1) := by decide +kernel
theorem test_pmul_3g :
    after [(8, 3)] [(0, .base)] 0x53380000 (pt 3) =
      some (g3, 1) := by decide +kernel
theorem test_pmul_scalar_first :
    after [(8, Config.n)] [] 0x53380000 record =
      some [4, 0, 0, 4, 2] := by decide +kernel
theorem test_peq_neg :
    after [] [(2, .base), (3, gNeg)] 0x54123000 (e 1) =
      some (0, 1) := by decide +kernel
theorem test_peq_same :
    after [] [(2, g3), (3, g3)] 0x54123000 (e 1) =
      some (1, 1) := by decide +kernel

/-! Programs 5 and 6, and the host window of section 2.8 -/

/-- Program 6's last step: `pc = 256` raises `PC_OVERRUN` with `EPC = 256`. -/
theorem test_overrun : (nextOf (step (busyAt 256 []))).map record = some [2, 256, 256, 4, 2] := by decide +kernel

/-- Program 5's end: `CTRL <- 0x2` clears `STATUS`, `ERR` and `EPC` and leaves `INTR_STATE`. -/
theorem test_clear :
    (nextOf (step { writing .fault 0 2 with err := 5, epc := 2, pc := 2, intrState := 2 })).map record =
      some [0, 0, 2, 0, 2] := by decide +kernel

/-- R36: `0x3` in FAULT acknowledges the fault and starts a run at `START_PC`. -/
theorem test_clear_start :
    (nextOf (step { writing .fault 0 3 with err := 5, epc := 2, startPc := 254 })).map record =
      some [0, 0, 254, 1, 0] := by decide +kernel

/-- R61: while BUSY a read of IMEM answers 0. -/
theorem test_busy_imem_read :
    (busyAt 0 [(0, 0x02000000)]).hostRead 0x400 32 = 0 ∧
      { busyAt 0 [(0, 0x02000000)] with run := .idle }.hostRead 0x400 32 = 0x02000000 := by decide +kernel


/-! ## Values that meet the hypotheses of each statement, at the boundaries of each clause -/

/-- `e1`, `e2` set. -/
def two (x y : Nat) : State := withRegs [(1, x), (2, y)] []

/-- `p6`, `p7` set. -/
def pair (P Q : PointReg) : State := withRegs [] [(6, P), (7, Q)]

theorem witness_LdLoadsSlotBigEndian : (127#12).toNat < 128 ∧ 128 ≤ (128#12).toNat := by decide
theorem witness_StStoresSlotBigEndian : (0#12).toNat < 128 ∧ 128 ≤ (4095#12).toNat := by decide
theorem witness_SlotRoundTrip : (127#12).toNat < 128 := by decide
theorem witness_LdcLoadsConstant :
    [0, 1, Config.p, Config.n, Config.b, Config.Gx, Config.Gy, 2 ^ 256 % Config.p, 2 ^ 512 % Config.p,
        2 ^ 256 % Config.n, 2 ^ 512 % Config.n][(10#12).toNat]? = some (2 ^ 512 % Config.n) ∧
      10 < (11#12).toNat := by decide +kernel

/-- Both operands in range at the top, and each one just out of range. -/
theorem witness_FieldSumDifferenceProduct :
    ((two (Config.p - 1) (Config.p - 1)).elem 1).toNat < Config.p ∧
      ((two (Config.p - 1) (Config.p - 1)).elem 2).toNat < Config.p ∧
      Config.p ≤ ((two Config.p 0).elem 1).toNat ∧ Config.p ≤ ((two 0 Config.p).elem 2).toNat := by decide +kernel
@[inherit_doc witness_FieldSumDifferenceProduct] theorem witness_ScalarSumDifferenceProduct :
    ((two (Config.n - 1) (Config.n - 1)).elem 1).toNat < Config.n ∧
      ((two (Config.n - 1) (Config.n - 1)).elem 2).toNat < Config.n ∧
      Config.n ≤ ((two Config.n 0).elem 1).toNat ∧ Config.n ≤ ((two 0 Config.n).elem 2).toNat := by decide +kernel
@[inherit_doc witness_FieldSumDifferenceProduct] theorem witness_MontgomeryProduct :
    ((two (Config.p - 1) 0).elem 1).toNat < Config.p ∧ ((two (Config.p - 1) 0).elem 2).toNat < Config.p ∧
      ((two (Config.n - 1) 0).elem 1).toNat < Config.n ∧ ((two (Config.n - 1) 0).elem 2).toNat < Config.n ∧
      Config.p ≤ ((two 0 Config.p).elem 2).toNat ∧ Config.n ≤ ((two 0 Config.n).elem 2).toNat := by decide +kernel
/-- 1 and `m - 1` have an inverse, 0 and `m` are the two stops, for both families. -/
theorem witness_InversionGivesUniqueInverse :
    (∀ m ∈ [Config.p, Config.n], 0 < ((two (m - 1) 0).elem 1).toNat ∧ ((two (m - 1) 0).elem 1).toNat < m ∧
      0 < ((two 1 0).elem 1).toNat ∧ ((two 0 0).elem 1).toNat = 0 ∧ m ≤ ((two m 0).elem 1).toNat) ∧
    (Instr.finv 3 1 = .finv 3 1 ∧ Config.p = Config.p) ∧ (Instr.sinv 3 1 = .sinv 3 1 ∧ Config.n = Config.n) := by
  decide +kernel
theorem witness_EqualityGivesOneOrZero :
    (∀ m ∈ [Config.p, Config.n], ((two (m - 1) (m - 1)).elem 1).toNat < m ∧ ((two (m - 1) (m - 1)).elem 2).toNat < m ∧
      m ≤ ((two m m).elem 1).toNat ∧ m ≤ ((two 0 m).elem 2).toNat) := by decide +kernel
theorem witness_RangeCheckWritesNothing :
    (∀ m ∈ [Config.p, Config.n], ((two (m - 1) 0).elem 1).toNat < m ∧ m ≤ ((two m 0).elem 1).toNat) := by decide +kernel
theorem witness_ModularArithmeticLaws :
    (Config.n = Config.p ∨ Config.n = Config.n) ∧ Config.n - 1 < Config.n ∧ 0 < Config.n ∧ Config.n - 1 ≠ 0 ∧
      Config.p - 1 < Config.p := by decide +kernel
theorem witness_MontgomeryConversionLaws :
    Config.p - 1 < Config.p ∧ 0 < Config.p ∧ Config.n - 1 < Config.n ∧ 0 < Config.n := by decide +kernel
/-- The reduction at its largest argument, for the field prime. -/
theorem witness_RedcComputesMontgomeryProduct :
    Config.p % 2 = 1 ∧ Config.p < 2 ^ 256 ∧ pPrime < 2 ^ 256 ∧ (Config.p * pPrime + 1) % 2 ^ 256 = 0 ∧
      Config.p * 2 ^ 256 - 1 < Config.p * 2 ^ 256 ∧ Config.p - 1 < Config.p ∧ Config.n - 1 < Config.n := by decide +kernel

theorem witness_PsetAndPmovCopyRaw : isPoint 7 = true ∧ isPoint 0 = true := by decide
theorem witness_PinfAndPldgWriteConstants : isPoint 7 = true ∧ isPoint 0 = true := by decide
theorem witness_PointFieldReads : isPoint 7 = true ∧ isPoint 0 = true := by decide
theorem witness_WipeClearsRegisters : isPoint 7 = true := by decide

/-- The identity on either side, a point and its inverse, a point twice, and two different points. -/
theorem witness_PaddFollowsGroupLaw :
    (valid .infinity = true ∧ PointReg.infinity = ⟨0, 0, true⟩) ∧
      (valid .base = true ∧ PointReg.base = ⟨word Config.Gx, word Config.Gy, false⟩ ∧ Config.Gx < Config.p ∧
        Config.Gy < Config.p) ∧
      (valid gNeg = true ∧ gNeg = ⟨word Config.Gx, word (Config.p - Config.Gy), false⟩ ∧
        Config.p - Config.Gy < Config.p ∧ (Config.Gy + (Config.p - Config.Gy)) % Config.p = 0) ∧
      (Config.Gy + Config.Gy) % Config.p ≠ 0 ∧
      (valid g2 = true ∧ g2 = ⟨word g2.x.toNat, word g2.y.toNat, false⟩ ∧ g2.x.toNat < Config.p ∧
        g2.y.toNat < Config.p ∧ g2.x.toNat ≠ Config.Gx) := by decide +kernel
theorem witness_PaddIdentityInverseCommutative : valid g2 = true ∧ valid .infinity = true := by decide +kernel
theorem witness_PaddAssociative : valid .base = true ∧ valid g2 = true ∧ valid g3 = true := by decide +kernel
theorem witness_LadderIsRepeatedAddition :
    2 ^ 256 - 1 < 2 ^ 256 ∧ valid .base = true ∧ 256 ≤ 256 ∧ 0 ≤ 256 := by decide +kernel
theorem witness_PmulScalarLaws : valid .base = true ∧ valid .infinity = true := by decide +kernel
theorem witness_GroupOfOrderN : valid .base = true ∧ PointReg.base ≠ .infinity := by decide +kernel
theorem witness_PchkValidates :
    isPoint 7 = true ∧ valid ((pair .infinity .base).point 7) = true ∧ valid (State.reset.point 7) = false := by
  decide +kernel
theorem witness_PdblAndPaddWriteSum :
    isPoint 7 = true ∧ isPoint 6 = true ∧ isPoint 0 = true ∧
      valid ((pair gNeg .base).point 6) = true ∧ valid ((pair gNeg .base).point 7) = true ∧
      valid ((pair .zero .base).point 6) = false ∧ valid ((pair .base .zero).point 7) = false := by decide +kernel
/-- The scalar at `n - 1` and `n`, the point valid and not; `n` with a bad point meets the scalar's clause only. -/
theorem witness_PmulWritesScalarMultiple :
    isPoint 7 = true ∧ isPoint 0 = true ∧
      ((two (Config.n - 1) 0).elem 1).toNat < Config.n ∧ ((two 0 Config.n).elem 1).toNat < Config.n ∧
      Config.n ≤ ((two 0 Config.n).elem 2).toNat ∧
      valid ((withRegs [(1, Config.n - 1)] [(0, .base)]).point 0) = true ∧
      valid ((two (Config.n - 1) 0).point 0) = false := by decide +kernel
theorem witness_PeqComparesPoints :
    isPoint 6 = true ∧ isPoint 7 = true ∧ valid ((pair .base gNeg).point 6) = true ∧
      valid ((pair .base gNeg).point 7) = true ∧ (pair .base gNeg).point 6 ≠ (pair .base gNeg).point 7 ∧
      valid ((pair .base .zero).point 7) = false ∧ valid ((pair .zero .base).point 6) = false := by decide +kernel

theorem witness_DecodeEncode : (Instr.ldc 15 10).wf = true ∧ (Instr.pmul 7 15 7).wf = true := by decide
theorem witness_EncodeDecode : decode 0x530F7000 = .ok (.pmul 0 15 7) := by decide
theorem witness_DecoderAgreesWithOpcodeTable :
    decode 0x1310000A = .ok (.ldc 1 10) ∧ (∃ r ∈ opcodeTable, r.fits 0x1310000A = true ∧ r.mnemonic = "LDC") ∧
      (0x1310000A#32 &&& 0xFFF).toNat = 10 ∧ (∃ r ∈ opcodeTable, r.fits 0x1310000B = true ∧ r.mnemonic = "LDC") ∧
      ¬ (0x1310000B#32 &&& 0xFFF).toNat ≤ 10 := by decide +kernel
theorem witness_AssemblerRoundTrip : (Instr.peq 15 7 7).wf = true ∧ 15 < 16 := by decide

/-- `NOP` at the last word, with the core to move by itself and by the agenda; and a state that is not busy. -/
theorem witness_StepRunsDecodedCommand :
    let s := busyAt 255 [(255, 0x01000000)]
    (s.run = .busy ∧ s.pc.toNat < 256 ∧ decode (s.imemWord s.pc.toNat) = .ok .nop ∧ s.agenda = []) ∧
      (∃ rest, { s with agenda := [.core, .reset] }.agenda = .core :: rest) ∧
      State.reset.run ≠ .busy ∧ State.reset.agenda = [] := by
  exact ⟨by decide +kernel, ⟨_, rfl⟩, by decide⟩
/-- The same, and a word that is no command on a listed turn of the core. -/
theorem witness_EveryWordIsCommandOrIllegal :
    (let s := busyAt 255 [(255, 0x01000000)];
      CoreTurn s s ∧ s.run = .busy ∧ s.pc.toNat < 256 ∧ encode .nop = s.imemWord s.pc.toNat) ∧
      (let u := busyAt 0 [(0, 0xFFFFFFFF)];
        CoreTurn { u with agenda := [.core] } u ∧ u.run = .busy ∧ u.pc.toNat < 256 ∧
          rejectOf (u.imemWord u.pc.toNat) = some .reservedOpcode) :=
  ⟨⟨.inl ⟨rfl, rfl⟩, by decide +kernel⟩, .inr ⟨_, rfl, rfl⟩, by decide +kernel⟩
/-- `pc = 256` on the core's turn, listed or not, and the step that gets there. -/
theorem witness_PcOverrunAtEndOfImem :
    CoreTurn (busyAt 256 []) (busyAt 256 []) ∧ CoreTurn { busyAt 256 [] with agenda := [.core] } (busyAt 256 []) ∧
      (busyAt 256 []).run = .busy ∧ (busyAt 256 []).pc.toNat = 256 ∧
      (nextOf (step (busyAt 255 [(255, 0x01000000)]))).map (·.pc.toNat) = some 256 :=
  ⟨.inl ⟨rfl, rfl⟩, .inr ⟨_, rfl, rfl⟩, by decide, by decide, by decide +kernel⟩
theorem witness_CommandsCompleteOrTrap : (Instr.peq 15 7 7).wf = true ∧ (Instr.endRun).wf = true := by decide
theorem witness_EndFinishesTheRun :
    (nextOf (exec .endRun (busyAt 255 []))).map (fun t => (t.run, t.pc)) = some (.done, 255) := by decide +kernel
theorem witness_IllFormedTermsTrap : (Instr.peq 0 8 0).wf = false ∧ (Instr.ldc 15 11).wf = false := by decide
/-- A command of each kind that gives a next state. -/
theorem witness_CommandsStayInTheirState :
    exec .nop State.reset = .next { State.reset with pc := 1 } ∧
      (∃ t, exec (.st 127 7) State.reset = .next t) ∧ (∃ t, exec (.fadd 1 2 3) State.reset = .next t) ∧
      (∃ t, exec (.pinf 7) State.reset = .next t) := ⟨rfl, ⟨_, rfl⟩, ⟨_, rfl⟩, ⟨_, rfl⟩⟩
/-- One command for each code, from a busy state. -/
theorem witness_FaultCodesByCommand :
    [Instr.ld 1 128, .fchk 1, .finv 1 2, .pchk 7, .st 4095 1, .pmul 7 3 7].all Instr.wf = true ∧
      [Instr.ld 1 128, .fchk 1, .finv 1 2, .pchk 7].map (fun i =>
        (nextOf (exec i { two Config.p 0 with run := .busy })).map fun t => (t.run, t.err)) =
      [some (.fault, 3), some (.fault, 4), some (.fault, 5), some (.fault, 6)] := by decide +kernel

/-- Reset from a faulted state. -/
theorem witness_ResetLeavesR39 :
    isPoint 7 = true ∧
      let s : State := { State.reset with run := .fault, err := 6, epc := 9, pc := 9, agenda := [.reset] }
      (∃ rest, s.agenda = .reset :: rest) ∧ step s = .next (State.powerUp (Config.epochAfterReset 0 [] [])) :=
  ⟨by decide, ⟨_, rfl⟩, rfl⟩

/-- A busy state that meets the invariant, with a point register at infinity, and its step to `pc = 256`. -/
theorem witness_StepKeepsInvariant :
    let s := (busyAt 255 [(255, 0x01000000)]).setPoint 7 .infinity
    s.Inv ∧ step s = .next { s with pc := 256 } := by
  refine ⟨⟨by decide +kernel, by decide +kernel, by decide +kernel, by decide +kernel, by decide +kernel,
    by decide +kernel, by decide +kernel, by decide +kernel⟩, rfl⟩
theorem witness_EveryRunTerminates :
    (busyAt 0 []).run = .busy ∧ (busyAt 0 []).agenda = [] ∧ (busyAt 0 []).pc.toNat ≤ 256 ∧
      (busyAt 256 []).pc.toNat ≤ 256 := by decide
/-- A completed command, a start at 255, and a reset. -/
theorem witness_OnlyThreeEventsChangePc :
    (∃ t, step (busyAt 255 [(255, 0x01000000)]) = .next t ∧ t.pc ≠ 255) ∧
      (∃ t, step { writing .idle 0 1 with startPc := 255 } = .next t ∧ t.pc ≠ 0) ∧
      (∃ t, step { busyAt 256 [] with agenda := [.reset] } = .next t ∧ t.pc ≠ 256) :=
  ⟨⟨_, rfl, by decide +kernel⟩, ⟨_, rfl, by decide +kernel⟩, ⟨_, rfl, by decide +kernel⟩⟩
/-- Out of BUSY by `END`, by a fault, by reset; from IDLE by `START`, from FAULT by `CLEAR` with `START`, from DONE by
`CLEAR`, by reset. -/
theorem witness_RunStateTransitions :
    (nextOf (step (busyAt 255 [(255, 0x02000000)]))).map (·.run) = some .done ∧
      (nextOf (step (busyAt 256 []))).map (·.run) = some .fault ∧
      (nextOf (step { busyAt 256 [] with agenda := [.reset] })).map (·.run) = some .idle ∧
      (nextOf (step (writing .idle 0 1))).map (·.run) = some .busy ∧
      (nextOf (step (writing .fault 0 3))).map (·.run) = some .busy ∧
      (nextOf (step (writing .done 0 2))).map (·.run) = some .idle ∧
      (nextOf (step { State.reset with run := .done, agenda := [.reset] })).map (·.run) = some .idle := by decide +kernel

theorem witness_CtrlStartAndClear :
    (∀ r ∈ [RunState.idle, .done, .fault, .busy], (writing r 0 0xFFFFFFF9).run = r ∧
      (writing r 0 0xFFFFFFF9).agenda = [.host (.write 0 32 0xFFFFFFF9)]) ∧
    (0xFFFFFFF9#32).getLsbD 0 = true ∧ (0xFFFFFFF9#32).getLsbD 1 = false ∧ (0xFFFFFFF9#32).getLsbD 2 = false ∧
    (2#32).getLsbD 1 = true ∧ (2#32).getLsbD 0 = false ∧ (2#32).getLsbD 2 = false := by decide
theorem witness_CtrlZeroizeWipes :
    (writing .fault 0 4).agenda = [.host (.write 0 32 4)] ∧ (writing .fault 0 4).run ≠ .busy ∧
      (4#32).getLsbD 2 = true ∧ (4#32).getLsbD 0 = false ∧ (4#32).getLsbD 1 = false ∧ isPoint 7 = true := by decide
theorem witness_CtrlBitsActInOrder :
    (∀ r ∈ [RunState.idle, .busy, .done, .fault], (writing r 0 0xFFFFFFFF).agenda = [.host (.write 0 32 0xFFFFFFFF)] ∧
      (writing r 0 0xFFFFFFFF).run = r) ∧
      (writing .fault 0 3).agenda = [.host (.write 0 32 3)] ∧ (writing .fault 0 3).run = .fault := by decide
theorem witness_BusyShutsHostOut :
    (busyAt 0 []).run = .busy ∧
      (∀ o ∈ [0x400, 0x7FC], o % 4 = 0 ∧ 0x400 ≤ o ∧ o < 0x800) ∧
      (∀ o ∈ [0x1000, 0x1FFC], o % 4 = 0 ∧ 0x1000 ≤ o ∧ o < 0x2000) ∧ 0x10 % 4 = 0 := by decide
/-- Two busy states that differ in a register, in `pc` and in IMEM. -/
theorem witness_BusyReadsRevealNoOperand :
    (busyAt 0 []).run = .busy ∧ SameControl (busyAt 0 []) ((busyAt 255 [(0, 1)]).setElem 3 7) ∧
      (busyAt 0 []).elem 3 ≠ ((busyAt 255 [(0, 1)]).setElem 3 7).elem 3 :=
  ⟨rfl, ⟨rfl, rfl, rfl, rfl, rfl, rfl⟩, by decide +kernel⟩
theorem witness_IntrStateWriteOneToClear :
    (writing .busy 0x18 3).agenda = [.host (.write 0x18 32 3)] ∧ (1 < 2) := by decide
/-- Each reason for which an access is inert, at its bounds. -/
theorem witness_InertHostAccesses :
    (16 ≠ 32) ∧ 0x1001 % 4 ≠ 0 ∧ 0x2000 ≤ 0x2000 ∧ (0x1C ≤ 0x1C ∧ 0x1C < 0x400) ∧ (0x1C ≤ 0x3FC ∧ 0x3FC < 0x400) ∧
      (0x800 ≤ 0x800 ∧ 0x800 < 0x1000) ∧ (0x800 ≤ 0xFFC ∧ 0xFFC < 0x1000) := by decide
theorem witness_HostTurnsAndControlRegisters :
    (∃ rest, { State.reset with agenda := [.host (.read 0x1FFC 32)] }.agenda = .host (.read 0x1FFC 32) :: rest) ∧
      (∃ rest, (writing .busy 0x14 3).agenda = .host (.write 0x14 32 3) :: rest) ∧ State.reset.run ≠ .busy :=
  ⟨⟨_, rfl⟩, ⟨_, rfl⟩, by decide⟩
theorem witness_HostDmemWordIsBigEndian :
    State.reset.run ≠ .busy ∧ (127#12).toNat < 128 ∧ 7 < 8 ∧
      (∃ t, exec (.ld 3 127) (State.reset.memWrite 4064 32 5) = .next t) ∧
      (4091 < 32 * (127#12).toNat + 4 * 7) ∧ 32 * (127#12).toNat + 4 * 7 + 4 ≤ 4096 :=
  ⟨by decide, by decide, by decide, ⟨_, rfl⟩, by decide, by decide⟩
theorem witness_HostWritesCommandWord : State.reset.run ≠ .busy ∧ 255 < 256 ∧ 0 ≠ 255 := by decide

/-- Log entry 8: a word placed by `withFetchWord` is the one the next step runs, from a busy state too. -/
theorem test_withFetchWord :
    (nextOf (step (State.reset.withFetchWord 32 0x13700001))).map (e 7) = some (1, 1) ∧
      (nextOf (step ((busyAt 255 []).withFetchWord 32 0x13700001))).map (e 7) = some (1, 256) ∧
      (nextOf (step ((busyAt 256 []).withFetchWord 32 0x13700001))).map (e 7) = some (1, 1) := by decide +kernel

end Sys2Proof.Tests
end

section
/-! PROOFS. The invariant of the machine: one lemma per state operation, then the moves of the core, the host and reset,
then every step. -/

namespace Sys2Proof.Machine

variable {s t : State}

/-! ## The operations on the state keep the invariant -/

theorem Cause.code_ne_zero (c : Cause) : c.code ≠ 0 := by cases c <;> decide
theorem Cause.code_le (c : Cause) : c.code.toNat ≤ 6 := by cases c <;> decide

/-- `ERR` reads 0 outside FAULT (R30). -/
theorem State.Inv.err_zero (h : s.Inv) (hr : s.run ≠ .fault) : s.err = 0 :=
  not_not.1 fun he => hr (h.err_iff.1 he)

/-- The invariant speaks of neither the agenda, nor the host's data, nor the registers only the host writes. -/
theorem State.Inv.hostFields (h : s.Inv) (startPc : BitVec 8) (intrEn intrState : BitVec 2) (agenda : List Turn)
    (rdata : Cmd) :
    State.Inv
      { s with startPc := startPc, intrEn := intrEn, intrState := intrState, agenda := agenda, rdata := rdata } :=
  ⟨h.pc_le, h.err_iff, h.err_le, h.epc_fault, h.epc_zero, h.infinity, h.imem, h.dmem⟩

theorem State.Inv.raise (h : s.Inv) (c : Cause) : (s.raise c).Inv where
  pc_le := h.pc_le
  err_iff := ⟨fun _ => rfl, fun _ => c.code_ne_zero⟩
  err_le := c.code_le
  epc_fault _ := rfl
  epc_zero hr := absurd rfl hr
  infinity := h.infinity
  imem := h.imem
  dmem := h.dmem

theorem State.Inv.finish (h : s.Inv) (hr : s.run ≠ .fault) : s.finish.Inv where
  pc_le := h.pc_le
  err_iff := by simp [h.err_zero hr]
  err_le := h.err_le
  epc_fault := nofun
  epc_zero _ := h.epc_zero hr
  infinity := h.infinity
  imem := h.imem
  dmem := h.dmem

theorem State.Inv.clear (h : s.Inv) : s.clear.Inv where
  pc_le := h.pc_le
  err_iff := by simp
  err_le := by simp
  epc_fault := nofun
  epc_zero _ := rfl
  infinity := h.infinity
  imem := h.imem
  dmem := h.dmem

theorem State.Inv.start (h : s.Inv) (hr : s.run ≠ .fault) : s.start.Inv where
  pc_le := by
    have := s.startPc.isLt
    rw [State.start_pc, BitVec.toNat_setWidth, Config.imemWords]
    omega
  err_iff := by simp [h.err_zero hr]
  err_le := h.err_le
  epc_fault := nofun
  epc_zero _ := h.epc_zero hr
  infinity := h.infinity
  imem := h.imem
  dmem := h.dmem

theorem State.Inv.advance (h : s.Inv) (hr : s.run ≠ .fault) (hp : s.pc.toNat < 256) : s.advance.Inv where
  pc_le := by
    have one : (1 : BitVec 9).toNat = 1 := rfl
    rw [State.advance_pc, BitVec.toNat_add, Config.imemWords, one]
    omega
  err_iff := h.err_iff
  err_le := h.err_le
  epc_fault hf := absurd hf hr
  epc_zero := h.epc_zero
  infinity := h.infinity
  imem := h.imem
  dmem := h.dmem

theorem State.Inv.wipeRegs (h : s.Inv) : s.wipeRegs.Inv where
  pc_le := h.pc_le
  err_iff := h.err_iff
  err_le := h.err_le
  epc_fault := h.epc_fault
  epc_zero := h.epc_zero
  infinity i := by rw [State.point_wipeRegs]; exact PointReg.canonical_zero
  imem := h.imem
  dmem := h.dmem

theorem State.Inv.zeroDmem (h : s.Inv) : s.zeroDmem.Inv :=
  ⟨h.pc_le, h.err_iff, h.err_le, h.epc_fault, h.epc_zero, h.infinity, h.imem, s.wf_zeroDmem⟩

theorem State.Inv.setImem (h : s.Inv) {k : Nat} (hk : k < 256) (w : Cmd) : (s.setImem k w).Inv :=
  ⟨h.pc_le, h.err_iff, h.err_le, h.epc_fault, h.epc_zero, h.infinity, s.wf_setImem w h.imem hk, h.dmem⟩

theorem State.Inv.memWrite (h : s.Inv) {addr n : Nat} (hn : addr + n ≤ 4096) (v : Nat) : (s.memWrite addr n v).Inv :=
  ⟨h.pc_le, h.err_iff, h.err_le, h.epc_fault, h.epc_zero, h.infinity, h.imem, s.wf_memWrite v h.dmem hn⟩

/-! ## The core's move -/

/-- A point register written with a canonical value leaves every point register canonical (R25). -/
theorem State.point_setPoint_canonical {d : PReg} {P : PointReg} (hd : isPoint d = true) (hP : P.Canonical)
    (hs : ∀ r, (s.point r).Canonical) (r : PReg) : ((s.setPoint d P).point r).Canonical := by
  rw [State.point_setPoint s r P hd]
  split
  · exact hP
  · exact hs r

/-- No command writes an infinity that is not canonical (R25). -/
theorem Effect.point_canonical {i : Instr} (h : Effect s t i) (hs : ∀ r, (s.point r).Canonical) (r : PReg) :
    (t.point r).Canonical := by
  cases i with
  | endRun => exact h.elim
  | nop | fchk _ | schk _ | pchk _ => obtain rfl : t = s := h; exact hs r
  | wipe => obtain rfl : t = s.wipeRegs := h; rw [State.point_wipeRegs]; exact PointReg.canonical_zero
  | st slot a => obtain ⟨-, rfl⟩ := h; rw [State.point_memWrite]; exact hs r
  | pmov d a => obtain ⟨hd, rfl⟩ := h; exact State.point_setPoint_canonical hd (hs a) hs r
  | pset _ _ _ | pinf _ | pldg _ | pdbl _ _ | padd _ _ _ | pmul _ _ _ =>
    obtain ⟨hd, P, hP, rfl⟩ := h
    exact State.point_setPoint_canonical hd hP hs r
  | _ => obtain ⟨v, rfl⟩ := h; exact hs r

/-- A command's write keeps DMEM in canonical form. -/
theorem Effect.wf_dmem {i : Instr} (h : Effect s t i) (hs : Memory.wf Config.dmemBytes s.dmem) :
    Memory.wf Config.dmemBytes t.dmem := by
  rcases h.cases with rfl | ⟨-, rfl⟩ | ⟨d, v, rfl⟩ | ⟨d, P, -, rfl⟩ | ⟨slot, a, -, hslot, rfl⟩
  case inr.inr.inr.inr => exact s.wf_memWrite _ hs (show 32 * slot.toNat + 32 ≤ 4096 by omega)
  all_goals exact hs

theorem Effect.inv {i : Instr} (h : Effect s t i) (hs : s.Inv) : t.Inv := by
  obtain ⟨hpc, himem, hc, -⟩ := h.control
  exact {
    pc_le := hpc ▸ hs.pc_le
    err_iff := by rw [hc.err, hc.run]; exact hs.err_iff
    err_le := hc.err ▸ hs.err_le
    epc_fault := by rw [hc.run, hc.epc, hpc]; exact hs.epc_fault
    epc_zero := by rw [hc.run, hc.epc]; exact hs.epc_zero
    infinity := h.point_canonical hs.infinity
    imem := himem ▸ hs.imem
    dmem := h.wf_dmem hs.dmem }

theorem coreMove_inv (h : coreMove s = .next t) (hs : s.Inv) : t.Inv := by
  rcases coreMove_cases h with ⟨-, rfl⟩ | ⟨hr, -, hmove⟩
  · exact hs
  have hnf : s.run ≠ .fault := by simp [hr]
  rcases hmove with ⟨c, rfl⟩ | ⟨-, -, rfl⟩ | ⟨i, w, hp, -, he, rfl, -⟩
  · exact hs.raise c
  · exact hs.finish hnf
  · obtain ⟨hpc, -, hc, -⟩ := he.control
    exact (he.inv hs).advance (hc.run ▸ hnf) (hpc ▸ hp)

theorem CoreTurn.inv (h : CoreTurn s t) (hs : s.Inv) : t.Inv := by
  rcases h with ⟨-, rfl⟩ | ⟨rest, -, rfl⟩
  · exact hs
  · exact hs.hostFields _ _ _ rest _

/-! ## The host's move and reset -/

theorem State.Inv.ctrlClear (h : s.Inv) (bit : Bool) : (s.ctrlClear bit).Inv := by
  cases bit
  · exact h
  · exact h.clear

theorem State.Inv.ctrlZeroize (h : s.Inv) (bit : Bool) : (s.ctrlZeroize bit).Inv := by
  cases bit
  · exact h
  · exact h.wipeRegs.zeroDmem

/-- A start leaves from IDLE or DONE only (R33). -/
theorem State.Inv.ctrlStart (h : s.Inv) (bit : Bool) : (s.ctrlStart bit).Inv := by
  unfold State.ctrlStart
  split
  · rename_i hb
    exact h.start fun hf => by simp [hf] at hb
  · exact h

theorem State.Inv.ctrlWrite (h : s.Inv) (data : Cmd) : (s.ctrlWrite data).Inv := by
  unfold State.ctrlWrite
  split
  · exact h
  · exact ((h.ctrlClear _).ctrlZeroize _).ctrlStart _

theorem State.Inv.hostWrite (h : s.Inv) (offset bits : Nat) (data : Cmd) : (s.hostWrite offset bits data).Inv := by
  rcases s.hostWrite_cases offset bits data with
    e | ⟨-, -, e⟩ | ⟨-, e⟩ | e | e | ⟨-, k, hk, e⟩ | ⟨-, a, ha, e⟩ <;> rw [e]
  · exact h
  · exact h.ctrlWrite data
  · exact h.hostFields _ _ _ _ _
  · exact h.hostFields _ _ _ _ _
  · exact h.hostFields _ _ _ _ _
  · exact h.setImem hk data
  · exact h.memWrite ha _

theorem State.Inv.hostAct (h : s.Inv) (a : HostAccess) : (s.hostAct a).Inv := by
  cases a with
  | read offset bits => exact h.hostFields _ _ _ _ _
  | write offset bits data => exact h.hostWrite offset bits data

theorem State.point_reset (i : PReg) : State.reset.point i = PointReg.zero := State.point_wipeRegs State.reset i

/-- Settles O46: the registers after reset are those of a wipe, and nothing is listed in the memories. -/
theorem invariantAtReset : Obligations.InvariantAtReset where
  pc_le := by decide
  err_iff := by decide
  err_le := by decide
  epc_fault := nofun
  epc_zero _ := rfl
  infinity i := by rw [State.point_reset]; exact PointReg.canonical_zero
  imem := State.wf_reset.1
  dmem := State.wf_reset.2

theorem State.inv_resetEvent (s : State) : s.resetEvent.Inv :=
  have h := invariantAtReset
  ⟨h.pc_le, h.err_iff, h.err_le, h.epc_fault, h.epc_zero, h.infinity, h.imem, h.dmem⟩

/-- Settles O47: the core's move, a host access and reset each keep the invariant, and there is no other step. -/
theorem stepKeepsInvariant : Obligations.StepKeepsInvariant := by
  intro s t hs h
  rcases step_cases h with ⟨u, hu, hm⟩ | ⟨a, rest, -, rfl⟩ | ⟨rest, -, rfl⟩
  · exact coreMove_inv hm (hu.inv hs)
  · exact (hs.hostFields _ _ _ rest _).hostAct a
  · exact State.inv_resetEvent _

end Sys2Proof.Machine
end

section
/-! PROOFS. What no command touches (R21, R23, R65, R195, R196). -/

namespace Sys2Proof.Machine

variable {s t : State} {i : Instr}

/-- What a command that answers a next state has done. -/
theorem exec_next_cases (h : exec i s = .next t) :
    (∃ c, t = s.raise c) ∨ (i = .endRun ∧ t = s.finish) ∨ ∃ w, Effect s w i ∧ t = w.advance := by
  rcases exec_cases i s with ⟨c, e⟩ | ⟨hi, e⟩ | ⟨w, e, hw⟩ <;> obtain rfl := Host.Outcome.next.inj (h.symm.trans e)
  · exact .inl ⟨c, rfl⟩
  · exact .inr (.inl ⟨hi, rfl⟩)
  · exact .inr (.inr ⟨w, hw, rfl⟩)

/-- The commands that write an element register (R21). -/
def elemWriters : List String :=
  ["MOV", "LD", "LDC", "FADD", "FSUB", "FMUL", "FMMUL", "FINV", "FEQ", "FRED", "SADD", "SSUB", "SMUL",
    "SMMUL", "SINV", "SEQ", "SRED", "PGETX", "PGETY", "PISINF", "PEQ", "WIPE"]

/-- The commands that write a point register (R23). -/
def pointWriters : List String := ["PSET", "PINF", "PLDG", "PMOV", "PDBL", "PADD", "PMUL", "WIPE"]

theorem Effect.sameElems (h : Effect s t i) (hi : i.mnemonic ∉ elemWriters) : SameElems s t := by
  cases i with
  | endRun => exact h.elim
  | nop | fchk _ | schk _ | pchk _ => obtain rfl : t = s := h; exact fun _ => rfl
  | st _ _ => obtain ⟨-, rfl⟩ := h; exact fun r => s.elem_memWrite _ _ _ r
  | pmov _ _ => obtain ⟨-, rfl⟩ := h; exact fun _ => rfl
  | pset _ _ _ | pinf _ | pldg _ | pdbl _ _ | padd _ _ _ | pmul _ _ _ => obtain ⟨-, P, -, rfl⟩ := h; exact fun _ => rfl
  | _ => exact absurd (by simp [Instr.mnemonic, elemWriters]) hi

theorem Effect.samePoints (h : Effect s t i) (hi : i.mnemonic ∉ pointWriters) : SamePoints s t := by
  cases i with
  | endRun => exact h.elim
  | nop | fchk _ | schk _ | pchk _ => obtain rfl : t = s := h; exact fun _ => rfl
  | st _ _ => obtain ⟨-, rfl⟩ := h; exact fun r => s.point_memWrite _ _ _ r
  | wipe | pmov _ _ | pset _ _ _ | pinf _ | pldg _ | pdbl _ _ | padd _ _ _ | pmul _ _ _ =>
    exact absurd (by simp [Instr.mnemonic, pointWriters]) hi
  | _ => obtain ⟨v, rfl⟩ := h; exact fun _ => rfl

/-- Only `ST` writes DMEM (R65). -/
theorem Effect.dmem_eq (h : Effect s t i) (hi : i.mnemonic ≠ "ST") : t.dmem = s.dmem := by
  rcases h.cases with rfl | ⟨-, rfl⟩ | ⟨d, v, rfl⟩ | ⟨d, P, -, rfl⟩ | ⟨slot, a, rfl, -, -⟩
  case inr.inr.inr.inr => exact absurd rfl hi
  all_goals rfl

/-- Every command but `WIPE` writes at most one register of each file. -/
theorem Effect.writes_at_most_one (h : Effect s t i) (hi : i.mnemonic ≠ "WIPE") :
    (∃ d, ∀ r, r ≠ d → t.elem r = s.elem r) ∧ ∃ d, ∀ r, r ≠ d → t.point r = s.point r := by
  rcases h.cases with rfl | ⟨rfl, -⟩ | ⟨d, v, rfl⟩ | ⟨d, P, -, rfl⟩ | ⟨slot, a, -, -, rfl⟩
  · exact ⟨⟨0, fun _ _ => rfl⟩, 0, fun _ _ => rfl⟩
  · exact absurd rfl hi
  · exact ⟨⟨d, fun _ hr => s.elem_setElem_other v hr⟩, 0, fun _ _ => rfl⟩
  · exact ⟨⟨0, fun _ _ => rfl⟩, d, fun _ hr => s.point_setPoint_other P hr⟩
  · exact ⟨⟨0, fun r _ => s.elem_memWrite _ _ _ r⟩, 0, fun r _ => s.point_memWrite _ _ _ r⟩

/-- Settles O43: a fault and `END` write control registers only, and a completed command has its one write. -/
theorem commandsStayInTheirState : Obligations.CommandsStayInTheirState := by
  intro i s t h
  rcases exec_next_cases h with ⟨c, rfl⟩ | ⟨rfl, rfl⟩ | ⟨w, hw, rfl⟩
  · exact ⟨rfl, rfl, rfl, ⟨rfl, rfl, rfl⟩, fun _ => rfl, fun _ => by simp, fun _ _ => rfl, fun _ _ => rfl,
      fun _ => ⟨⟨0, fun _ _ => rfl⟩, 0, fun _ _ => rfl⟩⟩
  · exact ⟨rfl, rfl, rfl, ⟨rfl, rfl, rfl⟩, fun _ => rfl, fun hne => absurd rfl hne, fun _ _ => rfl, fun _ _ => rfl,
      fun _ => ⟨⟨0, fun _ _ => rfl⟩, 0, fun _ _ => rfl⟩⟩
  · obtain ⟨-, himem, hc, ho⟩ := hw.control
    exact ⟨himem, hc.startPc, hc.intrEn, ⟨ho.epoch, ho.agenda, ho.rdata⟩, hw.dmem_eq,
      fun _ => congrArg (BitVec.getLsbD · 0) hc.intrState, hw.sameElems, hw.samePoints, hw.writes_at_most_one⟩

end Sys2Proof.Machine
end

section
/-! PROOFS. The only steps that change `pc` and `run` (R26, R28, R99, R190). -/

namespace Sys2Proof.Machine

variable {s t u : State}

/-- A host access writes `CTRL`, or changes neither `pc` nor `run`. -/
theorem State.hostAct_pc_run (s : State) (a : HostAccess) :
    (∃ data, a = .write 0 32 data ∧ s.hostAct a = s.ctrlWrite data) ∨
      (s.hostAct a).pc = s.pc ∧ (s.hostAct a).run = s.run := by
  cases a with
  | read offset bits => exact .inr ⟨rfl, rfl⟩
  | write offset bits data =>
    rcases s.hostWrite_cases offset bits data with
      e | ⟨rfl, rfl, e⟩ | ⟨-, e⟩ | e | e | ⟨-, k, -, e⟩ | ⟨-, a, -, e⟩
    case inr.inl => exact .inl ⟨data, rfl, e⟩
    all_goals exact .inr (by rw [State.hostAct, e]; exact ⟨rfl, rfl⟩)

/-- A command that completes is not `END`. -/
theorem Effect.ne_endRun {i : Instr} (h : Effect s t i) : i ≠ .endRun := by
  rintro rfl
  exact h

/-- The core's turn changes `pc` only by completing a command. -/
theorem CoreTurn.pc_eq_or_commandCompleted (hu : CoreTurn s u) (h : coreMove u = .next t) :
    t.pc = s.pc ∨ CommandCompleted s t := by
  obtain ⟨hrun, hpc, -, hword⟩ := hu.same
  rcases coreMove_cases h with ⟨-, rfl⟩ | ⟨hr, -, ⟨c, rfl⟩ | ⟨-, -, rfl⟩ | ⟨i, w, hp, hd, hw, rfl, he⟩⟩
  · exact .inl hpc
  · exact .inl hpc
  · exact .inl hpc
  · obtain ⟨hwpc, -, hc, -⟩ := hw.control
    rw [hword, hpc] at hd
    exact .inr ⟨u, i, hu, hrun ▸ hr, hpc ▸ hp, hd, hw.ne_endRun, he, hc.run.trans hr, by simp [hwpc, hpc]⟩

/-- Settles O49: by whose move the step is. -/
theorem onlyThreeEventsChangePc : Obligations.OnlyThreeEventsChangePc := by
  intro s t h hne
  rcases step_cases h with ⟨u, hu, hm⟩ | ⟨a, rest, hag, rfl⟩ | ⟨rest, hag, rfl⟩
  · exact .inl ((hu.pc_eq_or_commandCompleted hm).resolve_left hne)
  · rcases State.hostAct_pc_run { s with agenda := rest } a with ⟨data, rfl, e⟩ | ⟨e, -⟩
    · rw [e] at hne ⊢
      obtain ⟨hr, hstart, -, hpc, hrun⟩ := (State.ctrlWrite_pc { s with agenda := rest } data).resolve_left hne
      exact .inr (.inl ⟨hr, hrun, hpc, data, rest, hag, hstart⟩)
    · exact absurd e hne
  · exact .inr (.inr ⟨rfl, rfl, rest, hag⟩)

/-- The core's turn leaves BUSY only by `END` or by a fault. -/
theorem CoreTurn.run_of_busy (hu : CoreTurn s u) (h : coreMove u = .next t) (hs : s.run = .busy) :
    t.run = .busy ∨ (t.run = .done ∧ decode (s.imemWord s.pc.toNat) = .ok .endRun) ∨
      ∃ c, t.run = .fault ∧ t.err = Cause.code c := by
  obtain ⟨hrun, hpc, -, hword⟩ := hu.same
  rcases coreMove_cases h with ⟨hr, -⟩ | ⟨hr, -, ⟨c, rfl⟩ | ⟨-, hd, rfl⟩ | ⟨i, w, -, -, hw, rfl, -⟩⟩
  · exact absurd (hrun.trans hs) hr
  · exact .inr (.inr ⟨c, rfl, rfl⟩)
  · rw [hword, hpc] at hd
    exact .inr (.inl ⟨rfl, hd⟩)
  · obtain ⟨-, -, hc, -⟩ := hw.control
    exact .inl (hc.run.trans hr)

/-- The core's turn changes no other run state. -/
theorem CoreTurn.run_of_not_busy (hu : CoreTurn s u) (h : coreMove u = .next t) (hs : s.run ≠ .busy) :
    t.run = s.run := by
  obtain ⟨hrun, -⟩ := hu.same
  rw [coreMove_stopped (hrun ▸ hs)] at h
  rw [← Host.Outcome.next.inj h, hrun]

/-- A host access changes `run` only by a `CTRL` write, and not while BUSY. -/
theorem State.hostAct_run (s : State) (a : HostAccess) :
    (s.hostAct a).run = s.run ∨ s.run ≠ .busy ∧ ∃ data, a = .write 0 32 data ∧
      ((s.hostAct a).run = .busy ∧ data.getLsbD 0 = true ∧ (s.run = .fault → data.getLsbD 1 = true) ∨
        (s.hostAct a).run = .idle ∧ data.getLsbD 1 = true) := by
  rcases s.hostAct_pc_run a with ⟨data, rfl, e⟩ | ⟨-, e⟩
  · rw [e]
    exact (s.ctrlWrite_run data).imp_right fun ⟨hr, hc⟩ => ⟨hr, data, rfl, hc⟩
  · exact .inl e

/-- Settles O50: by whose move the step is. -/
theorem runStateTransitions : Obligations.RunStateTransitions := by
  intro s t h
  rcases step_cases h with ⟨u, hu, hm⟩ | ⟨a, rest, hag, rfl⟩ | ⟨rest, hag, rfl⟩
  · refine ⟨fun hr hne => ?_, fun hr hne => absurd (hu.run_of_not_busy hm hr) hne⟩
    exact ((hu.run_of_busy hm hr).resolve_left hne).imp_right .inl
  · have key := State.hostAct_run { s with agenda := rest } a
    refine ⟨fun hr hne => ?_, fun _ hne => ?_⟩
    · exact absurd (key.resolve_right fun k => k.1 hr) (hr ▸ hne)
    · obtain ⟨-, data, rfl, hc⟩ := key.resolve_left hne
      exact .inl ⟨data, rest, hag, hc⟩
  · exact ⟨fun _ _ => .inr (.inr ⟨rfl, rest, hag⟩), fun _ _ => .inr ⟨rfl, rest, hag⟩⟩

end Sys2Proof.Machine
end

section
/-! PROOFS. `CTRL` writes (R33 to R36). -/

namespace Sys2Proof.Machine

variable {s : State} {rest : List Turn}

/-! ## The parts of a `CTRL` write -/

theorem step_of_ctrlWrite {data : Cmd} (h : s.agenda = .host (.write 0 32 data) :: rest) :
    step s = .next (State.ctrlWrite { s with agenda := rest } data) := step_of_host h

theorem State.ctrlWrite_busy (h : s.run = .busy) (data : Cmd) : s.ctrlWrite data = s := by
  rw [State.ctrlWrite, if_pos (State.isBusy_of h)]

theorem State.ctrlWrite_of_not_busy (h : s.run ≠ .busy) (data : Cmd) :
    s.ctrlWrite data =
      ((s.ctrlClear (data.getLsbD 1)).ctrlZeroize (data.getLsbD 2)).ctrlStart (data.getLsbD 0) := by
  simp [State.ctrlWrite, State.not_isBusy_of h]

@[simp] theorem State.ctrlClear_false (s : State) : s.ctrlClear false = s := rfl
@[simp] theorem State.ctrlClear_true (s : State) : s.ctrlClear true = s.clear := rfl
@[simp] theorem State.ctrlZeroize_false (s : State) : s.ctrlZeroize false = s := rfl
@[simp] theorem State.ctrlZeroize_true (s : State) : s.ctrlZeroize true = s.wipeRegs.zeroDmem := rfl
@[simp] theorem State.ctrlStart_false (s : State) : s.ctrlStart false = s := rfl

theorem State.ctrlStart_true (h : s.run = .idle ∨ s.run = .done) : s.ctrlStart true = s.start := by
  simp [State.ctrlStart, h]

/-- `START` is ignored in FAULT (R33). -/
theorem State.ctrlStart_fault (h : s.run = .fault) (bit : Bool) : s.ctrlStart bit = s := by
  simp [State.ctrlStart, h]

theorem State.ctrlClear_not_busy (h : s.run ≠ .busy) (bit : Bool) : (s.ctrlClear bit).run ≠ .busy := by
  cases bit
  · exact h
  · simp

theorem State.ctrlZeroize_not_busy (h : s.run ≠ .busy) (bit : Bool) : (s.ctrlZeroize bit).run ≠ .busy := by
  cases bit
  · exact h
  · simpa using h

/-! ## A write of one bit alone -/

/-- With `CLEAR` and `ZEROIZE` low, a write acts as its `START` bit. -/
theorem State.ctrlWrite_start (h : s.run ≠ .busy) {data : Cmd} (h1 : data.getLsbD 1 = false)
    (h2 : data.getLsbD 2 = false) : s.ctrlWrite data = s.ctrlStart (data.getLsbD 0) := by
  rw [State.ctrlWrite_of_not_busy h, h1, h2, State.ctrlClear_false, State.ctrlZeroize_false]

/-- With `ZEROIZE` and `START` low, a write acts as its `CLEAR` bit. -/
theorem State.ctrlWrite_clear (h : s.run ≠ .busy) {data : Cmd} (h0 : data.getLsbD 0 = false)
    (h2 : data.getLsbD 2 = false) : s.ctrlWrite data = s.ctrlClear (data.getLsbD 1) := by
  rw [State.ctrlWrite_of_not_busy h, h0, h2, State.ctrlZeroize_false, State.ctrlStart_false]

/-- With `CLEAR` and `START` low, a write acts as its `ZEROIZE` bit. -/
theorem State.ctrlWrite_zeroize (h : s.run ≠ .busy) {data : Cmd} (h0 : data.getLsbD 0 = false)
    (h1 : data.getLsbD 1 = false) : s.ctrlWrite data = s.ctrlZeroize (data.getLsbD 2) := by
  rw [State.ctrlWrite_of_not_busy h, h0, h1, State.ctrlClear_false, State.ctrlStart_false]

/-- `START` alone: from IDLE or DONE a start, in FAULT and while BUSY nothing (R33). -/
theorem State.ctrlWrite_start_alone {data : Cmd} (h0 : data.getLsbD 0 = true) (h1 : data.getLsbD 1 = false)
    (h2 : data.getLsbD 2 = false) :
    (s.run = .idle ∨ s.run = .done → s.ctrlWrite data = s.start) ∧
      (s.run = .fault ∨ s.run = .busy → s.ctrlWrite data = s) := by
  refine ⟨fun hr => ?_, fun hr => ?_⟩
  · have hnb : s.run ≠ .busy := by rcases hr with hr | hr <;> simp [hr]
    rw [State.ctrlWrite_start hnb h1 h2, h0, State.ctrlStart_true hr]
  · rcases hr with hr | hr
    · rw [State.ctrlWrite_start (by simp [hr]) h1 h2, State.ctrlStart_fault hr]
    · exact State.ctrlWrite_busy hr data

/-- Settles O51: `START` alone is `State.start` or nothing, and `CLEAR` alone is `State.clear`. -/
theorem ctrlStartAndClear : Obligations.CtrlStartAndClear := by
  intro s rest data hag h2
  rw [step_of_ctrlWrite hag]
  refine ⟨fun h0 h1 => ?_, fun h1 h0 hr => congrArg Host.Outcome.next ?_⟩
  · obtain ⟨starts, ignored⟩ := State.ctrlWrite_start_alone (s := { s with agenda := rest }) h0 h1 h2
    exact ⟨fun hr => congrArg Host.Outcome.next (starts hr), fun hr => congrArg Host.Outcome.next (ignored hr)⟩
  · exact (State.ctrlWrite_clear (s := { s with agenda := rest }) hr h0 h2).trans (by rw [h1]; rfl)

/-- Settles O52: `ZEROIZE` alone is a wipe of the registers and a fill of DMEM with zeros. -/
theorem ctrlZeroizeWipes : Obligations.CtrlZeroizeWipes := by
  intro s rest data hag hr h2 h0 h1
  refine ⟨State.wipeRegs { s with agenda := rest } |>.zeroDmem, ?_, fun i => ?_, fun i _ => ?_, fun a ha => ?_,
    ⟨rfl, rfl, rfl, rfl, rfl, rfl⟩, rfl, fun _ => rfl, rfl, rfl, rfl⟩
  · rw [step_of_ctrlWrite hag, State.ctrlWrite_zeroize (s := { s with agenda := rest }) hr h0 h1, h2,
      State.ctrlZeroize_true]
  · rw [State.elem_zeroDmem, State.elem_wipeRegs]
  · rw [State.point_zeroDmem, State.point_wipeRegs, PointReg.zero]
  · exact State.dmemByte_zeroDmem _ a ha

/-- A write of several bits is three writes of one bit, `CLEAR` first and `START` last (R36). -/
theorem State.ctrlWrite_eq_three_writes (h : s.run ≠ .busy) (data : Cmd) :
    s.ctrlWrite data = ((s.ctrlWrite (data &&& 2)).ctrlWrite (data &&& 4)).ctrlWrite (data &&& 1) := by
  have hc := State.ctrlClear_not_busy h (data.getLsbD 1)
  have hz := State.ctrlZeroize_not_busy hc (data.getLsbD 2)
  have clear : s.ctrlWrite (data &&& 2) = s.ctrlClear (data.getLsbD 1) := by
    rw [State.ctrlWrite_clear h (by simp) (by simp)]; simp
  have zeroize : (s.ctrlClear (data.getLsbD 1)).ctrlWrite (data &&& 4) =
      (s.ctrlClear (data.getLsbD 1)).ctrlZeroize (data.getLsbD 2) := by
    rw [State.ctrlWrite_zeroize hc (by simp) (by simp)]; simp
  rw [clear, zeroize, State.ctrlWrite_start hz (by simp) (by simp), State.ctrlWrite_of_not_busy h]
  simp

/-- Settles O53: from the lemma on three writes; `0x3` in FAULT clears first, so that the start leaves from IDLE. -/
theorem ctrlBitsActInOrder : Obligations.CtrlBitsActInOrder := by
  intro s rest data hag
  rw [step_of_ctrlWrite hag]
  refine ⟨fun hr => ?_, fun hr hd => ?_, fun hr => ?_⟩
  · rw [State.ctrlWrite_busy (s := { s with agenda := rest }) hr]
  · have hnb : s.run ≠ .busy := by simp [hr]
    rw [hd, State.ctrlWrite_of_not_busy (s := { s with agenda := rest }) hnb]
    rfl
  · exact congrArg Host.Outcome.next (State.ctrlWrite_eq_three_writes (s := { s with agenda := rest }) hr data)

end Sys2Proof.Machine
end

section
/-! PROOFS. Host turns and the other control registers (R29 to R32, R58, R63, R194). -/

namespace Sys2Proof.Machine

/-- `irq` is the level of the enabled interrupts (R32, R194). -/
theorem State.irq_iff (s : State) :
    s.irq = true ↔ ∃ j, j < 2 ∧ s.intrState.getLsbD j = true ∧ s.intrEn.getLsbD j = true := by
  have hne : s.irq = true ↔ ∃ j, (s.intrState &&& s.intrEn).getLsbD j = true := by
    simp [State.irq, BitVec.zero_iff_eq_false]
  rw [hne]
  refine exists_congr fun j => ?_
  rw [BitVec.getLsbD_and, Bool.and_eq_true]
  exact ⟨fun h => ⟨BitVec.lt_of_getLsbD h.1, h⟩, And.right⟩

/-- A write of `INTR_STATE` clears the bits written as 1 (R31). -/
theorem State.hostWrite_intrState (s : State) (data : Cmd) :
    s.hostWrite 0x18 32 data = { s with intrState := s.intrState &&& ~~~(data.setWidth 2) } := rfl

/-- Settles O56: from what the write stores and the reading of `irq`. -/
theorem intrStateWriteOneToClear : Obligations.IntrStateWriteOneToClear := by
  intro s rest data hag
  refine ⟨_, (step_of_host hag).trans (congrArg _ (State.hostWrite_intrState _ data)), fun j hj => ?_,
    State.irq_iff _, rfl⟩
  simp [hj]

/-- `STATUS` has one bit per run state, none for IDLE (R29). -/
theorem State.status_toNat (s : State) :
    s.status.toNat =
      (if s.run = .busy then 1 else 0) + (if s.run = .done then 2 else 0) + (if s.run = .fault then 4 else 0) := by
  unfold State.status
  cases s.run <;> rfl

/-- Settles O58: each access is the window's, at its register. -/
theorem hostTurnsAndControlRegisters : Obligations.HostTurnsAndControlRegisters := by
  refine ⟨fun s rest offset bits data => ⟨step_of_host, step_of_host⟩, fun s data => ?_⟩
  refine ⟨rfl, s.status_toNat, BitVec.toNat_setWidth_of_le (b := s.err) (by decide),
    BitVec.toNat_setWidth_of_le (b := s.epc) (by decide), BitVec.toNat_setWidth_of_le (b := s.startPc) (by decide),
    BitVec.toNat_setWidth_of_le (b := s.intrEn) (by decide), BitVec.toNat_setWidth_of_le (b := s.intrState) (by decide),
    rfl, fun hr => ?_, rfl, rfl, rfl⟩
  rw [State.hostWrite_word s data (by decide) (by decide)]
  simp [region, State.regionWrite, State.not_isBusy_of hr, BitVec.setWidth_eq_extractLsb']

end Sys2Proof.Machine
end

section
/-! PROOFS. The state after reset (R39, R194, R210). -/

namespace Sys2Proof.Machine

/-- The reset state with any memory content, whatever the outside world does next: what reset and power-up leave. -/
def State.resetWith (epoch : Nat) (agenda : List Turn) (rdata : Cmd) : State :=
  { State.reset with epoch := epoch, agenda := agenda, rdata := rdata }

theorem eq_resetWith {t : State}
    (h : t = State.reset ∨ (∃ e, t = State.powerUp e) ∨ ∃ s rest, s.agenda = .reset :: rest ∧ step s = .next t) :
    ∃ e a r, t = State.resetWith e a r := by
  rcases h with rfl | ⟨e, rfl⟩ | ⟨s, rest, hag, hstep⟩
  · exact ⟨_, _, _, rfl⟩
  · exact ⟨_, _, _, rfl⟩
  · rw [step_of_reset hag] at hstep
    exact ⟨_, _, _, (Host.Outcome.next.inj hstep).symm⟩

theorem State.elem_resetWith (e : Nat) (a : List Turn) (r : Cmd) (i : EReg) : (State.resetWith e a r).elem i = 0 :=
  State.elem_wipeRegs State.reset i

theorem State.point_resetWith (e : Nat) (a : List Turn) (r : Cmd) (i : PReg) :
    (State.resetWith e a r).point i = PointReg.zero := State.point_reset i

theorem State.irq_resetWith (e : Nat) (a : List Turn) (r : Cmd) : (State.resetWith e a r).irq = false :=
  show ((0 : BitVec 2) &&& 0 != 0) = false by decide

/-- The origin is not on the curve: `b` is not 0 modulo `p`. -/
theorem valid_zero : valid PointReg.zero = false := by decide +kernel

/-- Settles O45: the three ways to a reset leave one form of state, whose fields are read off. -/
theorem resetLeavesR39 : Obligations.ResetLeavesR39 := by
  intro t h
  obtain ⟨e, a, r, rfl⟩ := eq_resetWith h
  refine ⟨State.elem_resetWith e a r, fun i _ => ?_, rfl, rfl, rfl, rfl, rfl, rfl, rfl, rfl,
    State.irq_resetWith e a r, fun _ => rfl, fun _ => rfl⟩
  rw [State.point_resetWith]
  exact ⟨rfl, valid_zero⟩

end Sys2Proof.Machine
end

section
/-! PROOFS. DMEM slots, and the memories as the host sees them (R51, R53, R54, R56, R60 to R62, R95, R96). -/

namespace Sys2Proof.Machine

variable {s s' : State}

/-! ## A slot, loaded and stored -/

theorem exec_ld {slot : Imm} (h : slot.toNat < 128) (d : EReg) (s : State) :
    exec (.ld d slot) s = .next (s.setElem d (word (s.memRead (32 * slot.toNat) 32))).advance :=
  slotOperand_of s h fun addr => toElem d (word (s.memRead addr Config.slotBytes)) s

theorem exec_st {slot : Imm} (h : slot.toNat < 128) (a : EReg) (s : State) :
    exec (.st slot a) s = .next (s.memWrite (32 * slot.toNat) 32 (s.elem a).toNat).advance :=
  slotOperand_of s h fun addr => complete (s.memWrite addr Config.slotBytes (s.elem a).toNat)

@[simp] theorem State.memRead_setElem (i : EReg) (v : Word) (addr n : Nat) :
    (s.setElem i v).memRead addr n = s.memRead addr n := rfl

/-- Storing the value a slot already holds changes no byte. -/
theorem State.dmemByte_memWrite_of_eq_memRead {addr v : Nat} (h : v = s.memRead addr 32) (a : Nat) :
    (s.memWrite addr 32 v).dmemByte a = s.dmemByte a := by
  rw [h, State.dmemByte_memWrite_memRead]

/-- Settles O7: a read after a write of the slot, and a write of what the slot already holds. -/
theorem slotRoundTrip : Obligations.SlotRoundTrip := by
  intro d a slot s h
  refine ⟨⟨_, _, exec_st h a s, exec_ld h d _, ?_⟩, ⟨_, _, exec_ld h d s, exec_st h d _, fun b => ?_⟩⟩
  · rw [State.elem_advance, State.elem_setElem_same, State.memRead_advance, State.memRead_memWrite_word, word,
      BitVec.ofNat_toNat, BitVec.setWidth_eq]
  · have held := toNat_word (s.memRead_lt (32 * slot.toNat))
    rw [State.dmemByte_advance, State.elem_advance, State.elem_setElem_same,
      State.dmemByte_memWrite_of_eq_memRead (by rw [held, State.memRead_advance, State.memRead_setElem]),
      State.dmemByte_advance, State.dmemByte_setElem]

/-! ## Accesses that do nothing -/

/-- The accesses that act on the block (R56). -/
theorem acts_iff {offset bits : Nat} : acts offset bits = true ↔ bits = 32 ∧ offset % 4 = 0 ∧ offset < 0x2000 := by
  simp [acts, and_assoc]

theorem State.hostRead_of_not_acts (s : State) {offset bits : Nat} (h : ¬ acts offset bits = true) :
    s.hostRead offset bits = 0 := if_neg h

theorem State.hostWrite_of_not_acts (s : State) {offset bits : Nat} (data : Cmd) (h : ¬ acts offset bits = true) :
    s.hostWrite offset bits data = s := if_neg h

/-- The two reserved ranges (R60). -/
theorem region_reserved {offset : Nat} (h : (0x1C ≤ offset ∧ offset < 0x400) ∨ (0x800 ≤ offset ∧ offset < 0x1000)) :
    region offset = .reserved := by
  unfold region
  repeat rw [if_neg (by omega)]

/-- Settles O57: the access does not act, or it acts on a reserved offset. -/
theorem inertHostAccesses : Obligations.InertHostAccesses := by
  intro s offset bits data h
  by_cases ha : acts offset bits = true
  · obtain ⟨rfl, h4, hlt⟩ := acts_iff.1 ha
    have hr : region offset = .reserved := region_reserved (by omega)
    rw [State.hostRead_word s h4 hlt, State.hostWrite_word s data h4 hlt, hr]
    exact ⟨rfl, rfl⟩
  · exact ⟨s.hostRead_of_not_acts ha, s.hostWrite_of_not_acts data ha⟩

/-! ## The IMEM and DMEM windows, one word at a time -/

theorem State.hostRead_imem (s : State) {i : Nat} (h : i < 256) :
    s.hostRead (0x400 + 4 * i) 32 = if s.isBusy then 0 else s.imemWord i := by
  rw [State.hostRead_word s (by omega) (by omega), region_imem h, State.regionRead]

theorem State.hostWrite_imem (s : State) {i : Nat} (h : i < 256) (data : Cmd) :
    s.hostWrite (0x400 + 4 * i) 32 data = if s.isBusy then s else s.setImem i data := by
  rw [State.hostWrite_word s data (by omega) (by omega), region_imem h, State.regionWrite]

theorem State.hostRead_dmem (s : State) {a : Nat} (h4 : a % 4 = 0) (h : a < 4096) :
    s.hostRead (0x1000 + a) 32 = if s.isBusy then 0 else BitVec.ofNat 32 (s.memRead a 4) := by
  rw [State.hostRead_word s (by omega) (by omega), region_dmem h, State.regionRead]

theorem State.hostWrite_dmem (s : State) {a : Nat} (h4 : a % 4 = 0) (h : a < 4096) (data : Cmd) :
    s.hostWrite (0x1000 + a) 32 data = if s.isBusy then s else s.memWrite a 4 data.toNat := by
  rw [State.hostWrite_word s data (by omega) (by omega), region_dmem h, State.regionWrite]

/-! ## While BUSY -/

/-- Settles O54: each window word and each of the two registers answers by its BUSY case. -/
theorem busyShutsHostOut : Obligations.BusyShutsHostOut := by
  intro s offset data hr h4
  have hb := State.isBusy_of hr
  refine ⟨?_, ?_⟩
  · rintro (⟨hlo, hhi⟩ | ⟨hlo, hhi⟩)
    · obtain ⟨i, rfl⟩ : ∃ i, offset = 0x400 + 4 * i := ⟨(offset - 0x400) / 4, by omega⟩
      have hi : i < 256 := by omega
      rw [s.hostRead_imem hi, s.hostWrite_imem hi, if_pos hb, if_pos hb]
      exact ⟨rfl, rfl⟩
    · obtain ⟨a, rfl⟩ : ∃ a, offset = 0x1000 + a := ⟨offset - 0x1000, by omega⟩
      have ha4 : a % 4 = 0 := by omega
      have ha : a < 4096 := by omega
      rw [s.hostRead_dmem ha4 ha, s.hostWrite_dmem ha4 ha, if_pos hb, if_pos hb]
      exact ⟨rfl, rfl⟩
  · rintro (rfl | rfl)
    · exact State.ctrlWrite_busy hr data
    · exact if_pos hb

/-- While BUSY what a region answers is a function of `run` and the control registers alone (R61). -/
theorem State.regionRead_congr_of_busy (hr : s.run = .busy) (hc : SameControl s s') (r : Region) :
    s.regionRead r = s'.regionRead r := by
  have hb := State.isBusy_of hr
  have hb' := State.isBusy_of (hc.run.trans hr)
  cases r with
  | ctrl | reserved => rfl
  | status => rw [State.regionRead, State.regionRead, State.status, State.status, hc.run]
  | err => rw [State.regionRead, State.regionRead, hc.err]
  | epc => rw [State.regionRead, State.regionRead, hc.epc]
  | startPc => rw [State.regionRead, State.regionRead, hc.startPc]
  | intrEn => rw [State.regionRead, State.regionRead, hc.intrEn]
  | intrState => rw [State.regionRead, State.regionRead, hc.intrState]
  | imem _ | dmem _ => rw [State.regionRead, State.regionRead, if_pos hb, if_pos hb']

/-- Settles O55: an access that acts reads its region, and every other reads 0. -/
theorem busyReadsRevealNoOperand : Obligations.BusyReadsRevealNoOperand := by
  intro s s' hr hc offset bits
  rw [State.hostRead, State.hostRead, State.regionRead_congr_of_busy hr hc]

/-! ## When not BUSY -/

/-- The `k` bytes in the middle of a big-endian value, with `m` bytes above them and `n` below. -/
theorem be_middle (f : Nat → Byte) (addr m k n : Nat) :
    be f addr (m + (k + n)) / 256 ^ n % 256 ^ k = be f (addr + m) k := by
  have hlow := be_lt f (addr + m + k) n
  have hmid := be_lt f (addr + m) k
  have split : be f addr (m + (k + n)) =
      be f (addr + m + k) n + 256 ^ n * (be f (addr + m) k + 256 ^ k * be f addr m) := by
    rw [be_append, be_append, pow_add]; ring
  rw [split, Nat.add_mul_div_left _ _ (by positivity), Nat.div_eq_of_lt hlow, zero_add, Nat.add_mul_mod_self_left,
    Nat.mod_eq_of_lt hmid]

/-- Word `j` of a slot, most significant first, is bits `255-32j` down to `224-32j` of the slot's value (R53). -/
theorem State.memRead_word_of_slot (s : State) (addr : Nat) {j : Nat} (hj : j < 8) :
    BitVec.ofNat 32 (s.memRead (addr + 4 * j) 4) = (word (s.memRead addr 32)).extractLsb' (224 - 32 * j) 32 := by
  have hmid := be_middle s.dmemByte addr (4 * j) 4 (28 - 4 * j)
  rw [show 4 * j + (4 + (28 - 4 * j)) = 32 by omega] at hmid
  have hpow : 2 ^ (224 - 32 * j) = 256 ^ (28 - 4 * j) := by
    rw [show 224 - 32 * j = 8 * (28 - 4 * j) by omega, pow_mul]; norm_num
  apply BitVec.eq_of_toNat_eq
  rw [BitVec.extractLsb'_toNat, toNat_word (s.memRead_lt addr), Nat.shiftRight_eq_div_pow, hpow, BitVec.toNat_ofNat,
    State.memRead, State.memRead, ← hmid]
  exact Nat.mod_mod _ _

/-- A 32-bit word stored in four bytes reads back. -/
theorem State.memRead_memWrite_cmd (s : State) (addr : Nat) (data : Cmd) :
    BitVec.ofNat 32 ((s.memWrite addr 4 data.toNat).memRead addr 4) = data := by
  rw [State.memRead_memWrite, Nat.mod_eq_of_lt (lt_of_lt_of_eq data.isLt (by norm_num)), BitVec.ofNat_toNat,
    BitVec.setWidth_eq]

/-- Settles O59: the window word is word `j` of the slot, and a write there is a store of its four bytes. -/
theorem hostDmemWordIsBigEndian : Obligations.HostDmemWordIsBigEndian := by
  intro s slot j data hr hslot hj
  have hb : ¬ s.isBusy = true := by simp [State.not_isBusy_of hr]
  have h4 : (32 * slot.toNat + 4 * j) % 4 = 0 := by omega
  have hlt : 32 * slot.toNat + 4 * j < 4096 := by omega
  rw [Nat.add_assoc, s.hostWrite_dmem h4 hlt, if_neg hb]
  refine ⟨fun d t ht => ?_, ?_, fun a ha => ?_, fun _ => rfl, fun _ => rfl, fun _ => rfl,
    ⟨rfl, rfl, rfl, rfl, rfl, rfl⟩, rfl, ⟨rfl, rfl, rfl⟩⟩
  · obtain rfl := Host.Outcome.next.inj ((exec_ld hslot d s).symm.trans ht)
    rw [s.hostRead_dmem h4 hlt, if_neg hb, State.elem_advance, State.elem_setElem_same, s.memRead_word_of_slot _ hj]
  · exact (State.hostRead_dmem _ h4 hlt).trans ((if_neg hb).trans (s.memRead_memWrite_cmd _ data))
  · rw [State.dmemByte_memWrite, if_neg (by omega)]

/-- Settles O60: a write there is a store to IMEM word `i`. -/
theorem hostWritesCommandWord : Obligations.HostWritesCommandWord := by
  intro s i data hr hi
  have hb : ¬ s.isBusy = true := by simp [State.not_isBusy_of hr]
  have same : (s.setImem i data).imemWord i = data := by rw [State.imemWord_setImem, if_pos rfl]
  rw [s.hostWrite_imem hi, if_neg hb]
  refine ⟨same, ?_, fun k hk => ?_, fun _ => rfl, fun _ => rfl, fun _ => rfl,
    ⟨rfl, rfl, rfl, rfl, rfl, rfl⟩, rfl, ⟨rfl, rfl, rfl⟩⟩
  · exact (State.hostRead_imem _ hi).trans ((if_neg hb).trans same)
  · rw [State.imemWord_setImem, if_neg hk]

end Sys2Proof.Machine
end

section
/-! PROOFS. Decoding and encoding undo each other (R70, R71, R74, R75, R77, R80). -/

namespace Sys2Proof

variable {f : Fields} {i : Instr} {w : Cmd}

/-- Format by format: the fields of a legal command pass the checks of its own form. -/
theorem decodeFields_encodeFields (h : i.wf = true) : decodeFields (encodeFields i) = .ok i := by
  cases i with
  | nop | endRun | wipe => exact formN_eq_ok.2 ⟨⟨rfl, rfl, rfl, rfl⟩, rfl⟩
  | mov _ _ | finv _ _ | sinv _ _ => exact formEE_eq_ok.2 ⟨⟨rfl, rfl⟩, rfl⟩
  | fadd _ _ _ | fsub _ _ _ | fmul _ _ _ | fmmul _ _ _ | feq _ _ _ | fred _ _ _
  | sadd _ _ _ | ssub _ _ _ | smul _ _ _ | smmul _ _ _ | seq _ _ _ | sred _ _ _ => exact formEEE_eq_ok.2 ⟨rfl, rfl⟩
  | fchk _ | schk _ => exact formA_eq_ok.2 ⟨⟨rfl, rfl, rfl⟩, rfl⟩
  | ld _ _ => exact formLD_eq_ok.2 ⟨⟨rfl, rfl⟩, rfl⟩
  | st _ _ => exact formST_eq_ok.2 ⟨⟨rfl, rfl⟩, rfl⟩
  | ldc _ _ => exact formLDC_eq_ok.2 ⟨⟨rfl, rfl, h⟩, rfl⟩
  | pset _ _ _ => exact formPEE_eq_ok.2 ⟨⟨rfl, h⟩, rfl⟩
  | pinf _ | pldg _ => exact formPD_eq_ok.2 ⟨⟨rfl, rfl, rfl, h⟩, rfl⟩
  | pmov _ _ | pdbl _ _ => exact formPP_eq_ok.2 ⟨⟨rfl, rfl, Bool.and_eq_true_iff.1 h⟩, rfl⟩
  | pgetx _ _ | pgety _ _ | pisinf _ _ => exact formEP_eq_ok.2 ⟨⟨rfl, rfl, h⟩, rfl⟩
  | pchk _ => exact formPA_eq_ok.2 ⟨⟨rfl, rfl, rfl, h⟩, rfl⟩
  | padd _ _ _ =>
    obtain ⟨hda, hb⟩ := Bool.and_eq_true_iff.1 h
    obtain ⟨hd, ha⟩ := Bool.and_eq_true_iff.1 hda
    exact formPPP_eq_ok.2 ⟨⟨rfl, hd, ha, hb⟩, rfl⟩
  | pmul _ _ _ => exact formPEP_eq_ok.2 ⟨⟨rfl, Bool.and_eq_true_iff.1 h⟩, rfl⟩
  | peq _ _ _ => exact formEPP_eq_ok.2 ⟨⟨rfl, Bool.and_eq_true_iff.1 h⟩, rfl⟩

/-- A form accepts only fields whose unused ones are zero and whose point and index fields are legal, and its command
holds the others: nothing of the fields is lost. -/
theorem encodeFields_of_decodeFields (h : decodeFields f = .ok i) : i.wf = true ∧ encodeFields i = f := by
  unfold decodeFields at h
  split at h
  case h_36 => cases h
  all_goals
    simp only [formN_eq_ok, formEE_eq_ok, formEEE_eq_ok, formA_eq_ok, formLD_eq_ok, formST_eq_ok, formLDC_eq_ok,
      formPEE_eq_ok, formPD_eq_ok, formPP_eq_ok, formEP_eq_ok, formPA_eq_ok, formPPP_eq_ok, formPEP_eq_ok,
      formEPP_eq_ok] at h
    obtain ⟨hfields, rfl⟩ := h
    simp [Instr.wf, encodeFields, Instr.opcode, Fields.ext_iff, *]

/-- The decoder and the encoder, said once: a word decodes to a command exactly when the command is legal and the word
is its own. -/
theorem decode_eq_ok_iff : decode w = .ok i ↔ i.wf = true ∧ encode i = w := by
  constructor
  · intro h
    obtain ⟨hwf, henc⟩ := encodeFields_of_decodeFields h
    exact ⟨hwf, by rw [encode, henc, wordOf_fieldsOf]⟩
  · rintro ⟨hwf, rfl⟩
    rw [decode, encode, fieldsOf_wordOf, decodeFields_encodeFields hwf]

/-- Settles O33: the backward direction of `decode_eq_ok_iff`. -/
theorem decodeEncode : Obligations.DecodeEncode := fun _ hwf => decode_eq_ok_iff.2 ⟨hwf, rfl⟩

/-- Settles O34: the forward direction of `decode_eq_ok_iff`. -/
theorem encodeDecode : Obligations.EncodeDecode := fun _ _ => decode_eq_ok_iff.1

/-- Settles O36: each legal word is the word of its command; each illegal one is decoded. -/
theorem sampleWordsDecode : Obligations.SampleWordsDecode :=
  ⟨decode_eq_ok_iff.2 (by decide), decode_eq_ok_iff.2 (by decide), decode_eq_ok_iff.2 (by decide),
    decode_eq_ok_iff.2 (by decide), decode_eq_ok_iff.2 (by decide), decode_eq_ok_iff.2 (by decide),
    decode_eq_ok_iff.2 (by decide), rfl, rfl, rfl, rfl, rfl⟩

end Sys2Proof
end

section
/-! PROOFS. The decoder and the opcode table (R74, R75, R79). -/

namespace Sys2Proof

open Laws

variable {f : Fields} {i : Instr} {w : Cmd} {r r' : OpRow}

/-! ## From a command to its row -/

theorem encode_fitsRow : ∀ i : Instr, EncodeFitsRow.Statement i
  | .nop => EncodeFitsRow.nop
  | .endRun => EncodeFitsRow.endRun
  | .wipe => EncodeFitsRow.wipe
  | .mov d a => EncodeFitsRow.mov d a
  | .ld d slot => EncodeFitsRow.ld d slot
  | .st slot a => EncodeFitsRow.st slot a
  | .ldc d index => EncodeFitsRow.ldc d index
  | .fadd d a b => EncodeFitsRow.fadd d a b
  | .fsub d a b => EncodeFitsRow.fsub d a b
  | .fmul d a b => EncodeFitsRow.fmul d a b
  | .fmmul d a b => EncodeFitsRow.fmmul d a b
  | .finv d a => EncodeFitsRow.finv d a
  | .feq d a b => EncodeFitsRow.feq d a b
  | .fchk a => EncodeFitsRow.fchk a
  | .fred d a b => EncodeFitsRow.fred d a b
  | .sadd d a b => EncodeFitsRow.sadd d a b
  | .ssub d a b => EncodeFitsRow.ssub d a b
  | .smul d a b => EncodeFitsRow.smul d a b
  | .smmul d a b => EncodeFitsRow.smmul d a b
  | .sinv d a => EncodeFitsRow.sinv d a
  | .seq d a b => EncodeFitsRow.seq d a b
  | .schk a => EncodeFitsRow.schk a
  | .sred d a b => EncodeFitsRow.sred d a b
  | .pset d a b => EncodeFitsRow.pset d a b
  | .pinf d => EncodeFitsRow.pinf d
  | .pldg d => EncodeFitsRow.pldg d
  | .pmov d a => EncodeFitsRow.pmov d a
  | .pgetx d a => EncodeFitsRow.pgetx d a
  | .pgety d a => EncodeFitsRow.pgety d a
  | .pisinf d a => EncodeFitsRow.pisinf d a
  | .pchk a => EncodeFitsRow.pchk a
  | .pdbl d a => EncodeFitsRow.pdbl d a
  | .padd d a b => EncodeFitsRow.padd d a b
  | .pmul d a b => EncodeFitsRow.pmul d a b
  | .peq d a b => EncodeFitsRow.peq d a b

theorem exists_row_of_decode (h : decode w = .ok i) :
    ∃ r ∈ opcodeTable, r.mnemonic = i.mnemonic ∧ r.fits w = true := by
  obtain ⟨hwf, rfl⟩ := decode_eq_ok_iff.1 h
  exact encode_fitsRow i hwf

/-- Only `LDC` has the mnemonic whose index R79 bounds. -/
theorem isConst_of_mnemonic_eq_ldc (hwf : i.wf = true) (hm : i.mnemonic = "LDC") :
    isConst (encodeFields i).imm = true := by
  cases i with
  | ldc d index => exact hwf
  | _ => simp [Instr.mnemonic] at hm

/-- The index bound of R79 on the word itself. -/
theorem isConst_imm_iff (w : Cmd) : isConst (fieldsOf w).imm = true ↔ (w &&& 0xFFF).toNat ≤ 10 := by
  have low : (w &&& 0xFFF).toNat = (fieldsOf w).imm.toNat := by
    rw [BitVec.toNat_and, fieldsOf, BitVec.extractLsb'_toNat, Nat.shiftRight_zero]
    exact Nat.and_two_pow_sub_one_eq_mod w.toNat 12
  rw [low, isConst, decide_eq_true_iff, Config.numConsts]
  omega

/-! ## A word and the opcode of its row -/

/-- Every mask keeps the whole opcode. -/
theorem opcode_eq_of_fits (hr : r ∈ opcodeTable) (h : r.fits w = true) : (fieldsOf w).op = (fieldsOf r.code).op := by
  have hmask : ∀ r ∈ opcodeTable, (fieldsOf r.mask).op = 0xFF := by decide
  rw [← wordOf_fieldsOf w, OpRow.fits_iff, hmask r hr] at h
  obtain ⟨hop, -⟩ := h
  exact (op_mask _).symm.trans hop

/-- The 35 opcodes differ. -/
theorem row_eq_of_opcode_eq (hr : r ∈ opcodeTable) (hr' : r' ∈ opcodeTable)
    (h : (fieldsOf r.code).op = (fieldsOf r'.code).op) : r = r' :=
  List.inj_on_of_nodup_map (f := fun r : OpRow => (fieldsOf r.code).op) (l := opcodeTable) (by decide) hr hr' h

/-! ## From a row to a command -/

/-- A row's mask keeps the whole of each field its format does not use and the top bit of each point field, so its words
pass the checks of the row's form: steps 1 to 3 of R75. -/
theorem exists_decodeFields_of_fits (hr : r ∈ opcodeTable) (hfits : r.fits (wordOf f) = true)
    (hldc : r.mnemonic = "LDC" → isConst f.imm = true) : ∃ i, decodeFields f = .ok i := by
  have hop := opcode_eq_of_fits hr hfits
  obtain ⟨-, hd, ha, hb, himm⟩ := (OpRow.fits_iff r f).1 hfits
  rw [fieldsOf_wordOf] at hop
  fin_cases hr
  all_goals
    simp only [fieldsOf, BitVec.reduceExtractLsb', reg_mask, imm_mask, point_mask] at hop hd ha hb himm
    simp [decodeFields, formN_eq_ok, formEE_eq_ok, formEEE_eq_ok, formA_eq_ok, formLD_eq_ok, formST_eq_ok,
      formLDC_eq_ok, formPEE_eq_ok, formPD_eq_ok, formPP_eq_ok, formEP_eq_ok, formPA_eq_ok, formPPP_eq_ok,
      formPEP_eq_ok, formEPP_eq_ok, *]

/-- Settles O35: the command's word matches its row, a row's word passes the checks of its form, and the opcode tells
the row. -/
theorem decoderAgreesWithOpcodeTable : Obligations.DecoderAgreesWithOpcodeTable := by
  refine ⟨fun w => ⟨?_, ?_⟩, fun w i h => ?_, fun w r r' hr hr' h h' => ?_⟩
  · rintro ⟨i, h⟩
    obtain ⟨r, hr, hm, hfits⟩ := exists_row_of_decode h
    obtain ⟨hwf, rfl⟩ := decode_eq_ok_iff.1 h
    refine ⟨r, hr, hfits, fun hldc => (isConst_imm_iff _).1 ?_⟩
    rw [encode, fieldsOf_wordOf]
    exact isConst_of_mnemonic_eq_ldc hwf (hm ▸ hldc)
  · rintro ⟨r, hr, hfits, hldc⟩
    rw [← wordOf_fieldsOf w] at hfits
    exact exists_decodeFields_of_fits hr hfits fun hm => (isConst_imm_iff w).2 (hldc hm)
  · obtain ⟨r, hr, hm, hfits⟩ := exists_row_of_decode h
    exact ⟨r, hr, hfits, hm⟩
  · exact row_eq_of_opcode_eq hr hr' ((opcode_eq_of_fits hr h).symm.trans (opcode_eq_of_fits hr' h'))

end Sys2Proof
end

section
/-! PROOFS. What the core does at a word that is a command, at one that is none, and at a term no word decodes to
(R80, R90, R181). -/

namespace Sys2Proof.Machine

variable {s u : State}

theorem step_of_coreTurn_busy (hu : CoreTurn s u) (hr : s.run = .busy) : step s = runCommand u := by
  obtain ⟨hrun, -, -, -⟩ := hu.same
  rw [step_of_coreTurn hu, coreMove_busy (hrun.trans hr)]

/-- Settles O39: by whether the word at `pc` decodes; it decodes to a command exactly when it is the command's word. -/
theorem everyWordIsCommandOrIllegal : Obligations.EveryWordIsCommandOrIllegal := by
  intro s u hu hr hp
  obtain ⟨-, hpc, -, hmem⟩ := hu.same
  have hword : u.imemWord u.pc.toNat = s.imemWord s.pc.toNat := by rw [hpc, hmem]
  rw [step_of_coreTurn_busy hu hr]
  rw [← hpc] at hp
  cases hd : decode (s.imemWord s.pc.toNat) with
  | ok i =>
    obtain ⟨hwf, henc⟩ := decode_eq_ok_iff.1 hd
    refine .inl ⟨i, hwf, henc, runCommand_ok hp (hword ▸ hd), fun j hj he => ?_⟩
    exact Except.ok.inj ((decode_eq_ok_iff.2 ⟨hj, he⟩).symm.trans hd)
  | error r =>
    rw [runCommand_illegal hp (hword ▸ hd)]
    refine .inr ⟨fun i hwf he => ?_, trap_trapped u _⟩
    cases hd.symm.trans (decode_eq_ok_iff.2 ⟨hwf, he⟩)

/-- Settles O42: what a word decodes to is well-formed, and `exec` traps on any other term. -/
theorem illFormedTermsTrap : Obligations.IllFormedTermsTrap := by
  intro i s hwf
  refine ⟨fun w hd => ?_, ?_⟩
  · obtain ⟨hlegal, -⟩ := decode_eq_ok_iff.1 hd
    simp [hwf] at hlegal
  · rw [exec_of_not_wf s hwf]
    exact trap_trapped s _

end Sys2Proof.Machine
end

section
/-! PROOFS. The assembler (R81, R82). -/

namespace Sys2Proof.Machine

variable {i : Instr}

@[simp] theorem Operand.ok_e (r : EReg) : (Operand.e r.toNat).ok = true := decide_eq_true r.isLt
@[simp] theorem Operand.ok_imm (v : Imm) : (Operand.imm v.toNat).ok = true := decide_eq_true v.isLt
@[simp] theorem Operand.ok_p (r : PReg) : (Operand.p r.toNat).ok = isPoint r := rfl

/-- A legal command's operands are in range: only the point registers need that it is legal. -/
theorem toAsm_operands_ok (h : i.wf = true) : (toAsm i).operands.all Operand.ok = true := by
  cases i with
  | pset _ _ _ | pinf _ | pldg _ | pmov _ _ | pgetx _ _ | pgety _ _ | pisinf _ _ | pchk _ | pdbl _ _ | padd _ _ _
  | pmul _ _ _ | peq _ _ _ => simpa [toAsm, Instr.wf, and_assoc] using h
  | _ => simp [toAsm]

/-- The assembler reads a command's line back, whatever its fields. -/
theorem asmLine_toAsm (i : Instr) : asmLine (toAsm i) = some i := by
  cases i <;> simp [toAsm, asmLine, asmEEE, Instr.mnemonic]

/-- The words of `ZERO ed` and `ONE ed` (R82). -/
theorem encode_ldc_zero_one : ∀ d < 16,
    encode (.ldc (.ofNat 4 d) 0) = 0x13000000#32 ||| BitVec.ofNat 32 (d * 2 ^ 20) ∧
      encode (.ldc (.ofNat 4 d) 1) = 0x13000001#32 ||| BitVec.ofNat 32 (d * 2 ^ 20) := by decide

/-- Settles O37: a command's line is in range and reads back; the pseudo-instructions are `LDC` of 0 and 1. -/
theorem assemblerRoundTrip : Obligations.AssemblerRoundTrip := by
  refine ⟨fun i hwf => ?_, fun d hd => ?_⟩
  · rw [assemble, if_pos (toAsm_operands_ok hwf), asmLine_toAsm, Option.map_some]
  · have hok : [Operand.e d].all Operand.ok = true := by simp [Operand.ok, hd]
    obtain ⟨hzero, hone⟩ := encode_ldc_zero_one d hd
    rw [← hzero, ← hone]
    exact ⟨if_pos hok, if_pos hok⟩

end Sys2Proof.Machine
end

section
/-! PROOFS. Loads, stores and constants, the control commands, and the step that runs a command (R63, R90 to R97,
R188). -/

namespace Sys2Proof.Machine

variable {s u : State} {i : Instr}

/-! ## Loads and stores -/

theorem exec_ld_trap {slot : Imm} (h : 128 ≤ slot.toNat) (d : EReg) (s : State) :
    exec (.ld d slot) s = trap .badAddress s :=
  slotOperand_trap s h fun addr => toElem d (word (s.memRead addr Config.slotBytes)) s

theorem exec_st_trap {slot : Imm} (h : 128 ≤ slot.toNat) (a : EReg) (s : State) :
    exec (.st slot a) s = trap .badAddress s :=
  slotOperand_trap s h fun addr => complete (s.memWrite addr Config.slotBytes (s.elem a).toNat)

/-- The value of a slot as the sum of R51. -/
theorem State.memRead_slot_eq_sum (s : State) (addr : Nat) :
    s.memRead addr 32 = ∑ j ∈ Finset.range 32, (s.dmemByte (addr + j)).toNat * 256 ^ (31 - j) :=
  be_eq_sum s.dmemByte addr 32

/-- Settles O5: the loaded value is the slot's, which fits a register, so that its number is the sum of the bytes. -/
theorem ldLoadsSlotBigEndian : Obligations.LdLoadsSlotBigEndian := by
  intro d slot s
  refine ⟨rfl, fun h => ?_, fun h => ?_⟩
  · rw [← State.memRead_slot_eq_sum]
    exact givesElem_of_toElem (s.memRead_lt _) (exec_ld h d s)
  · rw [exec_ld_trap h]
    exact trap_trapped s _

/-- Settles O6: below 128 a store of one slot, from 128 on the fault. -/
theorem stStoresSlotBigEndian : Obligations.StStoresSlotBigEndian := by
  intro slot a s
  refine ⟨rfl, fun h => ?_, fun h => ?_⟩
  · rw [exec_st h]
    exact memWrite_wroteSlot s _ _
  · rw [exec_st_trap h]
    exact trap_trapped s _

/-! ## Constants -/

/-- The ROM's digits are the values R14 defines. -/
theorem constRom_eq_definitions : constRom = [0, 1, Config.p, Config.n, Config.b, Config.Gx, Config.Gy,
    2 ^ 256 % Config.p, 2 ^ 512 % Config.p, 2 ^ 256 % Config.n, 2 ^ 512 % Config.n] := by
  rw [show 512 = 256 + 256 from rfl, pow_add]
  rfl

theorem lt_of_mem_constRom : ∀ v ∈ constRom, v < 2 ^ 256 := by decide

theorem exec_ldc {index : Imm} {v : Nat} (h : constRom[index.toNat]? = some v) (d : EReg) (s : State) :
    exec (.ldc d index) s = toElem d (word v) s := by
  simp only [exec, execLdc, constOperand, h]

/-- Settles O8: an entry of the ROM fits a register; an index above 10 makes the command ill-formed. -/
theorem ldcLoadsConstant : Obligations.LdcLoadsConstant := by
  intro d index s
  rw [← constRom_eq_definitions]
  refine ⟨rfl, fun v hv => ?_, fun h => ?_⟩
  · exact givesElem_of_toElem (lt_of_mem_constRom v (List.mem_of_getElem? hv)) (exec_ldc hv d s)
  · have hwf : (Instr.ldc d index).wf = false := decide_eq_false (Nat.not_lt.2 h)
    rw [exec_of_not_wf s hwf]
    exact trap_trapped s _

/-! ## Every command -/

theorem SameControl.advance {t : State} (h : SameControl s t) : SameControl s t.advance :=
  ⟨h.run, h.err, h.epc, h.startPc, h.intrEn, h.intrState⟩

/-- Settles O41: by the three ways of `exec_cases`; a command that completes is not `END`, and its write leaves the
control registers alone. -/
theorem commandsCompleteOrTrap : Obligations.CommandsCompleteOrTrap := by
  intro i s _
  rcases exec_cases i s with ⟨c, e⟩ | ⟨hi, e⟩ | ⟨w, e, hw⟩
  · exact ⟨_, e, .inr (.inr ⟨c, raise_trapped s c⟩)⟩
  · exact ⟨_, e, .inr (.inl ⟨hi, rfl, rfl⟩)⟩
  · obtain ⟨hpc, -, hc, -⟩ := hw.control
    exact ⟨_, e, .inl ⟨hw.ne_endRun, by rw [State.advance_pc, hpc], hc.advance⟩⟩

/-! ## `NOP`, `END`, `WIPE`, `MOV` -/

/-- Settles O1: `NOP` completes and has no write. -/
theorem nopOnlyAdvancesPc : Obligations.NopOnlyAdvancesPc := ⟨rfl, complete_wroteNothing⟩

/-- Of the ways a command can go only `END` makes `run` DONE (R92). -/
theorem exec_run_done {t : State} (h : exec i s = .next t) (ht : t.run = .done) : s.run = .done ∨ i = .endRun := by
  rcases exec_next_cases h with ⟨c, rfl⟩ | ⟨hi, -⟩ | ⟨w, hw, rfl⟩
  · cases ht
  · exact .inr hi
  · obtain ⟨-, -, hc, -⟩ := hw.control
    exact .inl (hc.run.symm.trans ht)

/-- Settles O2: what `END` answers is `State.finish`, and only it makes `run` DONE. -/
theorem endFinishesTheRun : Obligations.EndFinishesTheRun := by
  refine ⟨rfl, fun i s t => exec_run_done, fun s => ⟨s.finish, rfl, rfl, ?_, ?_, ?_⟩⟩
  · simp
  · simp
  · exact ⟨rfl, rfl, rfl, rfl, rfl, fun _ => rfl, fun _ => rfl, fun _ => rfl, fun _ => rfl, rfl, rfl, rfl⟩

/-- Settles O3: what `WIPE` answers is `State.wipeRegs`, advanced. -/
theorem wipeClearsRegisters : Obligations.WipeClearsRegisters :=
  ⟨rfl, fun s => ⟨s.wipeRegs.advance, rfl, s.elem_wipeRegs, fun r _ => s.point_wipeRegs r, rfl, fun _ => rfl,
    fun _ => rfl, ⟨rfl, rfl, rfl, rfl, rfl, rfl⟩, rfl, rfl, rfl⟩⟩

/-- Settles O4: `MOV` completes with the one write of its source's value. -/
theorem movCopiesRawValue : Obligations.MovCopiesRawValue := fun d a s => ⟨rfl, toElem_wroteElem s d (s.elem a)⟩

/-! ## The step -/

theorem step_of_coreTurn_ok (hu : CoreTurn s u) (hr : s.run = .busy) (hp : s.pc.toNat < 256)
    (hd : decode (s.imemWord s.pc.toNat) = .ok i) : step s = exec i u := by
  obtain ⟨-, hpc, -, hmem⟩ := hu.same
  rw [step_of_coreTurn_busy hu hr]
  exact runCommand_ok (by rwa [hpc]) (by rwa [hpc, hmem])

theorem step_of_coreTurn_stopped (hu : CoreTurn s u) (hr : s.run ≠ .busy) : step s = .next u := by
  obtain ⟨hrun, -, -, -⟩ := hu.same
  rw [step_of_coreTurn hu, coreMove_stopped (by rwa [hrun])]

/-- Settles O38: the two ways it can be the core's turn, BUSY and not. -/
theorem stepRunsDecodedCommand : Obligations.StepRunsDecodedCommand := by
  refine fun s i => ⟨fun hr hp hd => ⟨fun h => ?_, fun rest h => ?_⟩, fun hr => ⟨fun h => ?_, fun rest h => ?_⟩⟩
  · exact step_of_coreTurn_ok (.inl ⟨h, rfl⟩) hr hp hd
  · exact step_of_coreTurn_ok (.inr ⟨rest, h, rfl⟩) hr hp hd
  · exact step_of_coreTurn_stopped (.inl ⟨h, rfl⟩) hr
  · exact step_of_coreTurn_stopped (.inr ⟨rest, h, rfl⟩) hr

end Sys2Proof.Machine
end

section
/-! PROOFS. The shapes of the field and scalar commands (R101 to R108, R121 to R128): what a sum, a difference, a
product, a comparison, an inversion, a range check and a reduction answer for any modulus, then used for `p` and `n`. -/

namespace Sys2Proof.Machine

variable {m : Nat} {i : Instr} {d a b : EReg} {s : State}

/-! ## Sum, difference, product -/

theorem addm_checksAndGives (h0 : 0 < m) (hm : m ≤ 2 ^ 256) (hi : exec i s = binary m (addm m) d a b s) :
    ChecksAndGives m i d a b (fun x y => (x + y) % m) s :=
  binary_checksAndGives hm hi (fun x y _ _ => addm_lt h0 x y) fun _ _ _ _ => rfl

theorem subm_checksAndGives (h0 : 0 < m) (hm : m ≤ 2 ^ 256) (hi : exec i s = binary m (subm m) d a b s) :
    ChecksAndGives m i d a b (fun x y => if y ≤ x then x - y else x + m - y) s :=
  binary_checksAndGives hm hi (fun x y _ _ => subm_lt h0 x y) fun _ _ => subm_eq

theorem mulm_checksAndGives (h0 : 0 < m) (hm : m ≤ 2 ^ 256) (hi : exec i s = binary m (mulm m) d a b s) :
    ChecksAndGives m i d a b (fun x y => x * y % m) s :=
  binary_checksAndGives hm hi (fun x y _ _ => mulm_lt h0 x y) fun _ _ _ _ => rfl

/-- Settles O9: the three shapes at the modulus `p`. -/
theorem fieldSumDifferenceProduct : Obligations.FieldSumDifferenceProduct := fun _ _ _ _ =>
  ⟨rfl, rfl, rfl, addm_checksAndGives p_pos p_lt.le rfl, subm_checksAndGives p_pos p_lt.le rfl,
    mulm_checksAndGives p_pos p_lt.le rfl⟩

/-! ## Comparison -/

theorem answer_beq_eq_word (x y : Nat) : answer (x == y) = word (if x = y then 1 else 0) := by
  by_cases h : x = y <;> simp [answer, h]

/-- The equality shape is the two-operand shape of the function that answers 1 or 0. -/
theorem equality_eq_binary (m : Nat) (d a b : EReg) (s : State) :
    equality m d a b s = binary m (fun x y => if x = y then 1 else 0) d a b s := by
  simp only [equality, binary, answer_beq_eq_word]

theorem equality_checksAndGives (h1 : 1 < m) (hm : m ≤ 2 ^ 256) (hi : exec i s = equality m d a b s) :
    ChecksAndGives m i d a b (fun x y => if x = y then 1 else 0) s := by
  refine binary_checksAndGives hm (hi.trans (equality_eq_binary m d a b s)) (fun x y _ _ => ?_) fun _ _ _ _ => rfl
  split <;> omega

/-- Settles O13: the equality shape at the moduli `p` and `n`. -/
theorem equalityGivesOneOrZero : Obligations.EqualityGivesOneOrZero := fun _ _ _ _ =>
  ⟨rfl, rfl, equality_checksAndGives (one_lt_two.trans two_lt_p) p_lt.le rfl,
    equality_checksAndGives (one_lt_two.trans two_lt_n) n_lt.le rfl⟩

/-! ## Inversion -/

theorem exec_inversion_of_pos (hi : exec i s = inversion m d a s) (h0 : 0 < (s.elem a).toNat)
    (h : (s.elem a).toNat < m) : exec i s = toElem d (word (invm (s.elem a).toNat m)) s := by
  rw [hi, inversion, elemOperand_of s h, if_neg h0.ne']

theorem exec_inversion_of_zero (hi : exec i s = inversion m d a s) (h0 : (s.elem a).toNat = 0) (hm : 0 < m) :
    exec i s = trap .invalidOperand s := by
  rw [hi, inversion, elemOperand_of s (h0.trans_lt hm), if_pos h0]

theorem exec_inversion_of_ge (hi : exec i s = inversion m d a s) (h : m ≤ (s.elem a).toNat) :
    exec i s = trap .outOfRange s := by
  rw [hi, inversion, elemOperand_trap s h]

/-- `p` and `n` are primes that the word size and the powers of `invm` allow. -/
theorem prime_modulus (h : m = Config.p ∨ m = Config.n) : m.Prime ∧ m ≤ 2 ^ 256 ∧ 2 < m := by
  rcases h with rfl | rfl
  · exact ⟨p_prime, p_lt.le, two_lt_p⟩
  · exact ⟨n_prime, n_lt.le, two_lt_n⟩

/-- Settles O12: the written number is `invm` of the operand, whose `invm_spec` says that it is the one inverse. -/
theorem inversionGivesUniqueInverse : Obligations.InversionGivesUniqueInverse := by
  refine fun d a s => ⟨rfl, rfl, fun i m him => ?_⟩
  have hi : exec i s = inversion m d a s := by rcases him with ⟨rfl, rfl⟩ | ⟨rfl, rfl⟩ <;> rfl
  obtain ⟨hprime, hm, h2⟩ := prime_modulus (him.imp And.right And.right)
  have := Fact.mk hprime
  refine ⟨fun h0 h => ?_, fun h0 => ?_, fun h => ?_⟩
  · obtain ⟨t, ht, hw, hv⟩ := givesElem_of_toElem ((invm_lt hm h2.le _).trans_le hm) (exec_inversion_of_pos hi h0 h)
    obtain ⟨hpos, hle, hinv, huniq⟩ := invm_spec hm h2 h0 h
    refine ⟨t, ht, hw, ?_⟩
    rw [hv]
    exact ⟨hpos, hle, hinv, invm_eq hm h2.le _, huniq⟩
  · rw [exec_inversion_of_zero hi h0 (by omega)]
    exact trap_trapped s _
  · rw [exec_inversion_of_ge hi h]
    exact trap_trapped s _

/-! ## Range check -/

theorem rangeCheck_completes (hi : exec i s = elemOperand m a s fun _ => complete s) (h : (s.elem a).toNat < m) :
    ∃ t, exec i s = .next t ∧ WroteNothing s t := by
  rw [hi, elemOperand_of s h]
  exact complete_wroteNothing s

theorem rangeCheck_traps (hi : exec i s = elemOperand m a s fun _ => complete s) (h : m ≤ (s.elem a).toNat) :
    ∃ t, exec i s = .next t ∧ Trapped .outOfRange s t := by
  rw [hi, elemOperand_trap s h]
  exact trap_trapped s _

/-- Settles O14: the check at the moduli `p` and `n`. -/
theorem rangeCheckWritesNothing : Obligations.RangeCheckWritesNothing := fun _ _ =>
  ⟨rfl, rfl, rangeCheck_completes rfl, rangeCheck_traps rfl, rangeCheck_completes rfl, rangeCheck_traps rfl⟩

/-! ## Reduction of a 512-bit value -/

/-- The integer the reductions take is the concatenation's (R108, R128). -/
theorem wide_eq_toNat_append (hi lo : Word) : wide hi.toNat lo.toNat = (hi ++ lo).toNat := by
  rw [wide, BitVec.toNat_append, ← Nat.shiftLeft_add_eq_or_of_lt lo.isLt, Nat.shiftLeft_eq]

theorem reduction_givesElem (h0 : 0 < m) (hm : m ≤ 2 ^ 256) (hi : exec i s = reduction m d a b s) :
    GivesElem i d ((s.elem a ++ s.elem b).toNat % m) s := by
  refine givesElem_of_toElem ((Nat.mod_lt _ h0).trans_le hm) ?_
  rw [hi, reduction, wide_eq_toNat_append]

/-- Settles O15: the reduction shape at the moduli `p` and `n`. -/
theorem reductionOfWideValue : Obligations.ReductionOfWideValue := fun _ _ _ _ =>
  ⟨rfl, rfl, reduction_givesElem p_pos p_lt.le rfl, reduction_givesElem n_pos n_lt.le rfl⟩

end Sys2Proof.Machine
end

section
/-! PROOFS. The laws of addition, subtraction, multiplication and inversion (R109, R129), from those of the ring of
residues: each function of R11 is the ring's own operation, and its results are residues. -/

namespace Sys2Proof.Machine

variable {m : Nat}

@[simp] theorem cast_addm (m x y : Nat) : (addm m x y : ZMod m) = x + y := by simp [addm]
@[simp] theorem cast_mulm (m x y : Nat) : (mulm m x y : ZMod m) = x * y := by simp [mulm]
theorem cast_subm (h0 : 0 < m) (x y : Nat) : (subm m x y : ZMod m) = x - y := by simp [subm, cast_zmod _ h0]

/-- Settles O16: each law holds in the ring of residues, so it holds of the residues; the last one is `invm_spec`. -/
theorem modularArithmeticLaws : Obligations.ModularArithmeticLaws := by
  intro m hmod x y z hx _ _
  obtain ⟨hprime, hm, h2⟩ := prime_modulus hmod
  have h0 : 0 < m := by omega
  have := Fact.mk hprime
  refine ⟨?_, ?_, ?_, ?_, ?_, ?_, ?_, fun hne => ?_⟩
  · rw [addm, Nat.add_comm, ← addm]
  · exact eq_of_cast_eq (addm_lt h0 _ _) (addm_lt h0 _ _) (by simp only [cast_addm]; ring)
  · exact eq_of_cast_eq (subm_lt h0 _ _) hx (by simp only [cast_subm h0, cast_addm]; ring)
  · exact eq_of_cast_eq (addm_lt h0 _ _) h0 (by simp only [cast_addm, cast_subm h0]; ring)
  · rw [mulm, Nat.mul_comm, ← mulm]
  · exact eq_of_cast_eq (mulm_lt h0 _ _) (mulm_lt h0 _ _) (by simp only [cast_mulm]; ring)
  · exact eq_of_cast_eq (mulm_lt h0 _ _) (addm_lt h0 _ _) (by simp only [cast_mulm, cast_addm]; ring)
  · obtain ⟨-, -, hinv, -⟩ := invm_spec hm h2 (Nat.pos_of_ne_zero hne) hx
    exact hinv

end Sys2Proof.Machine
end

section
/-! PROOFS. The Montgomery product and its reference reduction (R104, R110, R111, R124): laws for any modulus `m`, radix
`R` and number `r` with `r * R = 1` modulo `m`, then used for `p` and for `n`. -/

namespace Sys2Proof.Machine

theorem rInvP_mul_radix : rInvP * 2 ^ 256 % Config.p = 1 := by decide +kernel
theorem rInvN_mul_radix : rInvN * 2 ^ 256 % Config.n = 1 := by decide +kernel

/-- Settles O11: both products are two-operand commands whose result is reduced, and the literals are inverses of the
radix. -/
theorem montgomeryProduct : Obligations.MontgomeryProduct := by
  refine ⟨by decide +kernel, rInvP_mul_radix, by decide +kernel, rInvN_mul_radix, fun d a b s => ⟨rfl, rfl, ?_, ?_⟩⟩
  · exact binary_checksAndGives (f := montP) p_lt.le rfl (fun x y _ _ => montP_lt x y) fun _ _ _ _ => rfl
  · exact binary_checksAndGives (f := montN) n_lt.le rfl (fun x y _ _ => montN_lt x y) fun _ _ _ _ => rfl

/-! ## The product modulo any `m` -/

/-- The Montgomery product modulo `m`, with `r` the inverse of the radix. -/
def montgomery (m r x y : Nat) : Nat := x * y * r % m

theorem montP_eq_montgomery : montP = montgomery Config.p rInvP := rfl
theorem montN_eq_montgomery : montN = montgomery Config.n rInvN := rfl

theorem montgomery_lt {m : Nat} (h0 : 0 < m) (r x y : Nat) : montgomery m r x y < m := Nat.mod_lt _ h0

@[simp] theorem cast_montgomery (m r x y : Nat) : (montgomery m r x y : ZMod m) = x * y * r := by simp [montgomery]

@[simp] theorem montgomery_zero_left (m r y : Nat) : montgomery m r 0 y = 0 := by simp [montgomery]

section
variable {m r R x y : Nat} (h : r * R % m = 1)
include h

/-- In the ring of residues `r` is the inverse of the radix. -/
theorem cast_inverse_mul_radix : (r : ZMod m) * R = 1 := by
  simpa using congrArg (Nat.cast : Nat → ZMod m) h

theorem mulm_eq_montgomery_montgomery (h0 : 0 < m) (x y : Nat) :
    mulm m x y = montgomery m r (montgomery m r x y) (R * R % m) := by
  refine eq_of_cast_eq (mulm_lt h0 _ _) (montgomery_lt h0 _ _ _) ?_
  simp only [cast_mulm, cast_montgomery, ZMod.natCast_mod, Nat.cast_mul]
  linear_combination (-(x * y : ZMod m) * (r * R + 1)) * cast_inverse_mul_radix h

/-- Converting to Montgomery form multiplies by the radix. -/
theorem montgomery_radix_sq (h0 : 0 < m) (x : Nat) : montgomery m r x (R * R % m) = x * R % m := by
  refine eq_of_cast_eq (montgomery_lt h0 _ _ _) (Nat.mod_lt _ h0) ?_
  simp only [cast_montgomery, ZMod.natCast_mod, Nat.cast_mul]
  linear_combination (x * R : ZMod m) * cast_inverse_mul_radix h

theorem montgomery_radix (hx : x < m) : montgomery m r x (R % m) = x := by
  refine eq_of_cast_eq (montgomery_lt (by omega) _ _ _) hx ?_
  simp only [cast_montgomery, ZMod.natCast_mod]
  linear_combination (x : ZMod m) * cast_inverse_mul_radix h

/-- Converting to Montgomery form and back. -/
theorem montgomery_radix_sq_one (hx : x < m) : montgomery m r (montgomery m r x (R * R % m)) 1 = x := by
  have h0 : 0 < m := by omega
  refine eq_of_cast_eq (montgomery_lt h0 _ _ _) hx ?_
  rw [montgomery_radix_sq h h0]
  simp only [cast_montgomery, ZMod.natCast_mod, Nat.cast_mul, Nat.cast_one]
  linear_combination (x : ZMod m) * cast_inverse_mul_radix h

/-- The product of converted values is the converted product. -/
theorem montgomery_converted (h0 : 0 < m) (x y : Nat) :
    montgomery m r (montgomery m r x (R * R % m)) (montgomery m r y (R * R % m)) =
      montgomery m r (mulm m x y) (R * R % m) := by
  refine eq_of_cast_eq (montgomery_lt h0 _ _ _) (montgomery_lt h0 _ _ _) ?_
  simp only [montgomery_radix_sq h h0, cast_montgomery, cast_mulm, ZMod.natCast_mod, Nat.cast_mul]
  linear_combination (x * y * R : ZMod m) * cast_inverse_mul_radix h

end

/-- Settles O17: the laws above for `p` and for `n`. -/
theorem montgomeryConversionLaws : Obligations.MontgomeryConversionLaws := by
  intro x y
  rw [show 512 = 256 + 256 from rfl, pow_add, montP_eq_montgomery, montN_eq_montgomery]
  refine ⟨fun hx _ => ?_, fun hx _ => ?_⟩
  · exact ⟨mulm_eq_montgomery_montgomery rInvP_mul_radix p_pos x y, montgomery_radix_sq rInvP_mul_radix p_pos x,
      montgomery_radix rInvP_mul_radix hx, montgomery_radix_sq_one rInvP_mul_radix hx, montgomery_zero_left _ _ y,
      montgomery_converted rInvP_mul_radix p_pos x y⟩
  · exact ⟨mulm_eq_montgomery_montgomery rInvN_mul_radix n_pos x y, montgomery_radix_sq rInvN_mul_radix n_pos x,
      montgomery_radix rInvN_mul_radix hx, montgomery_radix_sq_one rInvN_mul_radix hx, montgomery_zero_left _ _ y⟩

/-! ## The reference reduction (R110) -/

/-- The factor `q` of R110: the multiple of `m` that the reduction adds. -/
def redcFactor (mPrime t : Nat) : Nat := t % Config.R * mPrime % Config.R

theorem redcFactor_lt (mPrime t : Nat) : redcFactor mPrime t < Config.R := Nat.mod_lt _ (Nat.two_pow_pos 256)

section
variable {m mPrime t : Nat} (hinv : (m * mPrime + 1) % Config.R = 0)
include hinv

/-- `t + q * m` is `t * (m * mPrime + 1)` modulo the radix, and so 0. -/
theorem radix_dvd_add_redcFactor_mul (t : Nat) : Config.R ∣ t + redcFactor mPrime t * m := by
  have hq : redcFactor mPrime t ≡ t * mPrime [MOD Config.R] :=
    (Nat.mod_modEq _ _).trans ((Nat.mod_modEq t _).mul_right _)
  rw [((hq.mul_right m).add_left t).dvd_iff dvd_rfl, show t + t * mPrime * m = t * (m * mPrime + 1) by ring]
  exact (Nat.dvd_of_mod_eq_zero hinv).mul_left t

/-- The reduction divides exactly, and then subtracts `m` where it must. -/
theorem redc_cases (t : Nat) : ∃ u, u * Config.R = t + redcFactor mPrime t * m ∧
    (m ≤ u ∧ redc m mPrime t = u - m ∨ u < m ∧ redc m mPrime t = u) := by
  refine ⟨_, Nat.div_mul_cancel (radix_dvd_add_redcFactor_mul hinv t), ?_⟩
  rcases Nat.lt_or_ge ((t + redcFactor mPrime t * m) / Config.R) m with hu | hu
  · exact .inr ⟨hu, if_neg (Nat.not_le.2 hu)⟩
  · exact .inl ⟨hu, if_pos hu⟩

/-- One subtraction is enough: the quotient is below `2 * m`. -/
theorem redc_lt (ht : t < m * Config.R) : redc m mPrime t < m := by
  obtain ⟨u, hu, hcases⟩ := redc_cases hinv t
  have hbound : u * Config.R < (2 * m) * Config.R := by
    have := Nat.mul_le_mul_right m (redcFactor_lt mPrime t).le
    linarith
  have := Nat.lt_of_mul_lt_mul_right hbound
  omega

/-- The reduction is the division by the radix modulo `m`. -/
theorem redc_mul_radix (t : Nat) : redc m mPrime t * Config.R ≡ t [MOD m] := by
  obtain ⟨u, hu, hcases⟩ := redc_cases hinv t
  have hredc : redc m mPrime t ≡ u [MOD m] := by
    rcases hcases with ⟨hle, he⟩ | ⟨-, he⟩
    · rw [he]
      exact (Nat.mod_eq_sub_mod hle).symm
    · rw [he]
  calc redc m mPrime t * Config.R ≡ u * Config.R [MOD m] := hredc.mul_right _
    _ = t + redcFactor mPrime t * m := hu
    _ ≡ t [MOD m] := by simp [Nat.ModEq]

/-- With the inverse `r` of the radix, the reduction of a product of residues is the Montgomery product. -/
theorem redc_mul_eq_montgomery {r x y : Nat} (h : r * Config.R % m = 1) (hmR : m ≤ Config.R) (hx : x < m) (hy : y < m) :
    redc m mPrime (x * y) = montgomery m r x y := by
  have hxy : x * y < m * Config.R := Nat.mul_lt_mul'' hx (hy.trans_le hmR)
  refine eq_of_cast_eq (redc_lt hinv hxy) (montgomery_lt (by omega) _ _ _) ?_
  have hredc := (ZMod.natCast_eq_natCast_iff _ _ m).2 (redc_mul_radix hinv (x * y))
  push_cast at hredc
  rw [cast_montgomery, ← hredc]
  linear_combination (-(redc m mPrime (x * y) : ZMod m)) * cast_inverse_mul_radix h

end

/-- Settles O18: the reduction of any modulus, and the numbers of R110. -/
theorem redcComputesMontgomeryProduct : Obligations.RedcComputesMontgomeryProduct := by
  have hp : (Config.p * pPrime + 1) % Config.R = 0 := by decide +kernel
  have hn : (Config.n * nPrime + 1) % Config.R = 0 := by decide +kernel
  refine ⟨fun m mPrime t _ _ _ hinv ht => ⟨redc_lt hinv ht, redc_mul_radix hinv t⟩, by decide +kernel, hp, hn,
    by decide +kernel, by decide +kernel, by decide +kernel, by decide +kernel,
    fun x y => ⟨fun hx hy => ?_, fun hx hy => ?_⟩⟩
  · exact redc_mul_eq_montgomery hp rInvP_mul_radix p_lt.le hx hy
  · exact redc_mul_eq_montgomery hn rInvN_mul_radix n_lt.le hx hy

end Sys2Proof.Machine
end

section
/-! PROOFS. Sum, difference and product modulo `n` (R121, R122, R123). -/

namespace Sys2Proof.Machine

/-- Settles O10: the three shapes that `fieldSumDifferenceProduct` uses, at the modulus `n`. -/
theorem scalarSumDifferenceProduct : Obligations.ScalarSumDifferenceProduct := fun _ _ _ _ =>
  ⟨rfl, rfl, rfl, addm_checksAndGives n_pos n_lt.le rfl, subm_checksAndGives n_pos n_lt.le rfl,
    mulm_checksAndGives n_pos n_lt.le rfl⟩

end Sys2Proof.Machine
end

section
/-! PROOFS. The point moves (R140 to R146): each is one raw write, made when the command's point fields are legal. -/

namespace Sys2Proof.Machine

variable {i : Instr} {ok : Bool} {s : State}

/-! A command that is a guarded write (`legal`, then `toPoint` or `toElem`) completes with that write once its guard holds. -/

theorem exec_writes_point {d : PReg} {P : PointReg} (hi : exec i s = legal ok s (toPoint d P s)) (hok : ok = true)
    (hd : isPoint d = true) : ∃ t, exec i s = .next t ∧ WrotePoint d P s t := by
  rw [hi, legal_of s hok]
  exact toPoint_wrotePoint s P hd

theorem exec_writes_elem {d : EReg} {v : Word} (hi : exec i s = legal ok s (toElem d v s)) (hok : ok = true) :
    ∃ t, exec i s = .next t ∧ WroteElem d v s t := by
  rw [hi, legal_of s hok]
  exact toElem_wroteElem s d v

/-- Settles O19: `PSET` needs a legal destination, `PMOV` a legal source as well. -/
theorem psetAndPmovCopyRaw : Obligations.PsetAndPmovCopyRaw := fun _ _ _ _ _ =>
  ⟨rfl, rfl, fun hd => ⟨exec_writes_point rfl hd hd, fun ha =>
    exec_writes_point rfl (Bool.and_eq_true_iff.2 ⟨hd, ha⟩) hd⟩⟩

theorem valid_base : valid .base = true := by decide +kernel

/-- Settles O20: each writes its constant to a legal destination, and the base point is on the curve. -/
theorem pinfAndPldgWriteConstants : Obligations.PinfAndPldgWriteConstants :=
  ⟨valid_base, fun _ _ => ⟨rfl, rfl, fun hd => ⟨exec_writes_point rfl hd hd, exec_writes_point rfl hd hd⟩⟩⟩

/-- Settles O21: the source is only named, never checked; `PISINF` writes the bit as `answer`. -/
theorem pointFieldReads : Obligations.PointFieldReads := fun _ _ _ =>
  ⟨rfl, rfl, rfl, fun ha => ⟨exec_writes_elem rfl ha, exec_writes_elem rfl ha, exec_writes_elem rfl ha⟩⟩

end Sys2Proof.Machine
end

section
/-! PROOFS. The formulas of the point arithmetic (R151, R152): the curve test, and the slope and third point that `padd`
computes, as congruences of integers modulo `p`. -/

namespace Sys2Proof.Machine

/-- A congruence of integers modulo `p` is an equation between residues. -/
theorem modEq_p_iff (x y : Int) : x ≡ y [ZMOD Config.p] ↔ (x : Fp) = y :=
  (ZMod.intCast_eq_intCast_iff x y Config.p).symm

theorem curveTest_iff_modEq (x y : Nat) :
    y * y % Config.p = curveRhs x ↔ (y : Int) * y ≡ (x : Int) * x * x - 3 * x + Config.b [ZMOD Config.p] := by
  rw [equation_test, modEq_p_iff]
  push_cast
  rw [pow_two, pow_succ, pow_two]

/-- Settles O22, by the infinity bit: the test of an affine value is the range test and the curve's congruence. -/
theorem validIsCurveMembership : Obligations.ValidIsCurveMembership := by
  rintro ⟨x, y, inf⟩
  cases inf
  case false => simp [valid, curveTest_iff_modEq, and_assoc]
  case true => simp [valid]

theorem zmod_modEq (x : Int) : (zmod x Config.p : Int) ≡ x [ZMOD Config.p] := by
  rw [zmod_coe x p_pos]
  exact Int.mod_modEq x _

/-- The tangent's slope solves the tangent's equation where the point is not its own negative. -/
theorem tangent_modEq (x1 : Nat) {y1 : Nat} (hy : (y1 + y1) % Config.p ≠ 0) :
    (tangent x1 y1 : Int) * (2 * y1) ≡ 3 * (x1 : Int) * x1 - 3 [ZMOD Config.p] := by
  have := Fact.mk p_prime
  have hne : (2 * y1 : Fp) ≠ 0 := by
    rwa [Ne, ← Nat.dvd_iff_mod_eq_zero, ← ZMod.natCast_eq_zero_iff, ← two_mul, Nat.cast_mul, Nat.cast_two] at hy
  rw [modEq_p_iff]
  push_cast
  rw [cast_tangent, inv_mul_cancel_right₀ hne]
  ring

/-- The chord's slope solves the chord's equation. -/
theorem chord_modEq {x1 x2 : Nat} (h1 : x1 < Config.p) (h2 : x2 < Config.p) (hx : x1 ≠ x2) (y1 y2 : Nat) :
    (chord x1 y1 x2 y2 : Int) * ((x2 : Int) - x1) ≡ (y2 : Int) - y1 [ZMOD Config.p] := by
  have := Fact.mk p_prime
  have hne : (x2 - x1 : Fp) ≠ 0 := sub_ne_zero.2 fun h => hx (eq_of_cast_eq h1 h2 h.symm)
  rw [modEq_p_iff]
  push_cast
  rw [cast_chord, inv_mul_cancel_right₀ hne]

/-- `P` is an affine value whose coordinates below `p` solve R152's equations for the line of slope `lam` through
`(x1, y1)` and an `x2`. -/
def OnLine (lam x1 y1 x2 : Nat) (P : PointReg) : Prop :=
  ∃ x3 y3 : Nat, P = ⟨word x3, word y3, false⟩ ∧ x3 < Config.p ∧ y3 < Config.p ∧
    (x3 : Int) ≡ (lam : Int) * lam - x1 - x2 [ZMOD Config.p] ∧
    (y3 : Int) ≡ (lam : Int) * ((x1 : Int) - x3) - y1 [ZMOD Config.p]

theorem thirdPoint_onLine (lam x1 y1 x2 : Nat) : OnLine lam x1 y1 x2 (thirdPoint lam x1 y1 x2) :=
  ⟨_, _, rfl, zmod_lt _ p_pos, zmod_lt _ p_pos, zmod_modEq _, zmod_modEq _⟩

/-! ## Affine values -/

theorem toNat_word_of_lt_p {v : Nat} (h : v < Config.p) : (word v).toNat = v := toNat_word (h.trans p_lt)

section
variable {x1 y1 x2 y2 : Nat} (hx1 : x1 < Config.p) (hy1 : y1 < Config.p)
include hx1 hy1

/-- The case split of R152 on affine values. -/
theorem paddPoint_affine (hx2 : x2 < Config.p) (hy2 : y2 < Config.p) :
    paddPoint ⟨word x1, word y1, false⟩ ⟨word x2, word y2, false⟩ =
      if x1 = x2 ∧ (y1 + y2) % Config.p = 0 then .infinity
      else if x1 = x2 then thirdPoint (tangent x1 y1) x1 y1 x2
      else thirdPoint (chord x1 y1 x2 y2) x1 y1 x2 := by
  simp [paddPoint, PointReg.infinity, toNat_word_of_lt_p hx1, toNat_word_of_lt_p hy1, toNat_word_of_lt_p hx2,
    toNat_word_of_lt_p hy2]

theorem valid_affine_iff :
    valid ⟨word x1, word y1, false⟩ = true ↔ (y1 : Fp) ^ 2 = (x1 : Fp) ^ 3 - 3 * x1 + Config.b := by
  simp [valid, toNat_word_of_lt_p hx1, toNat_word_of_lt_p hy1, hx1, hy1, equation_test]

/-- Two curve points with one `x` have opposite or equal `y`: the case split of R152 is exhaustive. -/
theorem y_eq_of_valid (hy2 : y2 < Config.p) (h1 : valid ⟨word x1, word y1, false⟩ = true)
    (h2 : valid ⟨word x1, word y2, false⟩ = true) (hne : (y1 + y2) % Config.p ≠ 0) : y1 = y2 := by
  have := Fact.mk p_prime
  rw [valid_affine_iff hx1 hy1] at h1
  rw [valid_affine_iff hx1 hy2] at h2
  rcases sq_eq_sq_iff_eq_or_eq_neg.1 (h1.trans h2.symm) with heq | hneg
  · exact eq_of_cast_eq hy1 hy2 heq
  · rw [eq_neg_iff_add_eq_zero, ← Nat.cast_add, ZMod.natCast_eq_zero_iff, Nat.dvd_iff_mod_eq_zero] at hneg
    exact absurd hneg hne

end

end Sys2Proof.Machine
end

section
/-! PROOFS. The laws of the point arithmetic on valid values (R152 to R154, R162): each is the law of the curve's group
for the points the values denote, since a point has one stored value. -/

namespace Sys2Proof.Machine

variable {P Q S : PointReg}

theorem exists_denotes (h : valid P = true) : ∃ A, Denotes P A := (valid_iff_denotes P).1 h

theorem Denotes.isValid {A : curve.Point} (h : Denotes P A) : valid P = true := (valid_iff_denotes P).2 ⟨A, h⟩

theorem valid_infinity : valid .infinity = true := denotes_infinity.isValid

theorem valid_paddPoint (hP : valid P = true) (hQ : valid Q = true) : valid (paddPoint P Q) = true := by
  have := Fact.mk p_prime
  obtain ⟨A, hA⟩ := exists_denotes hP
  obtain ⟨B, hB⟩ := exists_denotes hQ
  exact (hA.padd hB).isValid

theorem valid_pmulPoint (k : Nat) (hP : valid P = true) : valid (pmulPoint k P) = true := by
  have := Fact.mk p_prime
  obtain ⟨A, hA⟩ := exists_denotes hP
  exact (hA.pmul k).isValid

@[simp] theorem infinity_paddPoint (P : PointReg) : paddPoint .infinity P = P := by simp [paddPoint]

@[simp] theorem paddPoint_infinity (P : PointReg) : paddPoint P .infinity = P := by
  by_cases h : P = .infinity <;> simp [paddPoint, h]

theorem paddPoint_comm (hP : valid P = true) (hQ : valid Q = true) : paddPoint P Q = paddPoint Q P := by
  have := Fact.mk p_prime
  obtain ⟨A, hA⟩ := exists_denotes hP
  obtain ⟨B, hB⟩ := exists_denotes hQ
  exact (hA.padd hB).value_unique (add_comm A B ▸ hB.padd hA)

theorem paddPoint_negPoint (hP : valid P = true) : paddPoint P (negPoint P) = .infinity := by
  have := Fact.mk p_prime
  obtain ⟨A, hA⟩ := exists_denotes hP
  exact (hA.padd hA.neg).value_unique (add_neg_cancel A ▸ denotes_infinity)

theorem valid_negPoint (hP : valid P = true) : valid (negPoint P) = true := by
  obtain ⟨A, hA⟩ := exists_denotes hP
  exact hA.neg.isValid

/-- Settles O23: on affine values the three cases of `paddPoint_affine`, the tangent's and the chord's slope each
solving its own equation. -/
theorem paddFollowsGroupLaw : Obligations.PaddFollowsGroupLaw := by
  intro P Q hP hQ
  refine ⟨valid_paddPoint hP hQ, fun h => h ▸ infinity_paddPoint Q, fun h => h ▸ paddPoint_infinity P, ?_⟩
  rintro x1 y1 x2 y2 rfl rfl hx1 hy1 hx2 hy2
  rw [paddPoint_affine hx1 hy1 hx2 hy2]
  refine ⟨by simp [negPoint, toNat_word_of_lt_p hy1], fun hx hy => if_pos ⟨hx, hy⟩, fun hne => ?_⟩
  rw [if_neg hne]
  by_cases hx : x1 = x2
  · subst hx
    have hy : (y1 + y2) % Config.p ≠ 0 := fun h => hne ⟨rfl, h⟩
    obtain rfl := y_eq_of_valid hx1 hy1 hy2 hP hQ hy
    obtain ⟨x3, y3, heq, hx3, hy3, ex3, ey3⟩ := thirdPoint_onLine (tangent x1 y1) x1 y1 x1
    rw [if_pos rfl]
    exact ⟨_, x3, y3, heq, hx3, hy3, fun _ => ⟨rfl, tangent_modEq x1 hy⟩, fun h => absurd rfl h, ex3, ey3⟩
  · obtain ⟨x3, y3, heq, hx3, hy3, ex3, ey3⟩ := thirdPoint_onLine (chord x1 y1 x2 y2) x1 y1 x2
    rw [if_neg hx]
    exact ⟨_, x3, y3, heq, hx3, hy3, fun h => absurd h hx, fun _ => chord_modEq hx1 hx2 hx y1 y2, ex3, ey3⟩

/-- Settles O24: the identity by `paddPoint`'s own cases, the rest by the group's laws. -/
theorem paddIdentityInverseCommutative : Obligations.PaddIdentityInverseCommutative := fun P _ hP hQ =>
  ⟨paddPoint_infinity P, infinity_paddPoint P, infinity_paddPoint .infinity, paddPoint_comm hP hQ,
    valid_paddPoint hP hQ, valid_negPoint hP, paddPoint_negPoint hP⟩

/-- Settles O25: both sides store the sum of the three points. -/
theorem paddAssociative : Obligations.PaddAssociative := by
  intro P Q S hP hQ hS
  have := Fact.mk p_prime
  obtain ⟨A, hA⟩ := exists_denotes hP
  obtain ⟨B, hB⟩ := exists_denotes hQ
  obtain ⟨C, hC⟩ := exists_denotes hS
  exact ((hA.padd hB).padd hC).value_unique (add_assoc A B C ▸ hA.padd (hB.padd hC))

/-! ## The multiples of a point -/

@[simp] theorem pmulPoint_one (P : PointReg) : pmulPoint 1 P = P := by simp [pmulPoint]

theorem pmulPoint_infinity (k : Nat) : pmulPoint k .infinity = .infinity := by
  induction k with
  | zero => rfl
  | succ k ih => rw [pmulPoint, ih, infinity_paddPoint]

/-- Settles O27: additivity and multiplicativity are those of the multiples in the group. -/
theorem pmulScalarLaws : Obligations.PmulScalarLaws := by
  intro k l P hP
  have := Fact.mk p_prime
  obtain ⟨A, hA⟩ := exists_denotes hP
  refine ⟨valid_pmulPoint k hP, pmulPoint_infinity k, pmulPoint_one P, by rw [pmulPoint, pmulPoint_one], ?_, ?_⟩
  · exact (hA.pmul (k + l)).value_unique (add_nsmul A k l ▸ (hA.pmul k).padd (hA.pmul l))
  · exact (hA.pmul (k * l)).value_unique (mul_nsmul' A k l ▸ (hA.pmul l).pmul k)

/-- `i` iterations of the ladder on an `i`-bit scalar give its multiple of `P` and the next one (R162). -/
theorem ladderFrom_eq_pmulPoint {k i : Nat} (hk : k < 2 ^ i) (hP : valid P = true) :
    ladderFrom k i (.infinity, P) = (pmulPoint k P, paddPoint (pmulPoint k P) P) := by
  have := Fact.mk p_prime
  obtain ⟨A, hA⟩ := exists_denotes hP
  have h0 : Denotes PointReg.infinity (0 • A) := (zero_nsmul A).symm ▸ denotes_infinity
  have h1 : Denotes P ((0 + 1) • A) := (one_nsmul A).symm ▸ hA
  obtain ⟨hfst, hsnd⟩ := ladderFrom_denotes k i 0 (.infinity, P) h0 h1
  rw [zero_mul, zero_add, Nat.mod_eq_of_lt hk] at hfst hsnd
  exact Prod.ext (hfst.value_unique (hA.pmul k)) (hsnd.value_unique (hA.pmul (k + 1)))

theorem ladder_eq_pmulPoint {k : Nat} (hk : k < 2 ^ 256) (hP : valid P = true) : ladder k P = pmulPoint k P := by
  rw [ladder, ladderFrom_eq_pmulPoint hk hP]

/-- Settles O26: the top `i` bits of a 256-bit scalar are an `i`-bit scalar, and the iterations split there. -/
theorem ladderIsRepeatedAddition : Obligations.LadderIsRepeatedAddition := by
  intro k P hk hP
  refine ⟨ladder_eq_pmulPoint hk hP, fun i hi => ⟨ladderFrom_eq_pmulPoint ?_ hP, ?_⟩⟩
  · rwa [Nat.div_lt_iff_lt_mul (Nat.two_pow_pos _), ← pow_add, Nat.add_sub_cancel' hi]
  · rw [← ladderFrom_split, Nat.add_sub_cancel' hi, ladder]

end Sys2Proof.Machine
end

section
/-! PROOFS. The group has prime order `n` and the base point generates it (R163). The base point has order `n`; the
order of the group is a multiple of it and at most `2p + 1 < 3n`; and it is not `2n`, as no point has order 2. -/

namespace Sys2Proof.Machine

theorem base_ne_infinity : PointReg.base ≠ .infinity := by decide

theorem pmulPoint_n_base : pmulPoint Config.n .base = .infinity := by
  rw [← ladder_eq_pmulPoint n_lt valid_base]
  decide +kernel

theorem Denotes.eq_infinity_iff {P : PointReg} {A : curve.Point} (h : Denotes P A) : P = .infinity ↔ A = 0 := by
  constructor
  · rintro rfl
    exact h.point_unique denotes_infinity
  · rintro rfl
    exact h.value_unique denotes_infinity

/-- The value that stores a point. -/
def store : curve.Point → PointReg
  | .zero => .infinity
  | .some x y _ => ⟨word x.val, word y.val, false⟩

theorem denotes_store (A : curve.Point) : Denotes (store A) A := by
  cases A with
  | zero => exact denotes_infinity
  | some x y h =>
    have := NeZero.mk p_pos.ne'
    refine .inr ⟨x, y, h, rfl, rfl, ?_⟩
    simp [store, toNat_word_of_lt_p (ZMod.val_lt _), ZMod.val_lt]

/-- There are as many valid values as points. -/
theorem ncard_valid : {P : PointReg | valid P = true}.ncard = Nat.card curve.Point := by
  have hinj : Function.Injective store := fun A B h => (denotes_store A).point_unique (h ▸ denotes_store B)
  have hrange : {P : PointReg | valid P = true} = Set.range store := by
    ext P
    constructor
    · intro h
      obtain ⟨A, hA⟩ := exists_denotes h
      exact ⟨A, (denotes_store A).value_unique hA⟩
    · rintro ⟨A, rfl⟩
      exact (denotes_store A).isValid
  rw [hrange, Set.ncard_range_of_injective hinj]

theorem y_ne_zero_of_valid {P : PointReg} (hP : valid P = true) (hne : P ≠ .infinity) : P.y ≠ 0 := by
  have := Fact.mk p_prime
  obtain ⟨A, hA⟩ := exists_denotes hP
  rcases hA with ⟨h, -⟩ | ⟨x, y, h, -, -, -, -, -, hy⟩
  · exact absurd h hne
  · intro h0
    have hy0 : y = 0 := by rw [← hy, h0]; simp
    apply cubic_no_root x
    rw [← (nonsingular_iff x y).1 h, hy0, zero_pow two_ne_zero]

theorem ne_zero_of_denotes_base {B : curve.Point} (hB : Denotes .base B) : B ≠ 0 :=
  mt hB.eq_infinity_iff.2 base_ne_infinity

section
variable [Fact Config.p.Prime] [Fact Config.n.Prime] {B : curve.Point}

theorem addOrderOf_base (hB : Denotes .base B) : addOrderOf B = Config.n := by
  refine addOrderOf_eq_prime ?_ (ne_zero_of_denotes_base hB)
  exact (hB.pmul Config.n).eq_infinity_iff.1 pmulPoint_n_base

theorem card_point : Nat.card curve.Point = Config.n := by
  have := finite_point
  obtain ⟨B, hB⟩ := exists_denotes valid_base
  obtain ⟨c, hc⟩ : Config.n ∣ Nat.card curve.Point := addOrderOf_base hB ▸ addOrderOf_dvd_natCard B
  have hpos : 0 < Nat.card curve.Point := Nat.card_pos
  have hle : Nat.card curve.Point ≤ 2 * Config.p + 1 := card_point_le
  have hlt : 2 * Config.p + 1 < Config.n * 3 := by decide +kernel
  have hc3 : c < 3 := lt_of_mul_lt_mul_left (hc ▸ hle.trans_lt hlt) (Nat.zero_le _)
  have hc0 : c ≠ 0 := by rintro rfl; omega
  have hc2 : c ≠ 2 := by
    rintro rfl
    obtain ⟨A, hA⟩ := exists_prime_addOrderOf_dvd_card' 2 (hc ▸ dvd_mul_left 2 Config.n)
    have h2 : A + A = 0 := by rw [← two_nsmul, ← hA, addOrderOf_nsmul_eq_zero]
    rw [no_order_two A h2, addOrderOf_zero] at hA
    omega
  rw [hc, show c = 1 by omega, mul_one]

theorem addOrderOf_eq_n {A : curve.Point} (h : A ≠ 0) : addOrderOf A = Config.n :=
  addOrderOf_eq_prime (card_point ▸ card_nsmul_eq_zero') h

end

/-- Settles O28: in a group of prime order every element but 0 has that order and generates the group. -/
theorem groupOfOrderN : Obligations.GroupOfOrderN := by
  have := Fact.mk p_prime
  have := Fact.mk n_prime
  refine ⟨n_prime, ncard_valid.trans card_point, fun P hP => ?_⟩
  obtain ⟨A, hA⟩ := exists_denotes hP
  obtain ⟨B, hB⟩ := exists_denotes valid_base
  have hmul (k : Nat) : (k % Config.n) • A = k • A := card_point ▸ mod_natCard_nsmul A k
  refine ⟨fun hne => ⟨y_ne_zero_of_valid hP hne, fun k => ?_⟩, ?_, ?_, fun k => ?_⟩
  · rw [(hA.pmul k).eq_infinity_iff, ← addOrderOf_dvd_iff_nsmul_eq_zero,
      addOrderOf_eq_n (mt hA.eq_infinity_iff.2 hne)]
  · obtain ⟨k, rfl⟩ : A ∈ AddSubmonoid.multiples B :=
      mem_multiples_of_prime_card card_point (ne_zero_of_denotes_base hB)
    refine ⟨k % Config.n, Nat.mod_lt k n_pos, (hB.pmul _).value_unique ?_⟩
    exact addOrderOf_base hB ▸ (mod_addOrderOf_nsmul B k).symm ▸ hA
  · exact (hA.pmul Config.n).eq_infinity_iff.2 (card_point ▸ card_nsmul_eq_zero')
  · exact (hA.pmul k).value_unique (hmul k ▸ hA.pmul (k % Config.n))

end Sys2Proof.Machine
end

section
/-! PROOFS. The point commands (R156 to R160): the command validates its operands, then makes one write. -/

namespace Sys2Proof.Machine

variable {i : Instr} {ok : Bool} {s : State} {a b : PReg}

/-- A command whose legal form ends in a fault takes it. -/
theorem exec_traps {c : Cause} (hi : exec i s = legal ok s (trap c s)) (hok : ok = true) : Traps i c s := by
  rw [Traps, hi, legal_of s hok]
  exact trap_trapped s c

/-- A command that writes a valid point leaves a valid point in its destination. -/
theorem exec_writes_valid {d : PReg} {P : PointReg} (hi : exec i s = legal ok s (toPoint d P s)) (hok : ok = true)
    (hd : isPoint d = true) (hP : valid P = true) :
    ∃ t, exec i s = .next t ∧ WrotePoint d P s t ∧ valid (t.point d) = true := by
  obtain ⟨t, ht, hw⟩ := exec_writes_point hi hok hd
  exact ⟨t, ht, hw, hw.dest ▸ hP⟩

/-- Two point operands, the first checked first: both valid, the rest of the command runs on their values. -/
theorem pointOperands_of (ha : valid (s.point a) = true) (hb : valid (s.point b) = true)
    (k : PointReg → PointReg → Result) :
    (pointOperand a s fun P => pointOperand b s (k P)) = k (s.point a) (s.point b) := by
  rw [pointOperand_of s ha, pointOperand_of s hb]

/-- Two point operands of which one is not valid: `INVALID_POINT`. -/
theorem pointOperands_trap (h : valid (s.point a) = false ∨ valid (s.point b) = false)
    (k : PointReg → PointReg → Result) :
    (pointOperand a s fun P => pointOperand b s (k P)) = trap .invalidPoint s := by
  cases ha : valid (s.point a) with
  | false => exact pointOperand_trap s ha _
  | true =>
    have hb := h.resolve_left (by simp [ha])
    rw [pointOperand_of s ha, pointOperand_trap s hb]

/-- Settles O29: the only operand is checked, and nothing is written. -/
theorem pchkValidates : Obligations.PchkValidates := by
  refine fun a s => ⟨rfl, fun ha => ⟨fun hv => ?_, fun hv => ?_⟩⟩
  · rw [exec, execPchk, legal_of s ha, pointOperand_of s hv]
    exact complete_wroteNothing s
  · exact exec_traps (by rw [exec, execPchk, pointOperand_trap s hv]) ha

/-- Settles O30: valid operands are summed, and an operand that is not valid is caught by its check. -/
theorem pdblAndPaddWriteSum : Obligations.PdblAndPaddWriteSum := by
  refine fun d a b s => ⟨rfl, rfl, fun hd ha hb => ?_⟩
  have hda : (isPoint d && isPoint a) = true := by rw [hd, ha]; rfl
  have hdab : (isPoint d && isPoint a && isPoint b) = true := by rw [hda, hb]; rfl
  refine ⟨fun hP => ?_, fun hP hQ => ?_, fun hP => ?_, fun h => ?_⟩
  · exact exec_writes_valid (by rw [exec, execPdbl, pointOperand_of s hP]) hda hd (valid_paddPoint hP hP)
  · exact exec_writes_valid (by rw [exec, execPadd, pointOperands_of hP hQ]) hdab hd (valid_paddPoint hP hQ)
  · exact exec_traps (by rw [exec, execPdbl, pointOperand_trap s hP]) hda
  · exact exec_traps (by rw [exec, execPadd, pointOperands_trap h]) hdab

/-- Settles O31: the ladder that the command runs is the repeated addition. -/
theorem pmulWritesScalarMultiple : Obligations.PmulWritesScalarMultiple := by
  refine fun d a b s => ⟨rfl, fun hd hb => ?_⟩
  have hok : (isPoint d && isPoint b) = true := by rw [hd, hb]; rfl
  refine ⟨fun hk hP => ?_, fun hk => ?_, fun hk hP => ?_⟩
  · have hl := ladder_eq_pmulPoint (s.elem a).isLt hP
    exact exec_writes_valid (by rw [exec, execPmul, elemOperand_of s hk, pointOperand_of s hP, hl]) hok hd
      (valid_pmulPoint _ hP)
  · exact exec_traps (by rw [exec, execPmul, elemOperand_trap s hk]) hok
  · exact exec_traps (by rw [exec, execPmul, elemOperand_of s hk, pointOperand_trap s hP]) hok

/-- Comparing the three fields compares the values. -/
theorem answer_fields_beq (P Q : PointReg) :
    answer (P.x == Q.x && P.y == Q.y && P.inf == Q.inf) = if P = Q then 1 else 0 := by
  obtain ⟨x, y, inf⟩ := P
  obtain ⟨x', y', inf'⟩ := Q
  simp [answer, and_assoc]

/-- Settles O32: both operands are checked as in `PADD`, and the comparison of the fields is the answer. -/
theorem peqComparesPoints : Obligations.PeqComparesPoints := by
  refine fun d a b s => ⟨rfl, fun ha hb => ?_⟩
  have hok : (isPoint a && isPoint b) = true := by rw [ha, hb]; rfl
  refine ⟨fun hP hQ => ?_, fun h => ?_⟩
  · exact exec_writes_elem (by rw [exec, execPeq, pointOperands_of hP hQ, answer_fields_beq]) hok
  · exact exec_traps (by rw [exec, execPeq, pointOperands_trap h]) hok

end Sys2Proof.Machine
end

section
/-! PROOFS. The faults (R180 to R188): `PC_OVERRUN` at the end of IMEM, and which faults each command can raise. -/

namespace Sys2Proof.Machine

variable {s : State} {i : Instr}

/-! ## `PC_OVERRUN` (R182) -/

/-- A completed command that brings `pc` to 256 stood at 255: `pc + 1` does not wrap below 256. -/
theorem CommandCompleted.pc_eq_255 {t : State} (h : CommandCompleted s t) (ht : t.pc.toNat = 256) :
    s.pc.toNat = 255 := by
  obtain ⟨u, i, -, -, hp, -, -, -, -, hpc⟩ := h
  rw [hpc, BitVec.toNat_add_of_lt (show s.pc.toNat + 1 < 2 ^ 9 by omega)] at ht
  exact Nat.succ.inj ht

/-- Settles O40: at 256 the core's step is the fault; of the three events that change `pc`, a start reaches 255 at most
and reset gives 0. -/
theorem pcOverrunAtEndOfImem : Obligations.PcOverrunAtEndOfImem := by
  refine ⟨fun s u hu hr hp => ?_, fun s t h ht hs => ?_⟩
  · obtain ⟨-, hpc, -, -⟩ := hu.same
    rw [← hpc] at hp
    rw [step_of_coreTurn_busy hu hr, runCommand_overrun hp]
    exact ⟨u.raise .pcOverrun, rfl, raise_trapped u _, hp⟩
  · have hne : t.pc ≠ s.pc := fun e => hs (e ▸ ht)
    rcases onlyThreeEventsChangePc s t h hne with hc | ⟨-, -, hpc, -⟩ | ⟨hpc, -⟩
    · exact ⟨hc, hc.pc_eq_255 ht⟩
    · rw [hpc, BitVec.toNat_setWidth_of_le (by decide)] at ht
      exact absurd ht s.startPc.isLt.ne
    · rw [hpc] at ht
      cases ht

/-! ## The faults of each command (R180) -/

/-- The faults a well-formed command can raise (R180). -/
def faultsOf : Instr → List Cause
  | .ld _ _ | .st _ _ => [.badAddress]
  | .fadd _ _ _ | .fsub _ _ _ | .fmul _ _ _ | .fmmul _ _ _ | .feq _ _ _ | .fchk _ => [.outOfRange]
  | .sadd _ _ _ | .ssub _ _ _ | .smul _ _ _ | .smmul _ _ _ | .seq _ _ _ | .schk _ => [.outOfRange]
  | .finv _ _ | .sinv _ _ => [.outOfRange, .invalidOperand]
  | .pchk _ | .pdbl _ _ | .padd _ _ _ | .peq _ _ _ => [.invalidPoint]
  | .pmul _ _ _ => [.outOfRange, .invalidPoint]
  | _ => []

/-- If the result leaves `run` = FAULT, then by one of these faults. -/
def FaultsOnly (cs : List Cause) (r : Result) : Prop :=
  ∀ t, r = .next t → t.run = .fault → ∃ c ∈ cs, t.err = c.code

section forms

variable {cs : List Cause}

theorem faultsOnly_trap {c : Cause} (hc : c ∈ cs) : FaultsOnly cs (trap c s) := by
  rintro t ⟨⟩ -
  exact ⟨c, hc, rfl⟩

theorem faultsOnly_next {t : State} (h : t.run ≠ .fault) : FaultsOnly cs (.next t) := by
  rintro t ⟨⟩ hf
  exact absurd hf h

theorem faultsOnly_complete {t : State} (h : t.run ≠ .fault) : FaultsOnly cs (complete t) :=
  faultsOnly_next (t := t.advance) h

theorem faultsOnly_legal {ok : Bool} {k : Result} (hok : ok = true) (hk : FaultsOnly cs k) :
    FaultsOnly cs (legal ok s k) := by
  rwa [legal_of s hok]

theorem faultsOnly_elemOperand {m : Nat} {r : EReg} {k : Nat → Result} (hc : .outOfRange ∈ cs)
    (hk : ∀ x, FaultsOnly cs (k x)) : FaultsOnly cs (elemOperand m r s k) := by
  rcases elemOperand_cases s m r k with ⟨-, e⟩ | ⟨-, e⟩ <;> rw [e]
  · exact hk _
  · exact faultsOnly_trap hc

theorem faultsOnly_pointOperand {r : PReg} {k : PointReg → Result} (hc : .invalidPoint ∈ cs)
    (hk : ∀ P, FaultsOnly cs (k P)) : FaultsOnly cs (pointOperand r s k) := by
  rcases pointOperand_cases s r k with ⟨-, e⟩ | ⟨-, e⟩ <;> rw [e]
  · exact hk _
  · exact faultsOnly_trap hc

theorem faultsOnly_slotOperand {slot : Imm} {k : Nat → Result} (hc : .badAddress ∈ cs)
    (hk : ∀ addr, FaultsOnly cs (k addr)) : FaultsOnly cs (slotOperand slot s k) := by
  rcases slotOperand_cases s slot k with ⟨-, e⟩ | ⟨-, e⟩ <;> rw [e]
  · exact hk _
  · exact faultsOnly_trap hc

/-- A legal index names an entry of the ROM, so that the operand raises no fault (R79, R97). -/
theorem faultsOnly_constOperand {index : Imm} {k : Nat → Result} (h : isConst index = true)
    (hk : ∀ v, FaultsOnly cs (k v)) : FaultsOnly cs (constOperand index s k) := by
  have hlt : index.toNat < constRom.length := of_decide_eq_true h
  rw [constOperand, List.getElem?_eq_getElem hlt]
  exact hk _

/-! From a state that is not in FAULT, the writes of a command leave `run` as it was. -/

variable (hr : s.run ≠ .fault)

include hr

theorem faultsOnly_toElem {d : EReg} {v : Word} : FaultsOnly cs (toElem d v s) :=
  faultsOnly_complete (t := s.setElem d v) hr

theorem faultsOnly_toPoint {d : PReg} {P : PointReg} : FaultsOnly cs (toPoint d P s) :=
  faultsOnly_complete (t := s.setPoint d P) hr

theorem faultsOnly_binary {m : Nat} {f : Nat → Nat → Nat} {d a b : EReg} :
    FaultsOnly [.outOfRange] (binary m f d a b s) :=
  faultsOnly_elemOperand (.head _) fun _ => faultsOnly_elemOperand (.head _) fun _ => faultsOnly_toElem hr

theorem faultsOnly_equality {m : Nat} {d a b : EReg} : FaultsOnly [.outOfRange] (equality m d a b s) := by
  rw [equality_eq_binary]
  exact faultsOnly_binary hr

theorem faultsOnly_rangeCheck {m : Nat} {a : EReg} :
    FaultsOnly [.outOfRange] (elemOperand m a s fun _ => complete s) :=
  faultsOnly_elemOperand (.head _) fun _ => faultsOnly_complete hr

theorem faultsOnly_inversion {m : Nat} {d a : EReg} :
    FaultsOnly [.outOfRange, .invalidOperand] (inversion m d a s) := by
  refine faultsOnly_elemOperand (.head _) fun x => ?_
  split
  · exact faultsOnly_trap (.tail _ (.head _))
  · exact faultsOnly_toElem hr

end forms

/-- A well-formed command raises no fault but its own: its operands' checks are the only ones it makes. -/
theorem exec_faultsOnly (hwf : i.wf = true) (hr : s.run ≠ .fault) : FaultsOnly (faultsOf i) (exec i s) := by
  cases i with
  | nop => exact faultsOnly_complete hr
  | endRun => exact faultsOnly_next (t := s.finish) (by simp)
  | wipe => exact faultsOnly_complete (t := s.wipeRegs) hr
  | ld d slot =>
    exact faultsOnly_slotOperand (k := fun addr => toElem d (word (s.memRead addr Config.slotBytes)) s) (.head _)
      fun _ => faultsOnly_toElem hr
  | st slot a =>
    exact faultsOnly_slotOperand (k := fun addr => complete (s.memWrite addr Config.slotBytes (s.elem a).toNat))
      (.head _) fun _ => faultsOnly_complete (by rwa [State.memWrite_run])
  | ldc d index => exact faultsOnly_constOperand hwf fun _ => faultsOnly_toElem hr
  | fadd _ _ _ | fsub _ _ _ | fmul _ _ _ | fmmul _ _ _ | sadd _ _ _ | ssub _ _ _ | smul _ _ _ | smmul _ _ _ =>
    exact faultsOnly_binary hr
  | feq _ _ _ | seq _ _ _ => exact faultsOnly_equality hr
  | fchk _ | schk _ => exact faultsOnly_rangeCheck hr
  | finv _ _ | sinv _ _ => exact faultsOnly_inversion hr
  | mov _ _ | fred _ _ _ | sred _ _ _ => exact faultsOnly_toElem hr
  | pset _ _ _ | pinf _ | pldg _ | pmov _ _ => exact faultsOnly_legal hwf (faultsOnly_toPoint hr)
  | pgetx _ _ | pgety _ _ | pisinf _ _ => exact faultsOnly_legal hwf (faultsOnly_toElem hr)
  | pchk _ => exact faultsOnly_legal hwf (faultsOnly_pointOperand (.head _) fun _ => faultsOnly_complete hr)
  | pdbl _ _ => exact faultsOnly_legal hwf (faultsOnly_pointOperand (.head _) fun _ => faultsOnly_toPoint hr)
  | padd _ _ _ =>
    exact faultsOnly_legal hwf (faultsOnly_pointOperand (.head _) fun _ =>
      faultsOnly_pointOperand (.head _) fun _ => faultsOnly_toPoint hr)
  | pmul _ _ _ =>
    exact faultsOnly_legal hwf (faultsOnly_elemOperand (.head _) fun _ =>
      faultsOnly_pointOperand (.tail _ (.head _)) fun _ => faultsOnly_toPoint hr)
  | peq _ _ _ =>
    exact faultsOnly_legal hwf (faultsOnly_pointOperand (.head _) fun _ =>
      faultsOnly_pointOperand (.head _) fun _ => faultsOnly_toElem hr)

/-- Settles O44: the fault is one of the command's own, and their codes are the table's. -/
theorem faultCodesByCommand : Obligations.FaultCodesByCommand := by
  refine ⟨rfl, rfl, rfl, rfl, rfl, rfl, fun i s t hwf hr he hf => ?_⟩
  obtain ⟨c, hc, herr⟩ := exec_faultsOnly hwf (by simp [hr]) t he hf
  cases i with
  | ld _ _ | st _ _ =>
    obtain rfl := List.mem_singleton.1 hc
    exact .inl ⟨herr, by simp [Instr.mnemonic]⟩
  | fadd _ _ _ | fsub _ _ _ | fmul _ _ _ | fmmul _ _ _ | feq _ _ _ | fchk _
  | sadd _ _ _ | ssub _ _ _ | smul _ _ _ | smmul _ _ _ | seq _ _ _ | schk _ =>
    obtain rfl := List.mem_singleton.1 hc
    exact .inr (.inl ⟨herr, by simp [Instr.mnemonic]⟩)
  | finv _ _ | sinv _ _ =>
    obtain rfl | rfl := List.mem_pair.1 hc
    · exact .inr (.inl ⟨herr, by simp [Instr.mnemonic]⟩)
    · exact .inr (.inr (.inl ⟨herr, by simp [Instr.mnemonic]⟩))
  | pchk _ | pdbl _ _ | padd _ _ _ | peq _ _ _ =>
    obtain rfl := List.mem_singleton.1 hc
    exact .inr (.inr (.inr ⟨herr, by simp [Instr.mnemonic]⟩))
  | pmul _ _ _ =>
    obtain rfl | rfl := List.mem_pair.1 hc
    · exact .inr (.inl ⟨herr, by simp [Instr.mnemonic]⟩)
    · exact .inr (.inr (.inr ⟨herr, by simp [Instr.mnemonic]⟩))
  | _ => cases hc

end Sys2Proof.Machine
end

section
/-! PROOFS. Every run ends (R218, R219): what one step of a run can do, then the induction on the words left in IMEM. -/

namespace Sys2Proof.Machine

variable {s t u : State} {k : Nat}

/-! ## Counted steps -/

@[simp] theorem reaches_zero : Reaches 0 s t ↔ t = s := Iff.rfl

/-- The machine is deterministic, so what it reaches in `k + 1` steps it reaches from its one next state. -/
theorem reaches_succ_of_step (h : step s = .next u) : Reaches (k + 1) s t ↔ Reaches k u t := by
  refine ⟨fun ⟨v, hv, hr⟩ => ?_, fun hr => ⟨u, h, hr⟩⟩
  obtain rfl := Host.Outcome.next.inj (h.symm.trans hv)
  exact hr

/-! ## One step of a run -/

/-- No command writes IMEM. -/
theorem Effect.imemWord_eq {i : Instr} (h : Effect s t i) : t.imemWord = s.imemWord := by
  obtain ⟨-, himem, -, ho⟩ := h.control
  funext k
  rw [State.imemWord, State.imemWord, himem, ho.epoch]

/-- While `pc` is at most 256 the core does not stop the model: it overruns, runs the command or finds none. -/
theorem exists_runCommand_next (hp : s.pc.toNat ≤ 256) : ∃ t, runCommand s = .next t := by
  rcases hp.eq_or_lt with hp | hp
  · exact ⟨_, runCommand_overrun hp⟩
  cases hd : decode (s.imemWord s.pc.toNat) with
  | error r => exact ⟨_, runCommand_illegal hp hd⟩
  | ok i =>
    obtain ⟨hwf, -⟩ := decode_eq_ok_iff.1 hd
    obtain ⟨t, ht, -⟩ := commandsCompleteOrTrap i s hwf
    exact ⟨t, (runCommand_ok hp hd).trans ht⟩

/-- The step from `s` to `t` ends the run where it stands, in DONE only if `END` stands there. -/
structure EndsRun (s t : State) : Prop where
  ended : RunEnded t
  pc : t.pc = s.pc
  done : t.run = .done → decode (s.imemWord s.pc.toNat) = .ok .endRun

/-- The step from `s` to `t` takes the run on to the next word, in the same IMEM and with the core alone to move. -/
structure ContinuesRun (s t : State) : Prop where
  pc_lt : s.pc.toNat < 256
  run : t.run = .busy
  agenda : t.agenda = []
  pc : t.pc.toNat = s.pc.toNat + 1
  imemWord : t.imemWord = s.imemWord

/-- A command that completes has written neither `run`, nor the agenda, nor IMEM, and `pc + 1` does not wrap. -/
theorem Effect.continuesRun {i : Instr} (h : Effect s t i) (hr : s.run = .busy) (hag : s.agenda = [])
    (hp : s.pc.toNat < 256) : ContinuesRun s t.advance := by
  obtain ⟨hpc, -, hc, ho⟩ := h.control
  exact {
    pc_lt := hp
    run := hc.run.trans hr
    agenda := ho.agenda.trans hag
    pc := by
      rw [State.advance_pc, hpc, BitVec.toNat_add_of_lt (show s.pc.toNat + 1 < 2 ^ 9 by omega)]
      rfl
    imemWord := h.imemWord_eq }

/-- With the core alone to move, a step of a run ends it or takes it on to the next word (R90, R188). -/
theorem step_endsRun_or_continuesRun (hr : s.run = .busy) (hag : s.agenda = []) (hp : s.pc.toNat ≤ 256) :
    ∃ t, step s = .next t ∧ (EndsRun s t ∨ ContinuesRun s t) := by
  obtain ⟨t, ht⟩ := exists_runCommand_next hp
  have hm : coreMove s = .next t := (coreMove_busy hr).trans ht
  refine ⟨t, (step_of_empty hag).trans hm, ?_⟩
  rcases coreMove_cases hm with ⟨hnb, -⟩ | ⟨-, -, ⟨c, rfl⟩ | ⟨-, hd, rfl⟩ | ⟨i, w, hlt, -, hw, rfl, -⟩⟩
  · exact absurd hr hnb
  · exact .inl ⟨.inr rfl, rfl, nofun⟩
  · exact .inl ⟨.inl rfl, rfl, fun _ => hd⟩
  · exact .inr (hw.continuesRun hr hag hlt)

/-- Settles O48, by induction on `256 - pc`, which every step that does not end the run makes smaller. -/
theorem everyRunTerminates : Obligations.EveryRunTerminates := by
  intro s hr hag hp
  induction hn : 256 - s.pc.toNat using Nat.strong_induction_on generalizing s with
  | h n ih =>
    obtain ⟨u, hstep, hend | hcont⟩ := step_endsRun_or_continuesRun hr hag hp
    · refine ⟨0, u, by omega, (reaches_succ_of_step hstep).2 rfl, hend.ended, by rw [hend.pc, Nat.add_zero], ?_, ?_⟩
      · exact hend.pc ▸ hend.done
      · intro j v hj hv
        obtain rfl := Nat.le_zero.1 hj
        obtain rfl := reaches_zero.1 hv
        exact ⟨hr, rfl⟩
    · have hlt := hcont.pc_lt
      have hpc := hcont.pc
      obtain ⟨k, t, hk, ht, hended, htpc, hdone, hbusy⟩ :=
        ih (256 - u.pc.toNat) (by omega) u hcont.run hcont.agenda (by omega) rfl
      refine ⟨k + 1, t, by omega, (reaches_succ_of_step hstep).2 ht, hended, by omega, ?_, fun j v hj hv => ?_⟩
      · exact hcont.imemWord ▸ hdone
      · cases j with
        | zero =>
          obtain rfl := reaches_zero.1 hv
          exact ⟨hr, rfl⟩
        | succ j =>
          obtain ⟨hvr, hvpc⟩ := hbusy j v (Nat.le_of_succ_le_succ hj) ((reaches_succ_of_step hstep).1 hv)
          exact ⟨hvr, by omega⟩

end Sys2Proof.Machine
end
